-- ==== Sys2Proof/Word.lean ====
section
/-! DEFINITION. The bit-vector types of the machine and their plainest arithmetic. -/

namespace Sys2Proof

/-- One byte of memory or of an instruction (20_memory.md R50). -/
abbrev Byte := BitVec 8

/-- One FP16 pattern, one lane of a vector (40_fp16_numerics.md R120). -/
abbrev Half := BitVec 16

/-- A 64-bit register, address or opmask (10_state.md R23, R28, R29). -/
abbrev Word64 := BitVec 64

/-- A vector register, all `MAXVL` = 512 bits of it (10_state.md R20). -/
abbrev Vec := BitVec 512

end Sys2Proof
end

