-- ==== Sys2Proof/Syntax.lean ====
section
/-! DEFINITION. Instructions as syntax: one constructor of `Instr` per row of opcode_table.json. -/

namespace Sys2Proof

/-- A vector register number, 0 to 31 (10_state.md R20). -/
abbrev VReg := Fin 32

/-- A general register number, 0 to 15: RAX, RCX, RDX, RBX, RSP, RBP, RSI, RDI, R8 to R15 (10_state.md R29). -/
abbrev GReg := Fin 16

/-- An opmask register number, 0 to 7 (10_state.md R23). -/
abbrev KReg := Fin 8

/-- Rounding modes, in the order of their two-bit encodings 00, 01, 10, 11 (10_state.md R25). -/
inductive RoundMode where
  /-- to nearest, ties to even -/
  | rne
  /-- down, toward minus infinity -/
  | rd
  /-- up, toward plus infinity -/
  | ru
  /-- toward zero -/
  | rz
  deriving DecidableEq, Repr

/-- Which operands multiply and which is added (00_scope.md R11, 41_vfmsubadd_ph.md R162). -/
inductive Fma where
  | f132
  | f213
  | f231
  deriving DecidableEq, Repr

/-- The vector length `VL` (00_scope.md R6). -/
inductive VecLen where
  | v128
  | v256
  | v512
  deriving DecidableEq, Repr

/-- The writemask operand (30_encoding.md R94). `merging k0` and `zeroing k0` are ill-formed. -/
inductive Writemask where
  /-- `aaa = 000b`: every lane active -/
  | all
  /-- `z = 0`: inactive lanes keep their value -/
  | merging (k : KReg)
  /-- `z = 1`: inactive lanes are written with zero -/
  | zeroing (k : KReg)
  deriving DecidableEq, Repr

/-- The two segment overrides that have an effect (30_encoding.md R81, 20_memory.md R56). -/
inductive SegOverride where
  | fs
  | gs
  deriving DecidableEq, Repr

/-- The legacy bytes before the 62h byte that R81 admits: at most one of 64h, 65h and at most one 67h.
They count in the instruction's length (R102) also where they have no other effect. -/
structure Legacy where
  seg    : Option SegOverride
  addr32 : Bool
  deriving DecidableEq, Repr

/-- The displacement as encoded (30_encoding.md R98): none, one byte that R104 scales, or four bytes. -/
inductive Disp where
  | none
  | d8 (v : BitVec 8)
  | d32 (v : BitVec 32)
  deriving DecidableEq, Repr

/-- The scale of an index register, `2^ss` (30_encoding.md R97). -/
inductive Scale where
  | x1
  | x2
  | x4
  | x8
  deriving DecidableEq, Repr

/-- An index register with its scale. Register 4 (RSP) is ill-formed here: it encodes "no index" (R97). -/
structure Index where
  reg   : GReg
  scale : Scale
  deriving DecidableEq, Repr

/-- The addressing form of a memory operand (30_encoding.md R96, R97). -/
inductive MemAddr where
  /-- ModRM alone: base register and displacement. -/
  | base (b : GReg) (disp : Disp)
  /-- SIB with a base register. -/
  | sib (b : GReg) (index : Option Index) (disp : Disp)
  /-- SIB without a base register (`mod = 00b`, `SIB.base = 101b`). -/
  | sibNoBase (index : Option Index) (disp : BitVec 32)
  /-- RIP-relative (R99). -/
  | ripRel (disp : BitVec 32)
  deriving DecidableEq, Repr

/-- A memory operand: its address and `EVEX.b`, broadcast of one element (30_encoding.md R95). -/
structure MemOp where
  addr  : MemAddr
  bcast : Bool
  deriving DecidableEq, Repr

/-- The instructions: three mnemonics, seven rows each (30_encoding.md R108). The operands are the legacy
bytes, the writemask, operand 1 (`dest`), operand 2 (`src2`), operand 3 (`src3`, or the memory operand) and,
on the `{er}` rows, the embedded rounding mode. -/
inductive Instr where
  | vfmsubadd132phXmmReg (leg : Legacy) (mask : Writemask) (dest src2 src3 : VReg)
  | vfmsubadd132phXmmMem (leg : Legacy) (mask : Writemask) (dest src2 : VReg) (mem : MemOp)
  | vfmsubadd132phYmmReg (leg : Legacy) (mask : Writemask) (dest src2 src3 : VReg)
  | vfmsubadd132phYmmMem (leg : Legacy) (mask : Writemask) (dest src2 : VReg) (mem : MemOp)
  | vfmsubadd132phZmmReg (leg : Legacy) (mask : Writemask) (dest src2 src3 : VReg)
  | vfmsubadd132phZmmEr (leg : Legacy) (mask : Writemask) (dest src2 src3 : VReg) (rc : RoundMode)
  | vfmsubadd132phZmmMem (leg : Legacy) (mask : Writemask) (dest src2 : VReg) (mem : MemOp)
  | vfmsubadd213phXmmReg (leg : Legacy) (mask : Writemask) (dest src2 src3 : VReg)
  | vfmsubadd213phXmmMem (leg : Legacy) (mask : Writemask) (dest src2 : VReg) (mem : MemOp)
  | vfmsubadd213phYmmReg (leg : Legacy) (mask : Writemask) (dest src2 src3 : VReg)
  | vfmsubadd213phYmmMem (leg : Legacy) (mask : Writemask) (dest src2 : VReg) (mem : MemOp)
  | vfmsubadd213phZmmReg (leg : Legacy) (mask : Writemask) (dest src2 src3 : VReg)
  | vfmsubadd213phZmmEr (leg : Legacy) (mask : Writemask) (dest src2 src3 : VReg) (rc : RoundMode)
  | vfmsubadd213phZmmMem (leg : Legacy) (mask : Writemask) (dest src2 : VReg) (mem : MemOp)
  | vfmsubadd231phXmmReg (leg : Legacy) (mask : Writemask) (dest src2 src3 : VReg)
  | vfmsubadd231phXmmMem (leg : Legacy) (mask : Writemask) (dest src2 : VReg) (mem : MemOp)
  | vfmsubadd231phYmmReg (leg : Legacy) (mask : Writemask) (dest src2 src3 : VReg)
  | vfmsubadd231phYmmMem (leg : Legacy) (mask : Writemask) (dest src2 : VReg) (mem : MemOp)
  | vfmsubadd231phZmmReg (leg : Legacy) (mask : Writemask) (dest src2 src3 : VReg)
  | vfmsubadd231phZmmEr (leg : Legacy) (mask : Writemask) (dest src2 src3 : VReg) (rc : RoundMode)
  | vfmsubadd231phZmmMem (leg : Legacy) (mask : Writemask) (dest src2 : VReg) (mem : MemOp)
  deriving DecidableEq, Repr

/-- What tells the seven rows of one mnemonic apart: operand 3 and, with it, `VL` and the source of the
rounding mode (30_encoding.md R91). -/
inductive Form where
  /-- register form, `EVEX.b = 0` -/
  | reg (vl : VecLen) (src3 : VReg)
  /-- register form with embedded rounding, `EVEX.b = 1`, always 512 bits -/
  | er (src3 : VReg) (rc : RoundMode)
  /-- memory form, `EVEX.b` in the operand -/
  | mem (vl : VecLen) (op : MemOp)
  deriving DecidableEq, Repr

/-- An instruction taken apart into the fields its encoding holds. -/
structure Parts where
  fma  : Fma
  leg  : Legacy
  mask : Writemask
  dest : VReg
  src2 : VReg
  form : Form
  deriving DecidableEq, Repr

end Sys2Proof
end

