-- ==== Sys2Proof/WellFormed.lean ====
section
/-! DEFINITION. Which instruction terms an encoding exists for. -/

namespace Sys2Proof

/-- `k0` cannot be a writemask (10_state.md R23, 30_encoding.md R94, R105). -/
def Writemask.wf : Writemask → Bool
  | .all       => true
  | .merging k => k != 0
  | .zeroing k => k != 0

/-- Register 4 as an index encodes "no index" (30_encoding.md R97). -/
def Index.wf (i : Index) : Bool := i.reg != 4

/-- The low three bits of a register number: what ModRM and SIB hold of it. -/
def GReg.low3 (r : GReg) : Nat := r.val % 8

/-- The addressing forms of R96 and R97: without SIB a base whose low bits are 100b does not exist, and a
base whose low bits are 101b needs a displacement, with or without SIB. -/
def MemAddr.wf : MemAddr → Bool
  | .base b disp      => b.low3 != 4 && (b.low3 != 5 || disp != .none)
  | .sib b index disp => index.all Index.wf && (b.low3 != 5 || disp != .none)
  | .sibNoBase index _ => index.all Index.wf
  | .ripRel _         => true

/-- The well-formed instructions: those some byte sequence of 30_encoding.md encodes. -/
def Instr.wf : Instr → Bool
  | .vfmsubadd132phXmmReg _ m _ _ _ | .vfmsubadd132phYmmReg _ m _ _ _ | .vfmsubadd132phZmmReg _ m _ _ _
  | .vfmsubadd213phXmmReg _ m _ _ _ | .vfmsubadd213phYmmReg _ m _ _ _ | .vfmsubadd213phZmmReg _ m _ _ _
  | .vfmsubadd231phXmmReg _ m _ _ _ | .vfmsubadd231phYmmReg _ m _ _ _ | .vfmsubadd231phZmmReg _ m _ _ _
  | .vfmsubadd132phZmmEr _ m _ _ _ _ | .vfmsubadd213phZmmEr _ m _ _ _ _
  | .vfmsubadd231phZmmEr _ m _ _ _ _ => m.wf
  | .vfmsubadd132phXmmMem _ m _ _ op | .vfmsubadd132phYmmMem _ m _ _ op | .vfmsubadd132phZmmMem _ m _ _ op
  | .vfmsubadd213phXmmMem _ m _ _ op | .vfmsubadd213phYmmMem _ m _ _ op | .vfmsubadd213phZmmMem _ m _ _ op
  | .vfmsubadd231phXmmMem _ m _ _ op | .vfmsubadd231phYmmMem _ m _ _ op
  | .vfmsubadd231phZmmMem _ m _ _ op => m.wf && op.addr.wf

end Sys2Proof
end

