-- ==== Sys2Proof/Decode.lean ====
section
/-! DEFINITION. Bytes to instructions (30_encoding.md R80 to R109), and after it the encoder. -/

namespace Sys2Proof

/-! ### Instructions and their parts -/

/-- The fields of an instruction. -/
def Instr.parts : Instr → Parts
  | .vfmsubadd132phXmmReg leg m d a b => ⟨.f132, leg, m, d, a, .reg .v128 b⟩
  | .vfmsubadd132phYmmReg leg m d a b => ⟨.f132, leg, m, d, a, .reg .v256 b⟩
  | .vfmsubadd132phZmmReg leg m d a b => ⟨.f132, leg, m, d, a, .reg .v512 b⟩
  | .vfmsubadd132phZmmEr leg m d a b rc => ⟨.f132, leg, m, d, a, .er b rc⟩
  | .vfmsubadd132phXmmMem leg m d a op => ⟨.f132, leg, m, d, a, .mem .v128 op⟩
  | .vfmsubadd132phYmmMem leg m d a op => ⟨.f132, leg, m, d, a, .mem .v256 op⟩
  | .vfmsubadd132phZmmMem leg m d a op => ⟨.f132, leg, m, d, a, .mem .v512 op⟩
  | .vfmsubadd213phXmmReg leg m d a b => ⟨.f213, leg, m, d, a, .reg .v128 b⟩
  | .vfmsubadd213phYmmReg leg m d a b => ⟨.f213, leg, m, d, a, .reg .v256 b⟩
  | .vfmsubadd213phZmmReg leg m d a b => ⟨.f213, leg, m, d, a, .reg .v512 b⟩
  | .vfmsubadd213phZmmEr leg m d a b rc => ⟨.f213, leg, m, d, a, .er b rc⟩
  | .vfmsubadd213phXmmMem leg m d a op => ⟨.f213, leg, m, d, a, .mem .v128 op⟩
  | .vfmsubadd213phYmmMem leg m d a op => ⟨.f213, leg, m, d, a, .mem .v256 op⟩
  | .vfmsubadd213phZmmMem leg m d a op => ⟨.f213, leg, m, d, a, .mem .v512 op⟩
  | .vfmsubadd231phXmmReg leg m d a b => ⟨.f231, leg, m, d, a, .reg .v128 b⟩
  | .vfmsubadd231phYmmReg leg m d a b => ⟨.f231, leg, m, d, a, .reg .v256 b⟩
  | .vfmsubadd231phZmmReg leg m d a b => ⟨.f231, leg, m, d, a, .reg .v512 b⟩
  | .vfmsubadd231phZmmEr leg m d a b rc => ⟨.f231, leg, m, d, a, .er b rc⟩
  | .vfmsubadd231phXmmMem leg m d a op => ⟨.f231, leg, m, d, a, .mem .v128 op⟩
  | .vfmsubadd231phYmmMem leg m d a op => ⟨.f231, leg, m, d, a, .mem .v256 op⟩
  | .vfmsubadd231phZmmMem leg m d a op => ⟨.f231, leg, m, d, a, .mem .v512 op⟩

/-- The row of the opcode table with these fields (30_encoding.md R91, R108). -/
def Parts.instr : Parts → Instr
  | ⟨.f132, leg, m, d, a, .reg .v128 b⟩ => .vfmsubadd132phXmmReg leg m d a b
  | ⟨.f132, leg, m, d, a, .reg .v256 b⟩ => .vfmsubadd132phYmmReg leg m d a b
  | ⟨.f132, leg, m, d, a, .reg .v512 b⟩ => .vfmsubadd132phZmmReg leg m d a b
  | ⟨.f132, leg, m, d, a, .er b rc⟩ => .vfmsubadd132phZmmEr leg m d a b rc
  | ⟨.f132, leg, m, d, a, .mem .v128 op⟩ => .vfmsubadd132phXmmMem leg m d a op
  | ⟨.f132, leg, m, d, a, .mem .v256 op⟩ => .vfmsubadd132phYmmMem leg m d a op
  | ⟨.f132, leg, m, d, a, .mem .v512 op⟩ => .vfmsubadd132phZmmMem leg m d a op
  | ⟨.f213, leg, m, d, a, .reg .v128 b⟩ => .vfmsubadd213phXmmReg leg m d a b
  | ⟨.f213, leg, m, d, a, .reg .v256 b⟩ => .vfmsubadd213phYmmReg leg m d a b
  | ⟨.f213, leg, m, d, a, .reg .v512 b⟩ => .vfmsubadd213phZmmReg leg m d a b
  | ⟨.f213, leg, m, d, a, .er b rc⟩ => .vfmsubadd213phZmmEr leg m d a b rc
  | ⟨.f213, leg, m, d, a, .mem .v128 op⟩ => .vfmsubadd213phXmmMem leg m d a op
  | ⟨.f213, leg, m, d, a, .mem .v256 op⟩ => .vfmsubadd213phYmmMem leg m d a op
  | ⟨.f213, leg, m, d, a, .mem .v512 op⟩ => .vfmsubadd213phZmmMem leg m d a op
  | ⟨.f231, leg, m, d, a, .reg .v128 b⟩ => .vfmsubadd231phXmmReg leg m d a b
  | ⟨.f231, leg, m, d, a, .reg .v256 b⟩ => .vfmsubadd231phYmmReg leg m d a b
  | ⟨.f231, leg, m, d, a, .reg .v512 b⟩ => .vfmsubadd231phZmmReg leg m d a b
  | ⟨.f231, leg, m, d, a, .er b rc⟩ => .vfmsubadd231phZmmEr leg m d a b rc
  | ⟨.f231, leg, m, d, a, .mem .v128 op⟩ => .vfmsubadd231phXmmMem leg m d a op
  | ⟨.f231, leg, m, d, a, .mem .v256 op⟩ => .vfmsubadd231phYmmMem leg m d a op
  | ⟨.f231, leg, m, d, a, .mem .v512 op⟩ => .vfmsubadd231phZmmMem leg m d a op

/-- `VL` of a form; embedded rounding is always 512-bit (R91). -/
def Form.vecLen : Form → VecLen
  | .reg vl _ => vl
  | .er _ _   => .v512
  | .mem vl _ => vl

/-- The embedded rounding mode of a form, if it has one; it brings SAE with it (R92). -/
def Form.embedded : Form → Option RoundMode
  | .reg _ _ => none
  | .er _ rc => some rc
  | .mem _ _ => none

/-! ### Bit fields -/

/-- Bit `i` of a register number. -/
def VReg.bit (r : VReg) (i : Nat) : Bool := r.val.testBit i

/-- Bits 2:0 of a vector register number, as ModRM holds them. -/
def VReg.field3 (r : VReg) : BitVec 3 := BitVec.ofNat 3 r.val

/-- Bits 3:0 of a vector register number, before the inversion of `vvvv`. -/
def VReg.field4 (r : VReg) : BitVec 4 := BitVec.ofNat 4 r.val

/-- Bit 3 of a general register number. -/
def GReg.bit3 (r : GReg) : Bool := r.val.testBit 3

/-- Bits 2:0 of a general register number, as ModRM and SIB hold them. -/
def GReg.field3 (r : GReg) : BitVec 3 := BitVec.ofNat 3 r.val

/-- A 5-bit vector register number from two extension bits and a 3-bit field (R90). -/
def vregOf (b4 b3 : Bool) (low : BitVec 3) : VReg :=
  (BitVec.ofBool b4 ++ BitVec.ofBool b3 ++ low).toFin

/-- A 5-bit vector register number from `V'` and `vvvv` (R90). -/
def vregOfV (b4 : Bool) (low : BitVec 4) : VReg := (BitVec.ofBool b4 ++ low).toFin

/-- A 4-bit general register number from an extension bit and a 3-bit field (R96, R97). -/
def gregOf (b3 : Bool) (low : BitVec 3) : GReg := (BitVec.ofBool b3 ++ low).toFin

/-- The opmask register number in `aaa` (R94). -/
def kregOf (aaa : BitVec 3) : KReg := aaa.toFin

/-- `aaa` for an opmask register. -/
def KReg.field (k : KReg) : BitVec 3 := BitVec.ofFin k

/-- Rounding control, two bits (10_state.md R25, 30_encoding.md R92). -/
def roundModeOf (rc : BitVec 2) : RoundMode :=
  if rc = 0 then .rne else if rc = 1 then .rd else if rc = 2 then .ru else .rz

/-- The two bits that encode a rounding mode. -/
def RoundMode.bits : RoundMode → BitVec 2
  | .rne => 0
  | .rd => 1
  | .ru => 2
  | .rz => 3

/-- `L'L` read as a vector length; 11b is reserved (R86, R91). -/
def vecLenOf (ll : BitVec 2) : Option VecLen :=
  if ll = 0 then some .v128 else if ll = 1 then some .v256 else if ll = 2 then some .v512 else none

/-- `L'L` for a vector length. -/
def VecLen.bits : VecLen → BitVec 2
  | .v128 => 0
  | .v256 => 1
  | .v512 => 2

/-- `SIB.ss` (R97). -/
def scaleOf (ss : BitVec 2) : Scale :=
  if ss = 0 then .x1 else if ss = 1 then .x2 else if ss = 2 then .x4 else .x8

/-- The two bits that encode a scale. -/
def Scale.bits : Scale → BitVec 2
  | .x1 => 0
  | .x2 => 1
  | .x4 => 2
  | .x8 => 3

/-- The opcode byte (R88). -/
def Fma.opcode : Fma → Byte
  | .f132 => 0x97
  | .f213 => 0xA7
  | .f231 => 0xB7

/-- The mnemonic an opcode byte selects (R88). -/
def fmaOf (op : Byte) : Option Fma :=
  if op = 0x97 then some .f132 else if op = 0xA7 then some .f213 else if op = 0xB7 then some .f231 else none

/-- The payload of the EVEX form (R84, R85, R86). The register-extension fields hold bits of register
numbers, that is, the complements of the stored bits. -/
structure Evex where
  r        : Bool
  x        : Bool
  b        : Bool
  r'       : Bool
  reserved : Bool
  mmm      : BitVec 3
  w        : Bool
  vvvv     : BitVec 4
  fixed    : Bool
  pp       : BitVec 2
  z        : Bool
  ll       : BitVec 2
  bc       : Bool
  v'       : Bool
  aaa      : BitVec 3
  deriving DecidableEq, Repr

/-- The fields of P0, P1, P2 (R84, R85, R86). -/
def evexOf (p0 p1 p2 : Byte) : Evex where
  r        := !p0.getLsbD 7
  x        := !p0.getLsbD 6
  b        := !p0.getLsbD 5
  r'       := !p0.getLsbD 4
  reserved := p0.getLsbD 3
  mmm      := p0.extractLsb' 0 3
  w        := p1.getLsbD 7
  vvvv     := ~~~(p1.extractLsb' 3 4)
  fixed    := p1.getLsbD 2
  pp       := p1.extractLsb' 0 2
  z        := p2.getLsbD 7
  ll       := p2.extractLsb' 5 2
  bc       := p2.getLsbD 4
  v'       := !p2.getLsbD 3
  aaa      := p2.extractLsb' 0 3

/-- P0 (R84). -/
def Evex.p0 (e : Evex) : Byte :=
  BitVec.ofBool (!e.r) ++ BitVec.ofBool (!e.x) ++ BitVec.ofBool (!e.b) ++ BitVec.ofBool (!e.r')
    ++ BitVec.ofBool e.reserved ++ e.mmm

/-- P1 (R85). -/
def Evex.p1 (e : Evex) : Byte :=
  BitVec.ofBool e.w ++ (~~~e.vvvv) ++ BitVec.ofBool e.fixed ++ e.pp

/-- P2 (R86). -/
def Evex.p2 (e : Evex) : Byte :=
  BitVec.ofBool e.z ++ e.ll ++ BitVec.ofBool e.bc ++ BitVec.ofBool (!e.v') ++ e.aaa

/-! ### Legacy bytes -/

/-- What the bytes before 62h were: the overrides seen, a byte of R82, or an arrangement outside R81. -/
structure Scan where
  seg     : Option SegOverride
  addr32  : Bool
  illegal : Bool
  outside : Bool
  deriving DecidableEq, Repr

/-- Before any byte is read. -/
def Scan.start : Scan := ⟨none, false, false, false⟩

/-- A segment override: the first counts, a second one is an arrangement outside R81. -/
def Scan.override (s : Scan) (o : SegOverride) : Scan :=
  match s.seg with
  | none   => { s with seg := some o }
  | some _ => { s with outside := true }

/-- LOCK, 66h, F2h, F3h and REX (R82). -/
def illegalLegacy (b : Byte) : Bool :=
  b == 0xF0 || b == 0x66 || b == 0xF2 || b == 0xF3 || b.extractLsb' 4 4 == 4

/-- The segment bytes that 64-bit mode treats as null (R81). -/
def nullSegment (b : Byte) : Bool := b == 0x26 || b == 0x2E || b == 0x36 || b == 0x3E

/-- One legacy byte, or `none` where the byte is not one (R81, R82). -/
def Scan.byte (s : Scan) (b : Byte) : Option Scan :=
  if b = 0x64 then some (s.override .fs)
  else if b = 0x65 then some (s.override .gs)
  else if b = 0x67 then some (if s.addr32 then { s with outside := true } else { s with addr32 := true })
  else if nullSegment b then some { s with outside := true }
  else if illegalLegacy b then some { s with illegal := true }
  else none

/-- Read the legacy bytes at the front and give the rest (R109, step 2). -/
def scanLegacy : Scan → List Byte → Scan × List Byte
  | s, []      => (s, [])
  | s, b :: bs =>
    match s.byte b with
    | some s' => scanLegacy s' bs
    | none    => (s, b :: bs)

/-! ### Addressing forms -/

/-- A 4-byte displacement, little-endian (R98, 20_memory.md R51). -/
def disp32Of : List Byte → Option (BitVec 32)
  | b0 :: b1 :: b2 :: b3 :: _ => some (b3 ++ b2 ++ b1 ++ b0)
  | _ => none

/-- A 1-byte displacement, unscaled (R98). -/
def disp8Of : List Byte → Option (BitVec 8)
  | b :: _ => some b
  | _ => none

/-- The displacement that follows for `mod`, where none is forced (R96, R98). -/
def dispOf (mod : BitVec 2) (rest : List Byte) : Option Disp :=
  if mod = 0 then some .none
  else if mod = 1 then (disp8Of rest).map .d8
  else (disp32Of rest).map .d32

/-- The index of a SIB byte (R97). -/
def indexOf (x : Bool) (sib : Byte) : Option Index :=
  let r := gregOf x (sib.extractLsb' 3 3)
  if r = 4 then none else some ⟨r, scaleOf (sib.extractLsb' 6 2)⟩

/-- The address of a memory form from `mod`, `rm`, the extension bits and the bytes after ModRM (R96, R97);
`none` where bytes are missing. -/
def addrOf (mod : BitVec 2) (rm : BitVec 3) (x b : Bool) (rest : List Byte) : Option MemAddr :=
  if rm = 4 then
    match rest with
    | [] => none
    | sib :: rest =>
      if mod = 0 ∧ sib.extractLsb' 0 3 = 5 then (disp32Of rest).map (.sibNoBase (indexOf x sib))
      else (dispOf mod rest).map (.sib (gregOf b (sib.extractLsb' 0 3)) (indexOf x sib))
  else if mod = 0 ∧ rm = 5 then (disp32Of rest).map .ripRel
  else (dispOf mod rest).map (.base (gregOf b rm))

/-! ### The decoder -/

/-- Why a byte sequence is not an instruction of the spec. -/
inductive DecodeRefusal where
  /-- the legacy bytes are an arrangement outside R81 -/
  | legacyBytes
  /-- not one of the nine encodings: no 62h, or another map, `pp`, `W` or opcode (R106) -/
  | notInTable
  deriving DecidableEq, Repr

/-- The outcome of decoding: an instruction, #UD (R105), a refusal (R106), or more bytes are needed. -/
inductive DecodeResult where
  | ok (i : Instr)
  | illegal
  | refused (r : DecodeRefusal)
  | short
  deriving DecidableEq, Repr

/-- The writemask of `z` and `aaa`; `z = 1` without a mask register is illegal (R94, R105). -/
def maskOf (z : Bool) (aaa : BitVec 3) : Option Writemask :=
  if aaa = 0 then (if z then none else some .all)
  else some (if z then .zeroing (kregOf aaa) else .merging (kregOf aaa))

/-- The conditions of R105 on `P0[3]` and `P1[2]`. -/
def Evex.badBits (e : Evex) : Bool := e.reserved || !e.fixed

/-- The form of an encoding, R91: the outer `none` is a reserved `L'L` (#UD), the inner one missing bytes. -/
def formOf (e : Evex) (mod : BitVec 2) (rm : BitVec 3) (rest : List Byte) : Option (Option Form) :=
  if mod = 3 then
    if e.bc then some (some (.er (vregOf e.x e.b rm) (roundModeOf e.ll)))
    else (vecLenOf e.ll).map fun vl => some (.reg vl (vregOf e.x e.b rm))
  else (vecLenOf e.ll).map fun vl => (addrOf mod rm e.x e.b rest).map fun a => .mem vl ⟨a, e.bc⟩

/-- Steps 5, 6 and 8 of R109, once the bytes are known to be one of the nine encodings. The reserved fields are
illegal whatever stands after ModRM, and whether or not it can be fetched (DESIGN CHOICE, log 32). -/
def decodeFields (fma : Fma) (leg : Legacy) (e : Evex) (modrm : Byte) (rest : List Byte) : DecodeResult :=
  if e.badBits then .illegal
  else
    match maskOf e.z e.aaa with
    | none => .illegal
    | some mask =>
      match formOf e (modrm.extractLsb' 6 2) (modrm.extractLsb' 0 3) rest with
      | none => .illegal
      | some none => .short
      | some (some form) =>
        .ok (Parts.instr
          { fma, leg, mask, form
            dest := vregOf e.r' e.r (modrm.extractLsb' 3 3)
            src2 := vregOfV e.v' e.vvvv })

/-- Step 4 of R109: `mmm`, `pp`, `W` and the opcode are those of R84, R85, R88. -/
def inTable (e : Evex) (op : Byte) : Option Fma :=
  if e.mmm = 6 ∧ e.pp = 1 ∧ e.w = false then fmaOf op else none

/-- The bytes after 62h, with what stood before it (R109 steps 2 and 4 to 8). A legacy byte of R82 makes
an instruction of the table illegal; other sequences stay refused (60_exceptions.md R201). Where a sequence outside the
table also has legacy bytes R81 does not admit, the refusal names the table (DESIGN CHOICE, log 35). -/
def decodeEvex (s : Scan) : List Byte → DecodeResult
  | p0 :: p1 :: p2 :: op :: modrm :: rest =>
    match inTable (evexOf p0 p1 p2) op with
    | none => .refused .notInTable
    | some fma =>
      if s.illegal then .illegal
      else if s.outside then .refused .legacyBytes
      else decodeFields fma ⟨s.seg, s.addr32⟩ (evexOf p0 p1 p2) modrm rest
  | _ => .short

/-- Decode the instruction at the front of a byte sequence (R109), whatever follows it. -/
def decode (bytes : List Byte) : DecodeResult :=
  match scanLegacy .start bytes with
  | (_, []) => .short
  | (s, b :: rest) => if b = 0x62 then decodeEvex s rest else .refused .notInTable

/-! ### Lengths -/

/-- Number of legacy bytes (R102). -/
def Legacy.count (l : Legacy) : Nat := (if l.seg.isSome then 1 else 0) + (if l.addr32 then 1 else 0)

/-- Number of displacement bytes (R98). -/
def Disp.count : Disp → Nat
  | .none  => 0
  | .d8 _  => 1
  | .d32 _ => 4

/-- Bytes after ModRM (R102). -/
def MemAddr.count : MemAddr → Nat
  | .base _ d      => d.count
  | .sib _ _ d     => 1 + d.count
  | .sibNoBase _ _ => 5
  | .ripRel _      => 4

/-- `ilen` of a register form (R102). -/
def regLength (l : Legacy) : Nat := l.count + 6

/-- `ilen` of a memory form (R102). -/
def memLength (l : Legacy) (op : MemOp) : Nat := l.count + 6 + op.addr.count

/-- `ilen` (R102). -/
def Instr.length (i : Instr) : Nat :=
  match i.parts.form with
  | .reg _ _  => regLength i.parts.leg
  | .er _ _   => regLength i.parts.leg
  | .mem _ op => memLength i.parts.leg op

/-! ### The encoder -/

/-- The legacy bytes: the segment override first (R81 admits either order). -/
def Legacy.bytes (l : Legacy) : List Byte :=
  (match l.seg with
   | none => ([] : List Byte)
   | some .fs => [0x64]
   | some .gs => [0x65]) ++ (if l.addr32 then [0x67] else [])

/-- `z` and `aaa` (R94). -/
def Writemask.fields : Writemask → Bool × BitVec 3
  | .all       => (false, 0)
  | .merging k => (false, k.field)
  | .zeroing k => (true, k.field)

/-- The four bytes of a 32-bit displacement, least significant first. -/
def disp32Bytes (d : BitVec 32) : List Byte :=
  [d.extractLsb' 0 8, d.extractLsb' 8 8, d.extractLsb' 16 8, d.extractLsb' 24 8]

/-- The displacement bytes. -/
def Disp.bytes : Disp → List Byte
  | .none  => []
  | .d8 v  => [v]
  | .d32 v => disp32Bytes v

/-- `mod` for a displacement (R96). -/
def Disp.mod : Disp → BitVec 2
  | .none  => 0
  | .d8 _  => 1
  | .d32 _ => 2

/-- The SIB byte; without an index `ss` is 0 and the index field 100b (R97). -/
def sibByte (index : Option Index) (base : BitVec 3) : Byte :=
  match index with
  | none   => (0 : BitVec 2) ++ (4 : BitVec 3) ++ base
  | some i => i.scale.bits ++ i.reg.field3 ++ base

/-- The index extension bit `X` (0 where there is no index). -/
def indexBit (index : Option Index) : Bool :=
  match index with
  | none   => false
  | some i => i.reg.bit3

/-- What an addressing form puts into the encoding: `mod`, `rm`, `X`, `B`, and the bytes after ModRM. -/
structure AddrFields where
  mod  : BitVec 2
  rm   : BitVec 3
  x    : Bool
  b    : Bool
  tail : List Byte
  deriving DecidableEq, Repr

/-- The encoding of an addressing form (R96, R97). Ignored extension bits are stored as 1. -/
def MemAddr.fields : MemAddr → AddrFields
  | .base b d      => ⟨d.mod, b.field3, false, b.bit3, d.bytes⟩
  | .sib b i d     => ⟨d.mod, 4, indexBit i, b.bit3, sibByte i b.field3 :: d.bytes⟩
  | .sibNoBase i d => ⟨0, 4, indexBit i, false, sibByte i 5 :: disp32Bytes d⟩
  | .ripRel d      => ⟨0, 5, false, false, disp32Bytes d⟩

/-- What the form puts into the encoding: `L'L` (or `RC`), `EVEX.b`, and the fields of operand 3 (R91). -/
def Form.fields : Form → BitVec 2 × Bool × AddrFields
  | .reg vl r => (vl.bits, false, ⟨3, r.field3, r.bit 4, r.bit 3, []⟩)
  | .er r rc  => (rc.bits, true, ⟨3, r.field3, r.bit 4, r.bit 3, []⟩)
  | .mem vl o => (vl.bits, o.bcast, o.addr.fields)

/-- The EVEX payload of an instruction (R84, R85, R86, R90). -/
def Parts.evex (p : Parts) : Evex where
  r        := p.dest.bit 3
  x        := p.form.fields.2.2.x
  b        := p.form.fields.2.2.b
  r'       := p.dest.bit 4
  reserved := false
  mmm      := 6
  w        := false
  vvvv     := p.src2.field4
  fixed    := true
  pp       := 1
  z        := p.mask.fields.1
  ll       := p.form.fields.1
  bc       := p.form.fields.2.1
  v'       := p.src2.bit 4
  aaa      := p.mask.fields.2

/-- The ModRM byte (R89). -/
def Parts.modrm (p : Parts) : Byte :=
  p.form.fields.2.2.mod ++ p.dest.field3 ++ p.form.fields.2.2.rm

/-- The bytes of an instruction in address order (R80). -/
def encode (i : Instr) : List Byte :=
  let p := i.parts
  p.leg.bytes ++ [0x62, p.evex.p0, p.evex.p1, p.evex.p2, p.fma.opcode, p.modrm] ++ p.form.fields.2.2.tail

/-! ### The opcode table, transcribed -/

/-- Which of a mnemonic's seven rows (R108). -/
inductive RowKind where
  | reg (vl : VecLen)
  | er
  | mem (vl : VecLen)
  deriving DecidableEq, Repr

/-- A row of opcode_table.json: the six bytes from 62h to ModRM as one number, first byte highest, as the
table spells them. -/
structure OpcodeRow where
  fma   : Fma
  kind  : RowKind
  value : BitVec 48
  mask  : BitVec 48
  deriving DecidableEq, Repr

/-- The rows of opcode_table.json for this mnemonic, in the table's order. -/
def rows132 : List OpcodeRow :=
  [⟨.f132, .reg .v128, 0x6206050097C0, 0xFF0F8770FFC0⟩,
   ⟨.f132, .mem .v128, 0x620605009700, 0xFF0F8760FF00⟩,
   ⟨.f132, .reg .v256, 0x6206052097C0, 0xFF0F8770FFC0⟩,
   ⟨.f132, .mem .v256, 0x620605209700, 0xFF0F8760FF00⟩,
   ⟨.f132, .reg .v512, 0x6206054097C0, 0xFF0F8770FFC0⟩,
   ⟨.f132, .er, 0x6206051097C0, 0xFF0F8710FFC0⟩,
   ⟨.f132, .mem .v512, 0x620605409700, 0xFF0F8760FF00⟩]

/-- The rows of opcode_table.json for this mnemonic, in the table's order. -/
def rows213 : List OpcodeRow :=
  [⟨.f213, .reg .v128, 0x62060500A7C0, 0xFF0F8770FFC0⟩,
   ⟨.f213, .mem .v128, 0x62060500A700, 0xFF0F8760FF00⟩,
   ⟨.f213, .reg .v256, 0x62060520A7C0, 0xFF0F8770FFC0⟩,
   ⟨.f213, .mem .v256, 0x62060520A700, 0xFF0F8760FF00⟩,
   ⟨.f213, .reg .v512, 0x62060540A7C0, 0xFF0F8770FFC0⟩,
   ⟨.f213, .er, 0x62060510A7C0, 0xFF0F8710FFC0⟩,
   ⟨.f213, .mem .v512, 0x62060540A700, 0xFF0F8760FF00⟩]

/-- The rows of opcode_table.json for this mnemonic, in the table's order. -/
def rows231 : List OpcodeRow :=
  [⟨.f231, .reg .v128, 0x62060500B7C0, 0xFF0F8770FFC0⟩,
   ⟨.f231, .mem .v128, 0x62060500B700, 0xFF0F8760FF00⟩,
   ⟨.f231, .reg .v256, 0x62060520B7C0, 0xFF0F8770FFC0⟩,
   ⟨.f231, .mem .v256, 0x62060520B700, 0xFF0F8760FF00⟩,
   ⟨.f231, .reg .v512, 0x62060540B7C0, 0xFF0F8770FFC0⟩,
   ⟨.f231, .er, 0x62060510B7C0, 0xFF0F8710FFC0⟩,
   ⟨.f231, .mem .v512, 0x62060540B700, 0xFF0F8760FF00⟩]

/-- All 21 rows. -/
def opcodeRows : List OpcodeRow := rows132 ++ rows213 ++ rows231

/-- The six bytes from 62h to ModRM match a row, its constraint on `mod` included (R108). -/
def OpcodeRow.covers (r : OpcodeRow) (w : BitVec 48) : Bool :=
  (w &&& r.mask) == r.value &&
    (match r.kind with
     | .mem _ => w.extractLsb' 6 2 != 3
     | _ => true)

/-- The row an instruction belongs to. -/
def Form.kind : Form → RowKind
  | .reg vl _ => .reg vl
  | .er _ _   => .er
  | .mem vl _ => .mem vl

/-- The six bytes from 62h to ModRM as one number. -/
def Parts.head (p : Parts) : BitVec 48 :=
  (0x62 : BitVec 8) ++ p.evex.p0 ++ p.evex.p1 ++ p.evex.p2 ++ p.fma.opcode ++ p.modrm

/-! ### Instructions as numbers -/

/-- The longest instruction (R102). -/
def maxLength : Nat := 13

/-- The bytes of a number whose least significant byte comes first, zeros above `nbits`. -/
def tableWordBytes (nbits w : Nat) : List Byte :=
  (List.range maxLength).map fun n => BitVec.ofNat 8 (w % 2 ^ nbits / 256 ^ n)

/-- The instruction the decoder reads from a number of `nbits` bits, first byte least significant. -/
def decodeTableWord (nbits w : Nat) : Option Instr :=
  match decode (tableWordBytes nbits w) with
  | .ok i => some i
  | _ => none

end Sys2Proof
end

