-- ==== Sys2Proof/Config.lean ====
section
/-! DEFINITION. What one machine fixes (00_scope.md R6), and the free values the spec leaves open. -/

namespace Sys2Proof

/-- `LA_BITS`, the width of a canonical linear address (00_scope.md R6, 20_memory.md R57). -/
inductive LaBits where
  | la48
  | la57
  deriving DecidableEq, Repr

/-- `FP16_DAZ_FTZ`: whether FP16 arithmetic honours MXCSR.DAZ and MXCSR.FTZ (10_state.md R27). -/
inductive DazFtz where
  | ignored
  | honoured
  deriving DecidableEq, Repr

/-- `NAN_RULE` (40_fp16_numerics.md R133): the rule the spec gives, or any other, about which nothing is known
(DESIGN CHOICE, log 19). -/
inductive NanRule where
  /-- R133: the first NaN of multiplicand, multiplier, addend, quieted -/
  | firstOperand
  /-- another rule: `Config.otherNan` -/
  | other
  deriving DecidableEq, Repr

/-- The open parameters of 00_scope.md R6. They are plain data in the state (log 2), so a statement about
every state is a statement about every setting. -/
structure Config where
  /-- `CPUID_AVX512_FP16` (10_state.md R33) -/
  avx512fp16 : Bool
  /-- `CPUID_AVX512VL` (10_state.md R33) -/
  avx512vl   : Bool
  /-- `LA_BITS` -/
  laBits     : LaBits
  /-- `FP16_DAZ_FTZ` -/
  dazFtz     : DazFtz
  /-- `NAN_RULE` -/
  nanRule    : NanRule
  deriving DecidableEq, Repr

/-! ### Free values

Each is a constant without a body: no proof can see a value of it. The first argument is the draw counter of
the state, so that each execution draws anew (log 5). -/

/-- What a physical byte nothing has written holds (10_state.md R40 "unspecified"; log 4). -/
opaque Config.unwrittenByte : (address : Nat) → Byte

/-- What a byte that other agents may write is read as, by draw and position in the operand
(20_memory.md R58, R62; log 6). -/
opaque Config.sharedByte : (draw position : Nat) → Byte

/-- Whether a non-canonical address under a byte no active lane needs faults (20_memory.md R61; log 7). -/
opaque Config.faultsOnUnneededAddress : (draw : Nat) → Bool

/-- Whether a page fault under a byte no active lane needs is raised (20_memory.md R61; log 7). -/
opaque Config.faultsOnUnneededPage : (draw : Nat) → Bool

/-- Which of several faulting bytes a #PF reports (60_exceptions.md R205; log 22). -/
opaque Config.faultChoice : (draw : Nat) → Nat

/-- Which flags besides the trapping ones a trap records (41_vfmsubadd_ph.md R171; log 23). -/
opaque Config.trapFlags : (draw : Nat) → BitVec 6

/-- The NaN delivered under another `NAN_RULE` (40_fp16_numerics.md R133; log 19). -/
opaque Config.otherNan : (x y z : Half) → Half

end Sys2Proof
end

