-- ==== Sys2Proof/Machine/State.lean ====
section
/-! DEFINITION. The state of the machine, its reset value, and the ways a step can stop. -/

namespace Sys2Proof.Machine

/-- Memory: bytes by physical location, locations strictly rising. A location that is not listed holds no
stored value; what a read of it gives is `Config.unwrittenByte` (log 4). -/
abbrev Memory := List Host.Cell

/-- The access kinds `Translate` distinguishes (20_memory.md R60). -/
inductive Access where
  | read
  | fetch
  deriving DecidableEq, Repr

/-- What lies at a physical location (20_memory.md R58, R64; log 6). -/
inductive MemType where
  /-- ordinary memory that only this processor and the loader write -/
  | ordinary
  /-- ordinary memory that other agents may write: each byte read is a free value -/
  | shared
  /-- a location whose reads have side effects -/
  | device
  deriving DecidableEq, Repr

/-- An answer of the oracle `Translate` (20_memory.md R60). The spec gives the error code no width; 32 bits are
PRESUMED (log 34). -/
inductive Translation where
  | mapped (physical : Nat) (type : MemType)
  | fault (code : BitVec 32)
  deriving DecidableEq, Repr

/-- One entry of the oracle: its answer for the linear byte addresses `first` to `last`, one access kind and
one privilege level. A mapped answer is for `first`; later addresses follow it (log 3). -/
structure Mapping where
  first  : Nat
  last   : Nat
  access : Access
  cpl    : Fin 4
  answer : Translation
  deriving DecidableEq, Repr

/-- The machine. INVENTORY.md lists each field with the rule that names it. -/
structure State where
  /-- ZMM0 to ZMM31 (10_state.md R20) -/
  zmm    : Vector Vec 32
  /-- k0 to k7 (R23) -/
  k      : Vector Word64 8
  /-- RAX to R15 (R29) -/
  gpr    : Vector Word64 16
  /-- RIP (R28) -/
  rip    : Word64
  /-- RFLAGS (R31) -/
  rflags : Word64
  /-- MXCSR (R24) -/
  mxcsr  : BitVec 32
  /-- CR0 (R32) -/
  cr0    : Word64
  /-- CR2 (R41) -/
  cr2    : Word64
  /-- CR3 (R40) -/
  cr3    : Word64
  /-- CR4 (R32) -/
  cr4    : Word64
  /-- XCR0 (R32) -/
  xcr0   : Word64
  /-- IA32_EFER (R32) -/
  efer   : Word64
  /-- the L bit of the code segment (R32, R35) -/
  csL    : Bool
  /-- the base of the code segment (R40); zero in effect in 64-bit mode (R30); its width is PRESUMED (log 30) -/
  csBase : Word64
  /-- FS.base (R30) -/
  fsBase : Word64
  /-- GS.base (R30) -/
  gsBase : Word64
  /-- CPL (R34) -/
  cpl    : Fin 4
  /-- DR0 to DR3 (60_exceptions.md R230) -/
  drAddr : Vector Word64 4
  /-- DR6 (R230) -/
  dr6    : Word64
  /-- DR7 (R230) -/
  dr7    : Word64
  /-- memory by physical location (10_state.md R36) -/
  mem    : Memory
  /-- the oracle `Translate` (20_memory.md R60; log 3) -/
  xlate  : List Mapping
  /-- the open parameters (00_scope.md R6; log 2) -/
  cfg    : Config
  /-- the model's own field: how many draws of free values there were (log 5) -/
  draws  : Nat
  deriving DecidableEq, Repr

/-- The exceptions an instruction in scope can raise (60_exceptions.md R200). -/
inductive Exn where
  /-- #UD, invalid opcode -/
  | ud
  /-- #NM, device not available -/
  | nm
  /-- #SS(0), stack-segment fault -/
  | ss
  /-- #GP(0), general protection -/
  | gp
  /-- #PF with the oracle's error code and the faulting linear address -/
  | pf (code : BitVec 32) (address : Word64)
  /-- #XM, SIMD floating-point exception -/
  | xm
  deriving DecidableEq, Repr

/-- A step that raises an exception ends in a fault with the state the exception leaves
(00_scope.md R10, 60_exceptions.md R211, R220). All are SAFE: the hardware delivers the exception from exactly
this state, and the model claims nothing about what follows. -/
inductive Fault where
  /-- #UD: raised by the decoder (R201 causes 1 to 4), by every instruction whose feature or state is not
  enabled (causes 5, 6), and in place of #XM where CR4.OSXMMEXCPT is 0 (R207). Safe. -/
  | ud (left : State)
  /-- #NM: raised by every instruction where CR0.TS is 1 (R202). Safe. -/
  | nm (left : State)
  /-- #SS(0): raised by memory forms with a non-canonical operand through SS (R203). Safe. -/
  | ss (left : State)
  /-- #GP(0): raised by memory forms with a non-canonical operand through DS, FS or GS (R204). Safe. -/
  | gp (left : State)
  /-- #PF: raised by memory forms where `Translate` answers a fault for the operand (R205). Safe. -/
  | pf (code : BitVec 32) (address : Word64) (left : State)
  /-- #XM: raised by forms without embedded rounding on an unmasked condition in an active lane (R206). Safe. -/
  | xm (left : State)
  deriving DecidableEq, Repr

/-- The situations the spec gives no meaning (00_scope.md R10). All are SAFE: the model stops where the
hardware may go on. -/
inductive Refusal where
  /-- An instruction without a meaning. No arm of exec answers with it. Safe. -/
  | notModelled (mnemonic : String)
  /-- Raised by step and by every instruction outside 64-bit mode (10_state.md R35, 30_encoding.md R114). Safe. -/
  | not64BitMode
  /-- Raised by step and by every instruction with alignment checking on (70_reset_and_hazards.md R243 P6,
  60_exceptions.md R208). Safe. -/
  | alignmentChecking
  /-- Raised by step and by every instruction with RFLAGS.TF set (R243 P7, R230). Safe. -/
  | singleStep
  /-- Raised by step and by every instruction where an enabled breakpoint matches its address, and by memory
  forms where one matches the operand (R243 P7, R230). Safe. -/
  | breakpoint
  /-- Raised by step where an instruction byte lies at a non-canonical address, and by every instruction whose
  successor would (10_state.md R28). Safe. -/
  | codeNotCanonical
  /-- Raised by step where an instruction byte lies in memory other agents may write or on a device
  (20_memory.md R64, R69). Safe. -/
  | codeNotOrdinary
  /-- Raised by step where `Translate` answers a fault for an instruction byte (70_reset_and_hazards.md R243 P5,
  93_implementation_defined.md I18; log 9). Safe. -/
  | codeNotMapped
  /-- Raised by step for an instruction that has not ended after 15 bytes (30_encoding.md R102). Safe. -/
  | codeTooLong
  /-- Raised by step for legacy bytes arranged as R81 does not admit (30_encoding.md R81). Safe. -/
  | legacyBytes
  /-- Raised by step for bytes that are not one of the nine encodings (30_encoding.md R106). Safe. -/
  | notInTable
  /-- Raised by memory forms whose operand lies on a device (20_memory.md R64). Safe. -/
  | deviceOperand
  deriving DecidableEq, Repr

/-- A step's outcome. -/
abbrev Outcome := Host.Outcome State Fault Refusal

/-- The configuration of `State.reset` (DESIGN CHOICE, log 2): the features present, as on the hardware the
spec is of, and otherwise what its authors expect. No statement rests on these values. -/
def resetConfig : Config where
  avx512fp16 := true
  avx512vl   := true
  laBits     := .la48
  dazFtz     := .ignored
  nanRule    := .firstOperand

/-- The machine after power-up or RESET (10_state.md R40). RDX, the L bit of CS and the debug registers are the
family's values (PRESUMED, logs 15 and 16). -/
def State.reset : State where
  zmm    := Vector.replicate 32 0
  k      := Vector.replicate 8 0
  gpr    := (Vector.replicate 16 0).set 2 0x000806F8
  rip    := 0xFFF0
  rflags := 0x2
  mxcsr  := 0x1F80
  cr0    := 0x60000010
  cr2    := 0
  cr3    := 0
  cr4    := 0
  xcr0   := 1
  efer   := 0
  csL    := false
  csBase := 0xFFFF0000
  fsBase := 0
  gsBase := 0
  cpl    := 0
  drAddr := Vector.replicate 4 0
  dr6    := 0xFFFF0FF0
  dr7    := 0x400
  mem    := []
  xlate  := []
  cfg    := resetConfig
  draws  := 0

end Sys2Proof.Machine
end

