-- ==== Sys2Proof/Machine/Ops.lean ====
section
/-! DEFINITION. The shared operations: memory, translation, registers, mode and premises, completing an
instruction, taking an exception. -/

namespace Sys2Proof.Machine

/-! ### Memory -/

/-- The stored byte at a physical location, if anything was stored there. -/
def Memory.byte? : Memory → Nat → Option Byte
  | [], _ => none
  | (a, b) :: m, x => if a = x then some b else Memory.byte? m x

/-- Store a byte, keeping the locations strictly rising (the loader's operation: no instruction stores,
20_memory.md R63). -/
def Memory.write : Memory → Nat → Byte → Memory
  | [], x, v => [(x, v)]
  | (a, b) :: m, x, v =>
    if x < a then (x, v) :: (a, b) :: m
    else if x = a then (x, v) :: m
    else (a, b) :: Memory.write m x v

/-- Store bytes at rising locations. -/
def Memory.writeBytes : Memory → Nat → List Byte → Memory
  | m, _, [] => m
  | m, x, v :: vs => Memory.writeBytes (Memory.write m x v) (x + 1) vs

/-- The canonical form: locations strictly rising. An unlisted location reads as no stored value, so no entry
can equal it. -/
def Memory.wf : Memory → Bool
  | [] => true
  | [_] => true
  | c :: d :: m => decide (c.1 < d.1) && Memory.wf (d :: m)

/-- What a physical location holds: the byte last stored, else a free value (20_memory.md R58; log 4). -/
def State.physicalByte (s : State) (p : Nat) : Byte := (Memory.byte? s.mem p).getD (Config.unwrittenByte p)

/-! ### Linear addresses -/

/-- `LA_BITS` as a number. -/
def laBits : LaBits → Nat
  | .la48 => 48
  | .la57 => 57

/-- A linear byte address is canonical (00_scope.md R11); addresses from 2^64 on are not (20_memory.md R57, R71). -/
def canonical (w : LaBits) (a : Nat) : Bool :=
  decide (a < 2 ^ (laBits w - 1)) || (decide (2 ^ 64 - 2 ^ (laBits w - 1) ≤ a) && decide (a < 2 ^ 64))

/-- Whether an entry of the oracle answers for this access. -/
def Mapping.answers (m : Mapping) (a : Nat) (acc : Access) (cpl : Fin 4) : Bool :=
  decide (m.first ≤ a) && decide (a ≤ m.last) && m.access == acc && m.cpl == cpl

/-- The answer for the address `d` bytes after the entry's first. -/
def Translation.shift (d : Nat) : Translation → Translation
  | .mapped p t => .mapped (p + d) t
  | .fault c    => .fault c

/-- The oracle `Translate` (20_memory.md R60): the first entry that answers; an address no entry answers for is
its own physical location, in ordinary memory (DESIGN CHOICE, log 3). -/
def translate (x : List Mapping) (a : Nat) (acc : Access) (cpl : Fin 4) : Translation :=
  match x.find? (fun m => m.answers a acc cpl) with
  | some m => m.answer.shift (a - m.first)
  | none   => .mapped a .ordinary

/-- The oracle for this state. -/
def State.translate (s : State) (a : Nat) (acc : Access) : Translation :=
  Machine.translate s.xlate a acc s.cpl

/-! ### Registers -/

/-- Read a vector register (00_scope.md R8). -/
def State.readZmm (s : State) (r : VReg) : Vec := s.zmm[r]

/-- Read an opmask register (00_scope.md R8). -/
def State.readK (s : State) (r : KReg) : Word64 := s.k[r]

/-- Read a general register (00_scope.md R8). -/
def State.readGpr (s : State) (r : GReg) : Word64 := s.gpr[r]

/-- Element `j` of a vector, `v.fp16[j]` (10_state.md R22). -/
def lane (v : Vec) (j : Nat) : Half := v.extractLsb' (16 * j) 16

/-- The vector whose first `n` elements are given and whose other bits are zero. -/
def packLanes (f : Nat → Half) : Nat → Vec
  | 0     => 0
  | n + 1 => packLanes f n ||| ((f n).setWidth 512 <<< (16 * n))

/-! ### Mode, enablement and launch premises -/

/-- CR0.TS (10_state.md R32). -/
def State.ts (s : State) : Bool := s.cr0.getLsbD 3

/-- CR4.OSXSAVE (10_state.md R32). -/
def State.osxsave (s : State) : Bool := s.cr4.getLsbD 18

/-- CR4.OSXMMEXCPT (10_state.md R32). -/
def State.osxmmexcpt (s : State) : Bool := s.cr4.getLsbD 10

/-- CR0.PE, IA32_EFER.LMA and CS.L: the processor is in 64-bit mode (10_state.md R32, R35). The places of PE and
LMA are PRESUMED (log 10). -/
def State.mode64 (s : State) : Bool := s.cr0.getLsbD 0 && s.efer.getLsbD 10 && s.csL

/-- Alignment checking is on: CR0.AM, RFLAGS.AC and CPL 3 (60_exceptions.md R208). The places of AM and AC are
PRESUMED (log 10). -/
def State.alignmentChecking (s : State) : Bool :=
  s.cr0.getLsbD 18 && s.rflags.getLsbD 18 && s.cpl == 3

/-- RFLAGS.TF (60_exceptions.md R230); its place is PRESUMED (log 10). -/
def State.singleStep (s : State) : Bool := s.rflags.getLsbD 8

/-- DR7 enables breakpoint `n`, locally or globally (PRESUMED, log 11). -/
def State.breakpointEnabled (s : State) (n : Nat) : Bool :=
  s.dr7.getLsbD (2 * n) || s.dr7.getLsbD (2 * n + 1)

/-- DR7's R/W field of breakpoint `n` (PRESUMED, log 11): 0 instruction, 1 write, 2 I/O, 3 read or write. -/
def State.breakpointKind (s : State) (n : Nat) : BitVec 2 := s.dr7.extractLsb' (16 + 4 * n) 2

/-- DR7's LEN field of breakpoint `n` as a number of bytes (PRESUMED, log 11). -/
def State.breakpointSize (s : State) (n : Nat) : Nat :=
  let len := s.dr7.extractLsb' (18 + 4 * n) 2
  if len = 0 then 1 else if len = 1 then 2 else if len = 2 then 8 else 4

/-- An enabled instruction breakpoint is at the address of the instruction (60_exceptions.md R230; log 11). -/
def State.instructionBreakpoint (s : State) : Bool :=
  (List.finRange 4).any fun n =>
    s.breakpointEnabled n && s.breakpointKind n == 0 && s.drAddr[n] == s.rip

/-- An enabled data breakpoint for reads meets the bytes `first` to `first + size - 1` (R230; log 11). -/
def State.dataBreakpoint (s : State) (first size : Nat) : Bool :=
  (List.finRange 4).any fun n =>
    let len := s.breakpointSize n
    let low := (s.drAddr[n]).toNat / len * len
    s.breakpointEnabled n && s.breakpointKind n == 3
      && decide (low < first + size) && decide (first < low + len)

/-- The premises P1, P6, P7 of 70_reset_and_hazards.md R243: where one fails the step refuses. The mode comes first
(30_encoding.md R109 step 1); which of the others a refusal names where several fail at once, alignment checking, then
single step, then a breakpoint, is the model's (DESIGN CHOICE, log 35). -/
def State.launchRefusal (s : State) : Option Refusal :=
  if !s.mode64 then some .not64BitMode
  else if s.alignmentChecking then some .alignmentChecking
  else if s.singleStep then some .singleStep
  else if s.instructionBreakpoint then some .breakpoint
  else none

/-- The feature flags a vector length needs (30_encoding.md R93). -/
def hasFeatures (c : Config) (vl : VecLen) : Bool :=
  c.avx512fp16 && (vl == .v512 || c.avx512vl)

/-- The causes 5 and 6 of 60_exceptions.md R201 do not hold: features present, state enabled (10_state.md R32). -/
def State.enabled (s : State) (vl : VecLen) : Bool :=
  hasFeatures s.cfg vl && s.osxsave && s.xcr0.extractLsb' 1 2 == 3 && s.xcr0.extractLsb' 5 3 == 7

/-! ### Completing an instruction -/

/-- The state after an instruction completes (41_vfmsubadd_ph.md R166 steps 7 to 9): the destination register,
the MXCSR flags OR-ed in, RIP past the instruction. -/
def State.complete (s : State) (dest : VReg) (v : Vec) (flags : BitVec 6) (ilen : Nat) : State :=
  { s with
    zmm   := s.zmm.set dest v
    mxcsr := s.mxcsr ||| flags.setWidth 32
    rip   := s.rip + BitVec.ofNat 64 ilen
    draws := s.draws + 1 }

/-! ### Exceptions -/

/-- The vector of an exception (60_exceptions.md R200). -/
def Exn.vector : Exn → Nat
  | .ud     => 6
  | .nm     => 7
  | .ss     => 12
  | .gp     => 13
  | .pf _ _ => 14
  | .xm     => 19

/-- The error code of an exception, for those that have one (60_exceptions.md R200). The spec gives it no width; 32
bits are PRESUMED (log 34). -/
def Exn.errorCode : Exn → Option (BitVec 32)
  | .ud        => none
  | .nm        => none
  | .ss        => some 0
  | .gp        => some 0
  | .pf code _ => some code
  | .xm        => none

/-- The fault that carries an exception and the state it leaves. -/
def Exn.fault : Exn → State → Fault
  | .ud,        s => .ud s
  | .nm,        s => .nm s
  | .ss,        s => .ss s
  | .gp,        s => .gp s
  | .pf code a, s => .pf code a s
  | .xm,        s => .xm s

/-- CR2 after an exception: a page fault writes the faulting linear address (10_state.md R41), others nothing. -/
def Exn.cr2 (old : Word64) : Exn → Word64
  | .pf _ a => a
  | _       => old

/-- The state an exception leaves (60_exceptions.md R211): RIP still at the faulting instruction, the destination
unwritten, CR2 as above, and in MXCSR the flags `g` recorded (none but on #XM and #UD for #XM, R171). -/
def State.faulted (s : State) (e : Exn) (g : BitVec 6) : State :=
  { s with
    mxcsr := s.mxcsr ||| g.setWidth 32
    cr2   := e.cr2 s.cr2
    draws := s.draws + 1 }

/-- Taking an exception: the step ends with it over the state it leaves; nothing is delivered
(60_exceptions.md R220; log 1). -/
def takeException (e : Exn) (g : BitVec 6) (s : State) : Outcome := .fault (e.fault (s.faulted e g))

/-- The exception a fault carries. -/
def Fault.exn : Fault → Exn
  | .ud _        => .ud
  | .nm _        => .nm
  | .ss _        => .ss
  | .gp _        => .gp
  | .pf code a _ => .pf code a
  | .xm _        => .xm

/-- The state a fault leaves. It is also where a return from the handler resumes: the faulting instruction is
executed again from the start (60_exceptions.md R211, R222). -/
def Fault.left : Fault → State
  | .ud s     => s
  | .nm s     => s
  | .ss s     => s
  | .gp s     => s
  | .pf _ _ s => s
  | .xm s     => s

/-- Why an operand could not be read or an instruction not be executed. -/
inductive Stop where
  | exception (e : Exn)
  | refusal (r : Refusal)
  deriving DecidableEq, Repr

/-- The outcome of a stop before any flag is recorded. -/
def Stop.outcome (s : State) : Stop → Outcome
  | .exception e => takeException e 0 s
  | .refusal r   => .refused r

/-! ### INIT -/

/-- The state after INIT (10_state.md R40 right column, 70_reset_and_hazards.md R241): vector and opmask registers,
MXCSR, XCR0 and memory unchanged, CR0's CD and NW unchanged (bits 30 and 29: their places are PRESUMED, log 10), the
rest as after RESET. An asynchronous event outside
a step; the values of the debug registers and of CS.L are PRESUMED (log 26). -/
def initEvent (s : State) : State :=
  { State.reset with
    zmm   := s.zmm
    k     := s.k
    mxcsr := s.mxcsr
    xcr0  := s.xcr0
    cr0   := (0x10 : Word64) ||| (s.cr0 &&& 0x60000000)
    mem   := s.mem
    xlate := s.xlate
    cfg   := s.cfg
    draws := s.draws }

end Sys2Proof.Machine
end

