-- ==== Sys2Proof/Machine/Fp16.lean ====
section
/-! DEFINITION. The lane operation FMA16 of 40_fp16_numerics.md. -/

namespace Sys2Proof.Machine

/-! ### Format (R120 to R123) -/

/-- The sign bit. -/
def fpSign (h : Half) : Bool := h.getLsbD 15

/-- The biased exponent. -/
def fpExp (h : Half) : BitVec 5 := h.extractLsb' 10 5

/-- The fraction. -/
def fpFrac (h : Half) : BitVec 10 := h.extractLsb' 0 10

/-- The classes of R121. -/
def isZero (h : Half) : Bool := fpExp h == 0 && fpFrac h == 0
/-- R121 -/
def isDenormal (h : Half) : Bool := fpExp h == 0 && fpFrac h != 0
/-- R121 -/
def isInf (h : Half) : Bool := fpExp h == 31 && fpFrac h == 0
/-- R121 -/
def isNan (h : Half) : Bool := fpExp h == 31 && fpFrac h != 0
/-- R121 -/
def isSnan (h : Half) : Bool := isNan h && !h.getLsbD 9

/-- The magnitude of a finite pattern in units of 2^-24 (R122). -/
def fpMag (h : Half) : Nat :=
  if fpExp h = 0 then (fpFrac h).toNat else (1024 + (fpFrac h).toNat) * 2 ^ ((fpExp h).toNat - 1)

/-- The value of a finite pattern in units of 2^-24 (R122). -/
def fpValue (h : Half) : Int := if fpSign h then -(fpMag h : Int) else (fpMag h : Int)

/-- A pattern from its sign and its lower 15 bits. -/
def withSign (s : Bool) (mag : BitVec 15) : Half := BitVec.ofBool s ++ mag

/-- The default NaN (R123). -/
def defaultNan : Half := 0xFE00

/-- `QUIET` (R123). -/
def quiet (h : Half) : Half := h ||| 0x0200

/-! ### Flags -/

/-- The flags a lane can report (R130); ZE is not among them (R139). -/
structure FpFlags where
  ie : Bool
  de : Bool
  oe : Bool
  ue : Bool
  pe : Bool
  deriving DecidableEq, Repr

/-- No flag. -/
def FpFlags.none : FpFlags := ⟨false, false, false, false, false⟩
/-- `{IE}`. -/
def FpFlags.invalid : FpFlags := ⟨true, false, false, false, false⟩

/-- The flags as bits 5:0 of MXCSR, `PE UE OE ZE DE IE` (10_state.md R24). -/
def FpFlags.bits (f : FpFlags) : BitVec 6 :=
  BitVec.ofBool f.pe ++ BitVec.ofBool f.ue ++ BitVec.ofBool f.oe ++ BitVec.ofBool false
    ++ BitVec.ofBool f.de ++ BitVec.ofBool f.ie

/-- What one lane returns: the result, the flags of the masked response, and tininess (R130). -/
structure LaneResult where
  value : Half
  flags : FpFlags
  tiny  : Bool
  deriving DecidableEq, Repr

/-! ### Rounding (R124 to R128) -/

/-- `rint` of R126 for `q = a / d`. -/
def roundQuot (a d : Nat) (rm : RoundMode) (neg : Bool) : Nat :=
  let q := a / d
  let r := a % d
  match rm with
  | .rne => if 2 * r < d then q else if d < 2 * r then q + 1 else q + q % 2
  | .rd  => if r ≠ 0 ∧ neg = true then q + 1 else q
  | .ru  => if r ≠ 0 ∧ neg = false then q + 1 else q
  | .rz  => q

/-- The masked overflow result (R127). -/
def overflowResult (neg : Bool) : RoundMode → Half
  | .rne => withSign neg 0x7C00
  | .rd  => withSign neg (if neg then 0x7C00 else 0x7BFF)
  | .ru  => withSign neg (if neg then 0x7BFF else 0x7C00)
  | .rz  => withSign neg 0x7BFF

/-- `Round` of R126 for the value of magnitude `a` times 2^-48, `a` not 0. With `l = log2 a` the exponent `E` is
`l - 48`; rounding to 11 significant bits is rounding `a * 2^10 / 2^l`. -/
def roundMag (a : Nat) (neg : Bool) (rm : RoundMode) : LaneResult :=
  let l  := a.log2
  let n  := roundQuot (a * 2 ^ 10) (2 ^ l) rm neg
  let i1 := decide (a * 2 ^ 10 % 2 ^ l ≠ 0)
  let l' := if n = 2048 then l + 1 else l
  let n' := if n = 2048 then 1024 else n
  if 63 < l' then ⟨overflowResult neg rm, ⟨false, false, true, false, true⟩, false⟩
  else if 34 ≤ l' then
    ⟨withSign neg (BitVec.ofNat 15 ((l' - 33) * 1024 + (n' - 1024))), ⟨false, false, false, false, i1⟩, false⟩
  else
    let m  := roundQuot a (2 ^ 24) rm neg
    let i2 := decide (a % 2 ^ 24 ≠ 0)
    ⟨withSign neg (BitVec.ofNat 15 m), ⟨false, false, false, i2, i2⟩, true⟩

/-! ### The operation (R130 to R137) -/

/-- The operation of a lane: even lanes add, odd lanes subtract (00_scope.md R12). -/
inductive LaneOp where
  | add
  | sub
  deriving DecidableEq, Repr

/-- The operation of lane `j`. -/
def laneOp (j : Nat) : LaneOp := if j % 2 = 0 then .add else .sub

/-- `ctl` of R130. -/
structure FpCtl where
  daz : Bool
  ftz : Bool
  um  : Bool
  deriving DecidableEq, Repr

/-- `NaNResult` (R133) under the rule in force. -/
def nanResult (rule : NanRule) (x y z : Half) : Half :=
  match rule with
  | .firstOperand => if isNan x then quiet x else if isNan y then quiet y else quiet z
  | .other        => Config.otherNan x y z

/-- The addend's effective sign `sz'` (R131). -/
def addendSign (z : Half) : LaneOp → Bool
  | .add => fpSign z
  | .sub => !fpSign z

/-- The exact value of step 5 in units of 2^-48 (R125). -/
def exactValue (x y z : Half) (op : LaneOp) : Int :=
  match op with
  | .add => fpValue x * fpValue y + fpValue z * 2 ^ 24
  | .sub => fpValue x * fpValue y - fpValue z * 2 ^ 24

/-- The sign of an exact zero result (R129). -/
def zeroSign (sp sz : Bool) (rm : RoundMode) : Bool := if sp = sz then sp else rm == .rd

/-- Step 0 of R130 for one operand. -/
def flushDenormal (daz : Bool) (h : Half) : Half :=
  if daz && isDenormal h then withSign (fpSign h) 0 else h

/-- `D` of R130: the denormal flag (R136). -/
def denormalFlags (x y z : Half) : FpFlags :=
  ⟨false, isDenormal x || isDenormal y || isDenormal z, false, false, false⟩

/-- Add the denormal flag to a lane's result. -/
def LaneResult.withDe (r : LaneResult) (d : Bool) : LaneResult :=
  { r with flags := { r.flags with de := d } }

/-- Step 5 of R130 for finite operands, with the flush of R137. -/
def finiteResult (x y z : Half) (op : LaneOp) (rm : RoundMode) (ctl : FpCtl) : LaneResult :=
  let v := exactValue x y z op
  let neg := decide (v < 0)
  if v = 0 then ⟨withSign (zeroSign (fpSign x != fpSign y) (addendSign z op) rm) 0, .none, false⟩
  else
    let r := roundMag v.natAbs neg rm
    if r.tiny && ctl.ftz && ctl.um then ⟨withSign neg 0, ⟨false, false, false, true, true⟩, true⟩ else r

/-- Steps 1 to 5 of R130. -/
def fmaCases (rule : NanRule) (x y z : Half) (op : LaneOp) (rm : RoundMode) (ctl : FpCtl) : LaneResult :=
  let sp := fpSign x != fpSign y
  let sz := addendSign z op
  if isNan x || isNan y || isNan z then
    ⟨nanResult rule x y z, ⟨isSnan x || isSnan y || isSnan z, false, false, false, false⟩, false⟩
  else if (isInf x && isZero y) || (isZero x && isInf y) then ⟨defaultNan, .invalid, false⟩
  else if isInf x || isInf y then
    if isInf z && sz != sp then ⟨defaultNan, .invalid, false⟩
    else ⟨withSign sp 0x7C00, denormalFlags x y z, false⟩
  else if isInf z then ⟨withSign sz 0x7C00, denormalFlags x y z, false⟩
  else (finiteResult x y z op rm ctl).withDe (denormalFlags x y z).de

/-- `FMA16(x, y, z, op, rm, ctl)` (R130). -/
def fma16 (rule : NanRule) (x y z : Half) (op : LaneOp) (rm : RoundMode) (ctl : FpCtl) : LaneResult :=
  fmaCases rule (flushDenormal ctl.daz x) (flushDenormal ctl.daz y) (flushDenormal ctl.daz z) op rm ctl

end Sys2Proof.Machine
end

