-- ==== Sys2Proof/Machine/Flags.lean ====
section
/-! DEFINITION. MXCSR: its fields, the flags of an instruction, and the unmasked exceptions. -/

namespace Sys2Proof.Machine

/-! ### Fields of MXCSR (10_state.md R24) -/

/-- MXCSR.DAZ -/
def State.daz (s : State) : Bool := s.mxcsr.getLsbD 6
/-- MXCSR.IM -/
def State.im (s : State) : Bool := s.mxcsr.getLsbD 7
/-- MXCSR.DM -/
def State.dm (s : State) : Bool := s.mxcsr.getLsbD 8
/-- MXCSR.OM -/
def State.om (s : State) : Bool := s.mxcsr.getLsbD 10
/-- MXCSR.UM -/
def State.um (s : State) : Bool := s.mxcsr.getLsbD 11
/-- MXCSR.PM -/
def State.pm (s : State) : Bool := s.mxcsr.getLsbD 12
/-- MXCSR.RC (R25) -/
def State.rc (s : State) : RoundMode := roundModeOf (s.mxcsr.extractLsb' 13 2)
/-- MXCSR.FTZ -/
def State.ftz (s : State) : Bool := s.mxcsr.getLsbD 15

/-- `ctl` of 41_vfmsubadd_ph.md R166 step 4: DAZ and FTZ act only where `FP16_DAZ_FTZ` is honoured
(40_fp16_numerics.md R132, R137). -/
def State.fpCtl (s : State) : FpCtl where
  daz := s.cfg.dazFtz == .honoured && s.daz
  ftz := s.cfg.dazFtz == .honoured && s.ftz
  um  := s.um

/-! ### Flags of an instruction -/

/-- Some active lane among the first `kl` satisfies `p`. -/
def someLane (kl : Nat) (act p : Nat → Bool) : Bool := (List.range kl).any fun j => act j && p j

/-- The union of the flags of the active lanes (R167). -/
def unionFlags (kl : Nat) (act : Nat → Bool) (r : Nat → LaneResult) : FpFlags where
  ie := someLane kl act fun j => (r j).flags.ie
  de := someLane kl act fun j => (r j).flags.de
  oe := someLane kl act fun j => (r j).flags.oe
  ue := someLane kl act fun j => (r j).flags.ue
  pe := someLane kl act fun j => (r j).flags.pe

/-- The conditions detected, in the order the spec weighs them (R171): the union of the flags, with UE also where
some active lane is tiny and UM is 0 (40_fp16_numerics.md R141). -/
def detectedFlags (s : State) (kl : Nat) (act : Nat → Bool) (r : Nat → LaneResult) : FpFlags :=
  let f := unionFlags kl act r
  { f with ue := f.ue || (!s.um && someLane kl act fun j => (r j).tiny) }

/-- The unmasked ones of the pre-computation conditions, Invalid and Denormal (R171). -/
def unmaskedPre (s : State) (f : FpFlags) : FpFlags where
  ie := !s.im && f.ie
  de := !s.dm && f.de
  oe := false
  ue := false
  pe := false

/-- The unmasked ones of the post-computation conditions, Overflow, Underflow and Precision (R171). -/
def unmaskedPost (s : State) (f : FpFlags) : FpFlags where
  ie := false
  de := false
  oe := !s.om && f.oe
  ue := !s.um && f.ue
  pe := !s.pm && f.pe

/-- Some flag is set. -/
def FpFlags.any (f : FpFlags) : Bool := f.ie || f.de || f.oe || f.ue || f.pe

/-- `U` of R171, the trapping flags; no flag where the instruction does not trap. -/
def trapping (s : State) (f : FpFlags) : FpFlags :=
  if (unmaskedPre s f).any then unmaskedPre s f else unmaskedPost s f

/-- `G` of R171: the trapping flags and a free choice of the other detected ones (log 23). -/
def recordedFlags (s : State) (f : FpFlags) : BitVec 6 :=
  (trapping s f).bits ||| (Config.trapFlags s.draws &&& f.bits)

/-- The exception of an unmasked condition: #XM, or #UD where CR4.OSXMMEXCPT is 0 (60_exceptions.md R206, R207). -/
def State.fpException (s : State) : Exn := if s.osxmmexcpt then .xm else .ud

end Sys2Proof.Machine
end

