-- ==== Sys2Proof/Machine/Operands.lean ====
section
/-! DEFINITION. Operands: vector lengths, writemasks, addresses, and reading operand 3. -/

namespace Sys2Proof.Machine

/-! ### Lengths and masks -/

/-- `KL`, the number of lanes (00_scope.md R6). -/
def lanes : VecLen → Nat
  | .v128 => 8
  | .v256 => 16
  | .v512 => 32

/-- `VL/8`, the bytes of a full operand (20_memory.md R53). -/
def vecBytes : VecLen → Nat
  | .v128 => 16
  | .v256 => 32
  | .v512 => 64

/-- Lane activity (41_vfmsubadd_ph.md R165): bit `j` of the opmask register, or every lane. -/
def State.active (s : State) (m : Writemask) (j : Nat) : Bool :=
  match m with
  | .all       => true
  | .merging k => (s.readK k).getLsbD j
  | .zeroing k => (s.readK k).getLsbD j

/-- What an inactive lane of the destination becomes (R165). -/
def inactiveLane (m : Writemask) (old : Half) : Half :=
  match m with
  | .all       => old
  | .merging _ => old
  | .zeroing _ => 0

/-! ### Addresses -/

/-- The bytes a memory operand has: two where one element is broadcast (20_memory.md R53). -/
def operandSize (vl : VecLen) (bcast : Bool) : Nat := if bcast then 2 else vecBytes vl

/-- `N` of disp8*N, tuple Full: the operand's size (30_encoding.md R104). -/
def disp8Scale (vl : VecLen) (bcast : Bool) : Nat := if bcast then 2 else vecBytes vl

/-- The displacement, sign-extended and, for one byte, scaled by `n` (30_encoding.md R98, R104). -/
def dispValue (n : Nat) : Disp → Word64
  | .none  => 0
  | .d8 v  => v.signExtend 64 * BitVec.ofNat 64 n
  | .d32 v => v.signExtend 64

/-- The scale factor (30_encoding.md R97). -/
def scaleFactor : Scale → Word64
  | .x1 => 1
  | .x2 => 2
  | .x4 => 4
  | .x8 => 8

/-- The index term of an address (20_memory.md R54). -/
def State.indexValue (s : State) : Option Index → Word64
  | none   => 0
  | some i => s.readGpr i.reg * scaleFactor i.scale

/-- The sum of R54 modulo 2^64, before the address size is applied; `ilen` is the instruction's length, for
RIP-relative operands. -/
def State.addressSum (s : State) (ilen n : Nat) : MemAddr → Word64
  | .base b d      => s.readGpr b + dispValue n d
  | .sib b i d     => s.readGpr b + s.indexValue i + dispValue n d
  | .sibNoBase i d => s.indexValue i + d.signExtend 64
  | .ripRel d      => s.rip + BitVec.ofNat 64 ilen + d.signExtend 64

/-- The effective address (20_memory.md R54). Under 67h every term and the sum are taken modulo 2^32, which is
the sum modulo 2^32, zero-extended. -/
def State.effectiveAddress (s : State) (leg : Legacy) (ilen n : Nat) (a : MemAddr) : Word64 :=
  if leg.addr32 then ((s.addressSum ilen n a).setWidth 32).setWidth 64 else s.addressSum ilen n a

/-- The segment base (20_memory.md R56). -/
def State.segmentBase (s : State) (leg : Legacy) : Word64 :=
  match leg.seg with
  | none     => 0
  | some .fs => s.fsBase
  | some .gs => s.gsBase

/-- The linear address of a memory operand (20_memory.md R56). -/
def State.linearAddress (s : State) (leg : Legacy) (ilen : Nat) (vl : VecLen) (op : MemOp) : Word64 :=
  s.segmentBase leg + s.effectiveAddress leg ilen (disp8Scale vl op.bcast) op.addr

/-- The base register of an address, if it has one. -/
def baseReg : MemAddr → Option GReg
  | .base b _      => some b
  | .sib b _ _     => some b
  | .sibNoBase _ _ => none
  | .ripRel _      => none

/-- The segment is SS: base RSP or RBP and no override (20_memory.md R56). -/
def usesStackSegment (leg : Legacy) (a : MemAddr) : Bool :=
  leg.seg.isNone && (baseReg a == some 4 || baseReg a == some 5)

/-- The exception of a non-canonical operand (20_memory.md R57, 60_exceptions.md R203, R204). -/
def addressException (leg : Legacy) (a : MemAddr) : Exn := if usesStackSegment leg a then .ss else .gp

/-! ### Reading a memory operand -/

/-- Byte `i` of the operand belongs to an element some active lane needs (20_memory.md R61). -/
def neededByte (kl : Nat) (act : Nat → Bool) (bcast : Bool) (i : Nat) : Bool :=
  if bcast then (List.range kl).any act else act (i / 2)

/-- A memory operand: the linear address of its first byte, its size, and which bytes are needed. -/
structure Span where
  first : Nat
  size  : Nat
  need  : Nat → Bool

/-- The byte offsets that are needed. -/
def Span.needed (a : Span) : List Nat := (List.range a.size).filter a.need

/-- The byte offsets that are not. -/
def Span.unneeded (a : Span) : List Nat := (List.range a.size).filter fun i => !a.need i

/-- The byte at this offset is at a non-canonical address. -/
def State.badAddress (s : State) (a : Span) (i : Nat) : Bool := !canonical s.cfg.laBits (a.first + i)

/-- The page-fault code `Translate` answers for the byte at this offset, with its address. Only canonical
addresses are translated (20_memory.md R57, R60). -/
def State.pageFault (s : State) (a : Span) (i : Nat) : Option (BitVec 32 × Nat) :=
  if s.badAddress a i then none
  else
    match s.translate (a.first + i) .read with
    | .fault code => some (code, a.first + i)
    | .mapped _ _ => none

/-- The byte at this offset lies on a device. -/
def State.onDevice (s : State) (a : Span) (i : Nat) : Bool :=
  if s.badAddress a i then false
  else
    match s.translate (a.first + i) .read with
    | .mapped _ .device => true
    | _ => false

/-- The #PF for one of several faulting bytes, a free choice among them (60_exceptions.md R205; log 22). -/
def State.pickFault (s : State) : List (BitVec 32 × Nat) → Option Exn
  | []      => none
  | f :: fs =>
    let g := (f :: fs).getD (Config.faultChoice s.draws % (fs.length + 1)) f
    some (.pf g.1 (BitVec.ofNat 64 g.2))

/-- What stops the reading of a memory operand, in the order of 60_exceptions.md R210: a non-canonical address
under a needed byte, or, as the draw says, under others; a device; a page fault under a needed byte, or, as
the draw says, under others; a data breakpoint. The places of the two refusals, the device and the breakpoint, are the
model's (DESIGN CHOICE, logs 20, 21, 35). -/
def State.accessStop (s : State) (leg : Legacy) (op : MemOp) (a : Span) : Option Stop :=
  if a.needed.any (s.badAddress a) then some (.exception (addressException leg op.addr))
  else if a.unneeded.any (s.badAddress a) && Config.faultsOnUnneededAddress s.draws then
    some (.exception (addressException leg op.addr))
  else if (List.range a.size).any (s.onDevice a) then some (.refusal .deviceOperand)
  else
    match s.pickFault (a.needed.filterMap (s.pageFault a)) with
    | some e => some (.exception e)
    | none =>
      match s.pickFault (a.unneeded.filterMap (s.pageFault a)), Config.faultsOnUnneededPage s.draws with
      | some e, true => some (.exception e)
      | _, _ => if s.dataBreakpoint a.first a.size then some (.refusal .breakpoint) else none

/-- The value of the operand's byte at this offset (20_memory.md R58, R62). -/
def State.operandByte (s : State) (first i : Nat) : Byte :=
  match s.translate (first + i) .read with
  | .mapped p .ordinary => s.physicalByte p
  | _ => Config.sharedByte s.draws i

/-- Element `j` of the operand, low byte first (20_memory.md R51, R52). -/
def State.operandElement (s : State) (first j : Nat) : Half :=
  s.operandByte first (2 * j + 1) ++ s.operandByte first (2 * j)

/-- The operand's span. -/
def State.span (s : State) (leg : Legacy) (ilen : Nat) (m : Writemask) (vl : VecLen) (op : MemOp) : Span where
  first := (s.linearAddress leg ilen vl op).toNat
  size  := operandSize vl op.bcast
  need  := neededByte (lanes vl) (s.active m) op.bcast

/-- The third-operand element of each lane, or what stops the instruction (41_vfmsubadd_ph.md R163). -/
def State.readMem (s : State) (leg : Legacy) (ilen : Nat) (m : Writemask) (vl : VecLen) (op : MemOp) :
    Except Stop (Nat → Half) :=
  let a := s.span leg ilen m vl op
  match s.accessStop leg op a with
  | some stop => .error stop
  | none      => .ok fun j => s.operandElement a.first (if op.bcast then 0 else j)

/-- The third-operand element of each lane in a register form (41_vfmsubadd_ph.md R163). -/
def State.readReg (s : State) (r : VReg) : Except Stop (Nat → Half) := .ok fun j => lane (s.readZmm r) j

end Sys2Proof.Machine
end

