-- ==== Sys2Proof/Machine/Execute.lean ====
section
/-! DEFINITION. EXEC of 41_vfmsubadd_ph.md R166, which the 21 meanings share. -/

namespace Sys2Proof.Machine

/-- Multiplicand, multiplier and addend of a lane, from its elements of the destination, operand 2 and operand 3
(R162). -/
def roles (f : Fma) (d s2 t3 : Half) : Half × Half × Half :=
  match f with
  | .f132 => (d, t3, s2)
  | .f213 => (s2, d, t3)
  | .f231 => (s2, t3, d)

/-- What lane `j` computes (R166 step 5). -/
def laneResult (f : Fma) (rule : NanRule) (rm : RoundMode) (ctl : FpCtl) (d s2 : Vec) (t3 : Nat → Half) (j : Nat) :
    LaneResult :=
  let (x, y, z) := roles f (lane d j) (lane s2 j) (t3 j)
  fma16 rule x y z (laneOp j) rm ctl

/-- The new value of the destination register (R166 step 7, R165, R168). -/
def resultVec (kl : Nat) (act : Nat → Bool) (m : Writemask) (old : Vec) (r : Nat → LaneResult) : Vec :=
  packLanes (fun j => if act j then (r j).value else inactiveLane m (lane old j)) kl

/-- Steps 4 to 9 of R166 once operand 3 is read. `er` is the embedded rounding mode of the `{er}` forms, which
suppress all exceptions (R164, R167). -/
def State.compute (s : State) (f : Fma) (vl : VecLen) (ilen : Nat) (m : Writemask) (dest src2 : VReg)
    (t3 : Nat → Half) (er : Option RoundMode) : Outcome :=
  let kl := lanes vl
  let act := s.active m
  let rm := er.getD s.rc
  let r := laneResult f s.cfg.nanRule rm s.fpCtl (s.readZmm dest) (s.readZmm src2) t3
  let v := resultVec kl act m (s.readZmm dest) r
  match er with
  | some _ => .next (s.complete dest v 0 ilen)
  | none =>
    let f := detectedFlags s kl act r
    if (trapping s f).any then takeException s.fpException (recordedFlags s f) s
    else .next (s.complete dest v (unionFlags kl act r).bits ilen)

/-- What stops an instruction before any operand is read: the launch premises, a successor at a non-canonical
address (10_state.md R28), #UD for features and state, #NM (30_encoding.md R109 step 7, 60_exceptions.md R210). -/
def State.entryStop (s : State) (vl : VecLen) (ilen : Nat) : Option Stop :=
  match s.launchRefusal with
  | some r => some (.refusal r)
  | none =>
    if !canonical s.cfg.laBits (s.rip.toNat + ilen) then some (.refusal .codeNotCanonical)
    else if !s.enabled vl then some (.exception .ud)
    else if s.ts then some (.exception .nm)
    else none

/-- EXEC(nnn) of R166, given how operand 3 is read. -/
def State.execute (s : State) (f : Fma) (vl : VecLen) (ilen : Nat) (m : Writemask) (dest src2 : VReg)
    (third : Except Stop (Nat → Half)) (er : Option RoundMode) : Outcome :=
  match s.entryStop vl ilen with
  | some stop => stop.outcome s
  | none =>
    match third with
    | .error stop => stop.outcome s
    | .ok t3      => s.compute f vl ilen m dest src2 t3 er

/-- A register form. -/
def executeReg (f : Fma) (vl : VecLen) (leg : Legacy) (m : Writemask) (dest src2 src3 : VReg) (s : State) : Outcome :=
  s.execute f vl (regLength leg) m dest src2 (s.readReg src3) none

/-- A register form with embedded rounding: 512 bits, no exceptions (30_encoding.md R91, R92). -/
def executeEr (f : Fma) (leg : Legacy) (m : Writemask) (dest src2 src3 : VReg) (rc : RoundMode) (s : State) : Outcome :=
  s.execute f .v512 (regLength leg) m dest src2 (s.readReg src3) (some rc)

/-- A memory form. -/
def executeMem (f : Fma) (vl : VecLen) (leg : Legacy) (m : Writemask) (dest src2 : VReg) (op : MemOp) (s : State) :
    Outcome :=
  s.execute f vl (memLength leg op) m dest src2 (s.readMem leg (memLength leg op) m vl op) none

end Sys2Proof.Machine
end

