-- ==== Sys2Proof/Machine/Vfmsubadd132.lean ====
section
/-! DEFINITION. VFMSUBADD132PH, its seven rows (41_vfmsubadd_ph.md R173): dest * third ± src2. -/

namespace Sys2Proof.Machine

/-- VFMSUBADD132PH xmm, xmm, xmm (R174). -/
def execVfmsubadd132phXmmReg (leg : Legacy) (m : Writemask) (dest src2 src3 : VReg) (s : State) : Outcome :=
  executeReg .f132 .v128 leg m dest src2 src3 s

/-- VFMSUBADD132PH xmm, xmm, memory or broadcast (R174). -/
def execVfmsubadd132phXmmMem (leg : Legacy) (m : Writemask) (dest src2 : VReg) (op : MemOp) (s : State) : Outcome :=
  executeMem .f132 .v128 leg m dest src2 op s

/-- VFMSUBADD132PH ymm, ymm, ymm (R175). -/
def execVfmsubadd132phYmmReg (leg : Legacy) (m : Writemask) (dest src2 src3 : VReg) (s : State) : Outcome :=
  executeReg .f132 .v256 leg m dest src2 src3 s

/-- VFMSUBADD132PH ymm, ymm, memory or broadcast (R175). -/
def execVfmsubadd132phYmmMem (leg : Legacy) (m : Writemask) (dest src2 : VReg) (op : MemOp) (s : State) : Outcome :=
  executeMem .f132 .v256 leg m dest src2 op s

/-- VFMSUBADD132PH zmm, zmm, zmm (R176). -/
def execVfmsubadd132phZmmReg (leg : Legacy) (m : Writemask) (dest src2 src3 : VReg) (s : State) : Outcome :=
  executeReg .f132 .v512 leg m dest src2 src3 s

/-- VFMSUBADD132PH zmm, zmm, zmm with embedded rounding (R176). -/
def execVfmsubadd132phZmmEr (leg : Legacy) (m : Writemask) (dest src2 src3 : VReg) (rc : RoundMode) (s : State) : Outcome :=
  executeEr .f132 leg m dest src2 src3 rc s

/-- VFMSUBADD132PH zmm, zmm, memory or broadcast (R176). -/
def execVfmsubadd132phZmmMem (leg : Legacy) (m : Writemask) (dest src2 : VReg) (op : MemOp) (s : State) : Outcome :=
  executeMem .f132 .v512 leg m dest src2 op s

end Sys2Proof.Machine
end

