-- ==== Sys2Proof/Machine/Vfmsubadd213.lean ====
section
/-! DEFINITION. VFMSUBADD213PH, its seven rows (41_vfmsubadd_ph.md R177): src2 * dest ± third. -/

namespace Sys2Proof.Machine

/-- VFMSUBADD213PH xmm, xmm, xmm (R178). -/
def execVfmsubadd213phXmmReg (leg : Legacy) (m : Writemask) (dest src2 src3 : VReg) (s : State) : Outcome :=
  executeReg .f213 .v128 leg m dest src2 src3 s

/-- VFMSUBADD213PH xmm, xmm, memory or broadcast (R178). -/
def execVfmsubadd213phXmmMem (leg : Legacy) (m : Writemask) (dest src2 : VReg) (op : MemOp) (s : State) : Outcome :=
  executeMem .f213 .v128 leg m dest src2 op s

/-- VFMSUBADD213PH ymm, ymm, ymm (R179). -/
def execVfmsubadd213phYmmReg (leg : Legacy) (m : Writemask) (dest src2 src3 : VReg) (s : State) : Outcome :=
  executeReg .f213 .v256 leg m dest src2 src3 s

/-- VFMSUBADD213PH ymm, ymm, memory or broadcast (R179). -/
def execVfmsubadd213phYmmMem (leg : Legacy) (m : Writemask) (dest src2 : VReg) (op : MemOp) (s : State) : Outcome :=
  executeMem .f213 .v256 leg m dest src2 op s

/-- VFMSUBADD213PH zmm, zmm, zmm (R180). -/
def execVfmsubadd213phZmmReg (leg : Legacy) (m : Writemask) (dest src2 src3 : VReg) (s : State) : Outcome :=
  executeReg .f213 .v512 leg m dest src2 src3 s

/-- VFMSUBADD213PH zmm, zmm, zmm with embedded rounding (R180). -/
def execVfmsubadd213phZmmEr (leg : Legacy) (m : Writemask) (dest src2 src3 : VReg) (rc : RoundMode) (s : State) : Outcome :=
  executeEr .f213 leg m dest src2 src3 rc s

/-- VFMSUBADD213PH zmm, zmm, memory or broadcast (R180). -/
def execVfmsubadd213phZmmMem (leg : Legacy) (m : Writemask) (dest src2 : VReg) (op : MemOp) (s : State) : Outcome :=
  executeMem .f213 .v512 leg m dest src2 op s

end Sys2Proof.Machine
end

