-- ==== Sys2Proof/Machine/Vfmsubadd231.lean ====
section
/-! DEFINITION. VFMSUBADD231PH, its seven rows (41_vfmsubadd_ph.md R181): src2 * third ± dest. -/

namespace Sys2Proof.Machine

/-- VFMSUBADD231PH xmm, xmm, xmm (R182). -/
def execVfmsubadd231phXmmReg (leg : Legacy) (m : Writemask) (dest src2 src3 : VReg) (s : State) : Outcome :=
  executeReg .f231 .v128 leg m dest src2 src3 s

/-- VFMSUBADD231PH xmm, xmm, memory or broadcast (R182). -/
def execVfmsubadd231phXmmMem (leg : Legacy) (m : Writemask) (dest src2 : VReg) (op : MemOp) (s : State) : Outcome :=
  executeMem .f231 .v128 leg m dest src2 op s

/-- VFMSUBADD231PH ymm, ymm, ymm (R183). -/
def execVfmsubadd231phYmmReg (leg : Legacy) (m : Writemask) (dest src2 src3 : VReg) (s : State) : Outcome :=
  executeReg .f231 .v256 leg m dest src2 src3 s

/-- VFMSUBADD231PH ymm, ymm, memory or broadcast (R183). -/
def execVfmsubadd231phYmmMem (leg : Legacy) (m : Writemask) (dest src2 : VReg) (op : MemOp) (s : State) : Outcome :=
  executeMem .f231 .v256 leg m dest src2 op s

/-- VFMSUBADD231PH zmm, zmm, zmm (R184). -/
def execVfmsubadd231phZmmReg (leg : Legacy) (m : Writemask) (dest src2 src3 : VReg) (s : State) : Outcome :=
  executeReg .f231 .v512 leg m dest src2 src3 s

/-- VFMSUBADD231PH zmm, zmm, zmm with embedded rounding (R184). -/
def execVfmsubadd231phZmmEr (leg : Legacy) (m : Writemask) (dest src2 src3 : VReg) (rc : RoundMode) (s : State) : Outcome :=
  executeEr .f231 leg m dest src2 src3 rc s

/-- VFMSUBADD231PH zmm, zmm, memory or broadcast (R184). -/
def execVfmsubadd231phZmmMem (leg : Legacy) (m : Writemask) (dest src2 : VReg) (op : MemOp) (s : State) : Outcome :=
  executeMem .f231 .v512 leg m dest src2 op s

end Sys2Proof.Machine
end

