-- ==== Sys2Proof/Machine/Dispatch.lean ====
section
/-! DEFINITION. Which meaning each constructor of Instr has. -/

namespace Sys2Proof.Machine

def exec (i : Instr) (s : State) : Host.Outcome State Fault Refusal :=
  match i with
  -- VFMSUBADD132PH
  | .vfmsubadd132phXmmReg leg m d a b => Sys2Proof.Machine.execVfmsubadd132phXmmReg leg m d a b s
  | .vfmsubadd132phXmmMem leg m d a op => Sys2Proof.Machine.execVfmsubadd132phXmmMem leg m d a op s
  | .vfmsubadd132phYmmReg leg m d a b => Sys2Proof.Machine.execVfmsubadd132phYmmReg leg m d a b s
  | .vfmsubadd132phYmmMem leg m d a op => Sys2Proof.Machine.execVfmsubadd132phYmmMem leg m d a op s
  | .vfmsubadd132phZmmReg leg m d a b => Sys2Proof.Machine.execVfmsubadd132phZmmReg leg m d a b s
  | .vfmsubadd132phZmmEr leg m d a b rc => Sys2Proof.Machine.execVfmsubadd132phZmmEr leg m d a b rc s
  | .vfmsubadd132phZmmMem leg m d a op => Sys2Proof.Machine.execVfmsubadd132phZmmMem leg m d a op s
  -- VFMSUBADD213PH
  | .vfmsubadd213phXmmReg leg m d a b => Sys2Proof.Machine.execVfmsubadd213phXmmReg leg m d a b s
  | .vfmsubadd213phXmmMem leg m d a op => Sys2Proof.Machine.execVfmsubadd213phXmmMem leg m d a op s
  | .vfmsubadd213phYmmReg leg m d a b => Sys2Proof.Machine.execVfmsubadd213phYmmReg leg m d a b s
  | .vfmsubadd213phYmmMem leg m d a op => Sys2Proof.Machine.execVfmsubadd213phYmmMem leg m d a op s
  | .vfmsubadd213phZmmReg leg m d a b => Sys2Proof.Machine.execVfmsubadd213phZmmReg leg m d a b s
  | .vfmsubadd213phZmmEr leg m d a b rc => Sys2Proof.Machine.execVfmsubadd213phZmmEr leg m d a b rc s
  | .vfmsubadd213phZmmMem leg m d a op => Sys2Proof.Machine.execVfmsubadd213phZmmMem leg m d a op s
  -- VFMSUBADD231PH
  | .vfmsubadd231phXmmReg leg m d a b => Sys2Proof.Machine.execVfmsubadd231phXmmReg leg m d a b s
  | .vfmsubadd231phXmmMem leg m d a op => Sys2Proof.Machine.execVfmsubadd231phXmmMem leg m d a op s
  | .vfmsubadd231phYmmReg leg m d a b => Sys2Proof.Machine.execVfmsubadd231phYmmReg leg m d a b s
  | .vfmsubadd231phYmmMem leg m d a op => Sys2Proof.Machine.execVfmsubadd231phYmmMem leg m d a op s
  | .vfmsubadd231phZmmReg leg m d a b => Sys2Proof.Machine.execVfmsubadd231phZmmReg leg m d a b s
  | .vfmsubadd231phZmmEr leg m d a b rc => Sys2Proof.Machine.execVfmsubadd231phZmmEr leg m d a b rc s
  | .vfmsubadd231phZmmMem leg m d a op => Sys2Proof.Machine.execVfmsubadd231phZmmMem leg m d a op s

end Sys2Proof.Machine
end

