-- ==== Sys2Proof/Machine/Fetch.lean ====
section
/-! DEFINITION. Fetching the bytes at RIP, and placing code there. -/

namespace Sys2Proof.Machine

/-- The architecture's limit on an instruction's length (30_encoding.md R102). -/
def fetchLimit : Nat := 15

/-- The instruction byte `n` bytes after RIP: canonical (10_state.md R28), mapped for fetching
(70_reset_and_hazards.md R243 P5, 93_implementation_defined.md I18; log 9), and in memory nobody else writes (20_memory.md R64,
R69). -/
def State.fetchByte (s : State) (n : Nat) : Except Stop Byte :=
  let a := s.rip.toNat + n
  if !canonical s.cfg.laBits a then .error (.refusal .codeNotCanonical)
  else
    match s.translate a .fetch with
    | .fault _            => .error (.refusal .codeNotMapped)
    | .mapped p .ordinary => .ok (s.physicalByte p)
    | .mapped _ .shared   => .error (.refusal .codeNotOrdinary)
    | .mapped _ .device   => .error (.refusal .codeNotOrdinary)

/-- The instruction bytes from `n` on, `fuel` of them at most, up to the first that cannot be fetched. -/
def State.fetchFrom (s : State) (n : Nat) : (fuel : Nat) → List Byte
  | 0 => []
  | fuel + 1 =>
    match s.fetchByte n with
    | .ok b    => b :: s.fetchFrom (n + 1) fuel
    | .error _ => []

/-- The bytes at RIP an instruction can consist of. -/
def State.fetchBytes (s : State) : List Byte := s.fetchFrom 0 fetchLimit

/-- What the decoder reads from them. -/
def State.fetched (s : State) : DecodeResult := decode s.fetchBytes

/-- Why there was no further byte: the first byte after them cannot be fetched, or they are as many as an
instruction can have (log 14). Where several bytes cannot be fetched, the first one's reason is given (DESIGN CHOICE,
log 33); this stop comes before #UD for features and state and before #NM (DESIGN CHOICE, log 32). -/
def State.fetchStop (s : State) : Stop :=
  match s.fetchByte s.fetchBytes.length with
  | .error stop => if s.fetchBytes.length < fetchLimit then stop else .refusal .codeTooLong
  | .ok _       => .refusal .codeTooLong

/-- The refusal of a decoder's refusal. -/
def refusalOf : DecodeRefusal → Refusal
  | .legacyBytes => .legacyBytes
  | .notInTable  => .notInTable

/-- The launch premises P1, P3, P4, P6, P7 of 70_reset_and_hazards.md R243 made true, as the software of R242 would:
64-bit mode, the vector state enabled, TS clear, no alignment checking, no single step, no breakpoint; and RIP
where a longest instruction and its successor are canonical. What holds already is left as it is, the feature
flags (P2) and the other parameters among it. -/
def State.launchReady (s : State) : State :=
  { s with
    rip    := if canonical s.cfg.laBits (s.rip.toNat) && canonical s.cfg.laBits (s.rip.toNat + fetchLimit)
                then s.rip else 0
    rflags := s.rflags &&& ~~~((1 : Word64) <<< 18 ||| (1 : Word64) <<< 8)
    cr0    := (s.cr0 ||| 1) &&& ~~~((1 : Word64) <<< 3)
    cr4    := s.cr4 ||| (1 : Word64) <<< 18
    xcr0   := s.xcr0 ||| 0xE6
    efer   := s.efer ||| (1 : Word64) <<< 10
    csL    := true
    dr7    := s.dr7 &&& ~~~(0xFF : Word64) }

/-- Code placed at RIP: a fetch mapping of its linear addresses to themselves in front of the oracle's entries, and
the bytes stored there. -/
def State.placeCode (s : State) (bytes : List Byte) : State :=
  { s with
    xlate := ⟨s.rip.toNat, s.rip.toNat + bytes.length - 1, .fetch, s.cpl, .mapped s.rip.toNat .ordinary⟩ :: s.xlate
    mem   := Memory.writeBytes s.mem s.rip.toNat bytes }

end Sys2Proof.Machine
end

