-- ==== Sys2Proof/Machine/Step.lean ====
section
/-! DEFINITION. One step: premises, fetch, decode, execute; and placing an instruction where it is fetched next. -/

namespace Sys2Proof.Machine

/-- One step (10_state.md R19, 30_encoding.md R109). An illegal encoding raises #UD as soon as the bytes that make it
illegal are read; later bytes and the successor's address are not looked at (DESIGN CHOICE, log 32). -/
def step (s : State) : Host.Outcome State Fault Refusal :=
  match s.launchRefusal with
  | some r => .refused r
  | none =>
    match s.fetched with
    | .ok i       => exec i s
    | .illegal    => takeException .ud 0 s
    | .refused r  => .refused (refusalOf r)
    | .short      => s.fetchStop.outcome s

/-- `s` with the instruction of `nbits` bits placed where `step` fetches next, and everything else that its being
fetched takes: RIP at a canonical place, the bytes mapped and stored there, and the mode and premises under
which a step fetches and enables the instruction (70_reset_and_hazards.md R242, R243). It stands for boot and
load, which are no instruction in scope (log 17). -/
def State.withFetchWord (s : State) (nbits w : Nat) : State :=
  s.launchReady.placeCode (tableWordBytes nbits w)

end Sys2Proof.Machine
end

