-- ==== Sys2Proof/Safety.lean ====
section
/-! DEFINITION. What claims are stated in: premises, invariant, results, runs. -/

namespace Sys2Proof.Machine

/-! ### Premises on the state (70_reset_and_hazards.md R243) -/

/-- P1, P6 and P7: 64-bit mode, no alignment checking, no single step, no breakpoint on the instruction. -/
abbrev Admitted (s : State) : Prop :=
  s.mode64 = true ∧ s.alignmentChecking = false ∧ s.singleStep = false ∧ s.instructionBreakpoint = false

/-- P2 and P3 for a vector length: the feature flags are 1, CR4.OSXSAVE is 1, XCR0[2:1] is 11b and XCR0[7:5] is 111b. -/
abbrev StateEnabled (s : State) (vl : VecLen) : Prop :=
  s.cfg.avx512fp16 = true ∧ (vl = .v512 ∨ s.cfg.avx512vl = true) ∧ s.cr4.getLsbD 18 = true ∧
    s.xcr0.getLsbD 1 = true ∧ s.xcr0.getLsbD 2 = true ∧
    s.xcr0.getLsbD 5 = true ∧ s.xcr0.getLsbD 6 = true ∧ s.xcr0.getLsbD 7 = true

/-- The address after the instruction is canonical (10_state.md R28). -/
abbrev NextCanonical (s : State) (ilen : Nat) : Prop := canonical s.cfg.laBits (s.rip.toNat + ilen) = true

/-- Everything R109 and R210 check before an operand is read. -/
abbrev Ready (s : State) (vl : VecLen) (ilen : Nat) : Prop :=
  Admitted s ∧ NextCanonical s ilen ∧ StateEnabled s vl ∧ s.cr0.getLsbD 3 = false

/-- All six exceptions are masked, `MXCSR[12:7] = 111111b`. -/
abbrev AllMasked (s : State) : Prop := s.mxcsr.extractLsb' 7 6 = 0x3F

/-- `Translate` answers with memory (P8), ordinary or shared. -/
def Translation.isMemory : Translation → Bool
  | .mapped _ .ordinary => true
  | .mapped _ .shared   => true
  | .mapped _ .device   => false
  | .fault _            => false

/-- The byte at this linear address can be read: canonical, and mapped to memory. -/
abbrev ByteReadable (s : State) (a : Nat) : Prop :=
  canonical s.cfg.laBits a = true ∧ (s.translate a .read).isMemory = true

/-- Every byte of a memory operand can be read and no data breakpoint meets it. -/
abbrev OperandReadable (s : State) (first size : Nat) : Prop :=
  (∀ i < size, ByteReadable s (first + i)) ∧ s.dataBreakpoint first size = false

/-- No active lane detects a condition that MXCSR leaves unmasked (41_vfmsubadd_ph.md R171, 40_fp16_numerics.md R141). -/
abbrev NoUnmasked (s : State) (kl : Nat) (act : Nat → Bool) (r : Nat → LaneResult) : Prop :=
  ∀ j < kl, act j = true →
    ((r j).flags.ie = true → s.im = true) ∧ ((r j).flags.de = true → s.dm = true) ∧
    ((r j).flags.oe = true → s.om = true) ∧ ((r j).flags.ue = true → s.um = true) ∧
    ((r j).flags.pe = true → s.pm = true) ∧ ((r j).tiny = true → s.um = true)

/-! ### Results -/

/-- Lane `j` of VFMSUBADD132PH (R173): `dest * third ± src2`. -/
def lane132 (s : State) (rm : RoundMode) (d s2 : Vec) (t3 : Nat → Half) (j : Nat) : LaneResult :=
  if j % 2 = 0 then fma16 s.cfg.nanRule (lane d j) (t3 j) (lane s2 j) .add rm s.fpCtl
  else fma16 s.cfg.nanRule (lane d j) (t3 j) (lane s2 j) .sub rm s.fpCtl

/-- Lane `j` of VFMSUBADD213PH (R177): `src2 * dest ± third`. -/
def lane213 (s : State) (rm : RoundMode) (d s2 : Vec) (t3 : Nat → Half) (j : Nat) : LaneResult :=
  if j % 2 = 0 then fma16 s.cfg.nanRule (lane s2 j) (lane d j) (t3 j) .add rm s.fpCtl
  else fma16 s.cfg.nanRule (lane s2 j) (lane d j) (t3 j) .sub rm s.fpCtl

/-- Lane `j` of VFMSUBADD231PH (R181): `src2 * third ± dest`. -/
def lane231 (s : State) (rm : RoundMode) (d s2 : Vec) (t3 : Nat → Half) (j : Nat) : LaneResult :=
  if j % 2 = 0 then fma16 s.cfg.nanRule (lane s2 j) (t3 j) (lane d j) .add rm s.fpCtl
  else fma16 s.cfg.nanRule (lane s2 j) (t3 j) (lane d j) .sub rm s.fpCtl

/-- The destination value `v` is what the lanes `r`, the writemask and the upper zeroing make of the old value
(R165, R168). -/
abbrev LanesWritten (s : State) (vl : VecLen) (m : Writemask) (old v : Vec) (r : Nat → LaneResult) : Prop :=
  (∀ j < lanes vl, s.active m j = true → lane v j = (r j).value) ∧
  (∀ j < lanes vl, s.active m j = false → lane v j = (match m with | .zeroing _ => 0 | _ => lane old j)) ∧
  (∀ j < 32, lanes vl ≤ j → lane v j = 0)

/-- The new MXCSR `w`: a flag is set if it was or an active lane reports it; ZE and the other bits are as before
(R167). -/
abbrev FlagsOred (s : State) (vl : VecLen) (m : Writemask) (w : BitVec 32) (r : Nat → LaneResult) : Prop :=
  (w.getLsbD 0 = true ↔ s.mxcsr.getLsbD 0 = true ∨ ∃ j < lanes vl, s.active m j = true ∧ (r j).flags.ie = true) ∧
  (w.getLsbD 1 = true ↔ s.mxcsr.getLsbD 1 = true ∨ ∃ j < lanes vl, s.active m j = true ∧ (r j).flags.de = true) ∧
  (w.getLsbD 3 = true ↔ s.mxcsr.getLsbD 3 = true ∨ ∃ j < lanes vl, s.active m j = true ∧ (r j).flags.oe = true) ∧
  (w.getLsbD 4 = true ↔ s.mxcsr.getLsbD 4 = true ∨ ∃ j < lanes vl, s.active m j = true ∧ (r j).flags.ue = true) ∧
  (w.getLsbD 5 = true ↔ s.mxcsr.getLsbD 5 = true ∨ ∃ j < lanes vl, s.active m j = true ∧ (r j).flags.pe = true) ∧
  (∀ b, b = 2 ∨ 6 ≤ b → w.getLsbD b = s.mxcsr.getLsbD b)

/-- The state after an instruction: a new destination register and MXCSR, RIP after the instruction, and the
model's draw counter; everything else as before (R172). -/
def State.after (s : State) (dest : VReg) (v : Vec) (w : BitVec 32) (ilen : Nat) : State :=
  { s with
    zmm   := s.zmm.set dest v
    mxcsr := w
    rip   := s.rip + BitVec.ofNat 64 ilen
    draws := s.draws + 1 }

/-- An outcome is the completed instruction with these lanes, MXCSR flags included. -/
def Completes (o : Outcome) (s : State) (vl : VecLen) (m : Writemask) (dest : VReg) (r : Nat → LaneResult)
    (ilen : Nat) : Prop :=
  ∃ v w, o = .next (s.after dest v w ilen) ∧ LanesWritten s vl m (s.readZmm dest) v r ∧ FlagsOred s vl m w r

/-- An outcome is the completed instruction with these lanes and MXCSR unchanged. -/
def CompletesQuietly (o : Outcome) (s : State) (vl : VecLen) (m : Writemask) (dest : VReg) (r : Nat → LaneResult)
    (ilen : Nat) : Prop :=
  ∃ v, o = .next (s.after dest v s.mxcsr ilen) ∧ LanesWritten s vl m (s.readZmm dest) v r

/-- An outcome with its state replaced: by `onNext` where the instruction completes, by `onFault` in the state an
exception leaves, the exception staying what it is; a refusal has no state. -/
def mapOutcome (onNext onFault : State → State) (o : Outcome) : Outcome :=
  match o with
  | .next t    => .next (onNext t)
  | .fault f   => .fault (f.exn.fault (onFault f.left))
  | .refused r => .refused r

/-! ### An instruction's operands and lanes -/

/-- The rounding mode of an instruction (R164): its own, or MXCSR.RC. -/
def roundingMode (i : Instr) (s : State) : RoundMode := i.parts.form.embedded.getD s.rc

/-- Lane `j`'s element of operand 3 (R163): of the register, or of the memory operand at its linear address. -/
def thirdOperand (i : Instr) (s : State) (j : Nat) : Half :=
  match i.parts.form with
  | .reg _ r => lane (s.readZmm r) j
  | .er r _ => lane (s.readZmm r) j
  | .mem vl op => s.operandElement (s.linearAddress i.parts.leg i.length vl op).toNat (if op.bcast then 0 else j)

/-- What every lane of an instruction computes (R173, R177, R181). -/
def laneResults (i : Instr) (s : State) : Nat → LaneResult :=
  match i.parts.fma with
  | .f132 => lane132 s (roundingMode i s) (s.readZmm i.parts.dest) (s.readZmm i.parts.src2) (thirdOperand i s)
  | .f213 => lane213 s (roundingMode i s) (s.readZmm i.parts.dest) (s.readZmm i.parts.src2) (thirdOperand i s)
  | .f231 => lane231 s (roundingMode i s) (s.readZmm i.parts.dest) (s.readZmm i.parts.src2) (thirdOperand i s)

/-- Operand 3 can be read: a register, or memory every byte of which can be read. -/
abbrev ThirdReadable (i : Instr) (s : State) : Prop :=
  match i.parts.form with
  | .reg _ _ => True
  | .er _ _ => True
  | .mem vl op =>
    OperandReadable s (s.linearAddress i.parts.leg i.length vl op).toNat (operandSize vl op.bcast)

/-- Some active lane detects the condition of MXCSR flag `b` (R171; UE also where a tiny result finds UM = 0, R141). -/
def Detects (i : Instr) (s : State) (b : Nat) : Prop :=
  ∃ j < lanes i.parts.form.vecLen, s.active i.parts.mask j = true ∧
    ((b = 0 ∧ (laneResults i s j).flags.ie = true) ∨ (b = 1 ∧ (laneResults i s j).flags.de = true) ∨
     (b = 3 ∧ (laneResults i s j).flags.oe = true) ∨ (b = 5 ∧ (laneResults i s j).flags.pe = true) ∨
     (b = 4 ∧ ((laneResults i s j).flags.ue = true ∨ ((laneResults i s j).tiny = true ∧ s.mxcsr.getLsbD 11 = false))))

/-- The mask bit of MXCSR flag `b`, seven places above it, is 0 (10_state.md R24, R26). -/
def Unmasked (s : State) (b : Nat) : Prop := s.mxcsr.getLsbD (b + 7) = false

/-! ### Numbers -/

/-- A finite pattern (40_fp16_numerics.md R121). -/
abbrev IsFinite (h : Half) : Prop := fpExp h ≠ 31

/-- The rounded magnitude with unbounded exponent is at least 2^16 (R127), for a value `v` in units of 2^-48: from
65520 on to nearest, above 65504 away from zero, from 65536 on toward zero. -/
def Overflows (v : Int) (rm : RoundMode) : Prop :=
  match rm with
  | .rne => 65520 * 2 ^ 48 ≤ v.natAbs
  | .rz => 65536 * 2 ^ 48 ≤ v.natAbs
  | .rd => if v < 0 then 65504 * 2 ^ 48 < v.natAbs else 65536 * 2 ^ 48 ≤ v.natAbs
  | .ru => if v < 0 then 65536 * 2 ^ 48 ≤ v.natAbs else 65504 * 2 ^ 48 < v.natAbs

/-- The magnitude rounded to 11 bits with unbounded exponent is below 2^-14 (R128), for a value `v` in units of
2^-48: below 2^-14 - 2^-26 to nearest, at most 2^-14 - 2^-25 away from zero, below 2^-14 toward zero. -/
def IsTiny (v : Int) (rm : RoundMode) : Prop :=
  match rm with
  | .rne => v.natAbs < 2 ^ 34 - 2 ^ 22
  | .rz => v.natAbs < 2 ^ 34
  | .rd => if v < 0 then v.natAbs ≤ 2 ^ 34 - 2 ^ 23 else v.natAbs < 2 ^ 34
  | .ru => if v < 0 then v.natAbs < 2 ^ 34 else v.natAbs ≤ 2 ^ 34 - 2 ^ 23

/-! ### The invariant -/

/-- Memory is in its canonical form, the reserved bits of MXCSR are 0 (10_state.md R24), and RIP is canonical (R28). -/
abbrev Inv (s : State) : Prop :=
  Memory.wf s.mem = true ∧ s.mxcsr.extractLsb' 16 16 = 0 ∧ canonical s.cfg.laBits s.rip.toNat = true

/-! ### Runs (70_reset_and_hazards.md R244) -/

/-- Run a program that ends at linear address `stop`, for `fuel` steps at most: a run ends where RIP is `stop`, or at
the first fault or refusal. `none` where the fuel did not suffice. -/
def runProgram (stop : Word64) : (fuel : Nat) → State → Option Outcome
  | 0, s => if s.rip = stop then some (.next s) else none
  | fuel + 1, s =>
    if s.rip = stop then some (.next s)
    else
      match step s with
      | .next t    => runProgram stop fuel t
      | .fault f   => some (.fault f)
      | .refused r => some (.refused r)

/-- A run is safe where it ends by falling through past the program's last byte. -/
def SafeRun (stop : Word64) (fuel : Nat) (s : State) : Prop := ∃ t, runProgram stop fuel s = some (.next t)

end Sys2Proof.Machine
end

