-- ==== Sys2Proof/Certificates/Slice0/Obligations.lean ====
section
/-! DEFINITION. The statements for the provers. "The value in a draw" of a statement is a free value of Config: no
statement rests on one. A faulting step is stated with the whole state it leaves; the model's own field `draws`
advances by one there and wherever an instruction completes. -/

section Statements

open Sys2Proof Sys2Proof.Machine

/-! ### Encoding -/

/-- Words written out from the encoding rules decode to the instructions the spec says they are
(41_vfmsubadd_ph.md R174 to R184, the examples of each row), each value of EVEX.RC among them (10_state.md R25,
41_vfmsubadd_ph.md R164). -/
def Obligations.KnownWordsDecode : Prop :=
  decode [0x62, 0xF6, 0x6D, 0x08, 0x97, 0xCB] = .ok (.vfmsubadd132phXmmReg ⟨none, false⟩ .all 1 2 3) ∧
  decode [0x62, 0xF6, 0x6D, 0x28, 0x97, 0xCB] = .ok (.vfmsubadd132phYmmReg ⟨none, false⟩ .all 1 2 3) ∧
  decode [0x62, 0x06, 0x15, 0xB7, 0x97, 0xF4] = .ok (.vfmsubadd132phZmmEr ⟨none, false⟩ (.zeroing 7) 30 29 28 .rd) ∧
  decode [0x62, 0xF6, 0x6D, 0x18, 0x97, 0xCB] = .ok (.vfmsubadd132phZmmEr ⟨none, false⟩ .all 1 2 3 .rne) ∧
  decode [0x62, 0xF6, 0x6D, 0x58, 0x97, 0xCB] = .ok (.vfmsubadd132phZmmEr ⟨none, false⟩ .all 1 2 3 .ru) ∧
  decode [0x62, 0xF6, 0x6D, 0x78, 0x97, 0xCB] = .ok (.vfmsubadd132phZmmEr ⟨none, false⟩ .all 1 2 3 .rz) ∧
  decode [0x62, 0x76, 0x6D, 0x22, 0xA7, 0x4C, 0x8B, 0x02] =
    .ok (.vfmsubadd213phYmmMem ⟨none, false⟩ (.merging 2) 9 18 ⟨.sib 3 (some ⟨1, .x4⟩) (.d8 2), false⟩) ∧
  decode [0x62, 0xF6, 0x6D, 0x48, 0xA7, 0xCB] = .ok (.vfmsubadd213phZmmReg ⟨none, false⟩ .all 1 2 3) ∧
  decode [0x62, 0xF6, 0x6D, 0x99, 0xB7, 0x08] =
    .ok (.vfmsubadd231phXmmMem ⟨none, false⟩ (.zeroing 1) 1 2 ⟨.base 0 .none, true⟩) ∧
  decode [0x62, 0xF6, 0x4D, 0x48, 0xB7, 0x2D, 0x00, 0x01, 0x00, 0x00] =
    .ok (.vfmsubadd231phZmmMem ⟨none, false⟩ .all 5 6 ⟨.ripRel 0x100, false⟩)

/-- Every well-formed instruction is read back from its encoding, whatever bytes follow: no bit of any operand, mask,
rounding mode, addressing form or legacy byte is dropped. -/
def Obligations.EncodedInstructionsDecode : Prop :=
  ∀ (i : Instr) (rest : List Byte), i.wf = true → decode (encode i ++ rest) = .ok i

/-- The length of an instruction (30_encoding.md R102): legacy bytes, the four bytes of the EVEX form, opcode, ModRM,
SIB where there is one, and 0, 1 or 4 displacement bytes; between 6 and 13. -/
def Obligations.InstructionLengths : Prop :=
  (∀ d : Disp, d.bytes.length = 0 ∨ d.bytes.length = 1 ∨ d.bytes.length = 4) ∧
  ∀ i : Instr,
    (encode i).length = i.length ∧ 6 ≤ i.length ∧ i.length ≤ 13 ∧
    i.length = i.parts.leg.bytes.length + 4 + 1 + 1 +
      (match i.parts.form with
       | .reg _ _ => 0
       | .er _ _ => 0
       | .mem _ op =>
         match op.addr with
         | .base _ d => 0 + d.bytes.length
         | .sib _ _ d => 1 + d.bytes.length
         | .sibNoBase _ d => 1 + (disp32Bytes d).length
         | .ripRel d => 0 + (disp32Bytes d).length)

/-- What the decoder reads from any bytes is well-formed, its bytes are there, and the bytes after them have no
influence (30_encoding.md R109, R102). -/
def Obligations.DecodedInstructionsAreWellFormed : Prop :=
  ∀ (bytes : List Byte) (i : Instr), decode bytes = .ok i →
    i.wf = true ∧ i.length ≤ bytes.length ∧ ∀ rest : List Byte, decode (bytes.take i.length ++ rest) = .ok i

/-- The opcode table (30_encoding.md R108): no six bytes match two of its rows, and the six bytes from 62h of an
instruction that decodes match the row with its mnemonic and form, and no other. -/
def Obligations.DecodedBytesMatchTheirRow : Prop :=
  (∀ (w : BitVec 48) (r r' : OpcodeRow), r ∈ opcodeRows → r' ∈ opcodeRows → r.covers w = true → r'.covers w = true →
    r = r') ∧
  ∀ (pre : List Byte) (p0 p1 p2 op modrm : Byte) (rest : List Byte) (i : Instr),
    (∀ c ∈ pre, c = 0x64 ∨ c = 0x65 ∨ c = 0x67) →
    decode (pre ++ 0x62 :: p0 :: p1 :: p2 :: op :: modrm :: rest) = .ok i →
    ∀ r ∈ opcodeRows,
      (r.covers ((0x62 : BitVec 8) ++ p0 ++ p1 ++ p2 ++ op ++ modrm) = true ↔
        r.fma = i.parts.fma ∧ r.kind = i.parts.form.kind)

/-- The legacy bytes that make an instruction illegal (30_encoding.md R82): F0h, 66h, F2h, F3h or 40h to 4Fh anywhere
before the 62h byte of a sequence with the `mmm`, `pp`, `W` and opcode of the table, whatever its other bits. Two
things in it are the model's: that #UD counts also where other bytes beside them make an arrangement that R81 refuses
(log 13), and that it is raised without looking at later bytes or at the address after the instruction (log 32). -/
def Obligations.IllegalLegacyBytesRaiseUd : Prop :=
  ∀ (pre : List Byte) (p0 p1 p2 op modrm : Byte) (rest : List Byte),
    p0.extractLsb' 0 3 = 6 → p1.extractLsb' 0 2 = 1 → p1.getLsbD 7 = false →
    (op = 0x97 ∨ op = 0xA7 ∨ op = 0xB7) →
    (∀ c ∈ pre, c ∈ ([0x64, 0x65, 0x67, 0x26, 0x2E, 0x36, 0x3E, 0xF0, 0x66, 0xF2, 0xF3] : List Byte) ∨
      (0x40 ≤ c ∧ c ≤ 0x4F)) →
    (∃ c ∈ pre, c = 0xF0 ∨ c = 0x66 ∨ c = 0xF2 ∨ c = 0xF3 ∨ (0x40 ≤ c ∧ c ≤ 0x4F)) →
    decode (pre ++ 0x62 :: p0 :: p1 :: p2 :: op :: modrm :: rest) = .illegal ∧
    ∀ s : State, Admitted s → s.fetchBytes = pre ++ 0x62 :: p0 :: p1 :: p2 :: op :: modrm :: rest →
      step s = .fault (.ud { s with draws := s.draws + 1 })

/-- The reserved encodings (30_encoding.md R105 rows 2 to 5, 60_exceptions.md R201 causes 2 to 4): among the sequences
with the `mmm`, `pp`, `W` and opcode of the table, exactly those with `P0[3] = 1`, `P1[2] = 0`, `L'L = 11b` where it
is a length, or `z = 1` with `aaa = 000b` are illegal; a step at them raises #UD. That it does so without looking at later bytes or at
the address after the instruction, in the order of 30_encoding.md R109, is the model's choice (log 32). -/
def Obligations.ReservedFieldsRaiseUd : Prop :=
  ∀ (leg : Legacy) (p0 p1 p2 op modrm : Byte) (rest : List Byte),
    p0.extractLsb' 0 3 = 6 → p1.extractLsb' 0 2 = 1 → p1.getLsbD 7 = false →
    (op = 0x97 ∨ op = 0xA7 ∨ op = 0xB7) →
    (decode (leg.bytes ++ 0x62 :: p0 :: p1 :: p2 :: op :: modrm :: rest) = .illegal ↔
      p0.getLsbD 3 = true ∨ p1.getLsbD 2 = false ∨
      (p2.extractLsb' 5 2 = 3 ∧ (modrm.extractLsb' 6 2 ≠ 3 ∨ p2.getLsbD 4 = false)) ∨
      (p2.getLsbD 7 = true ∧ p2.extractLsb' 0 3 = 0)) ∧
    ∀ s : State, Admitted s →
      s.fetchBytes = leg.bytes ++ 0x62 :: p0 :: p1 :: p2 :: op :: modrm :: rest →
      (p0.getLsbD 3 = true ∨ p1.getLsbD 2 = false ∨
        (p2.extractLsb' 5 2 = 3 ∧ (modrm.extractLsb' 6 2 ≠ 3 ∨ p2.getLsbD 4 = false)) ∨
        (p2.getLsbD 7 = true ∧ p2.extractLsb' 0 3 = 0)) →
      step s = .fault (.ud { s with draws := s.draws + 1 })

/-- Everything else is refused (30_encoding.md R106): no 62h byte after the legacy bytes, or another `mmm`, `pp`, `W` or
opcode. That the refusal names the table also where the legacy bytes are arranged as R81 does not admit is the model's
choice (log 35). -/
def Obligations.OtherSequencesAreRefused : Prop :=
  ∀ (s : State) (pre : List Byte), Admitted s → (∀ c ∈ pre, c = 0x64 ∨ c = 0x65 ∨ c = 0x67) →
    (∀ (c : Byte) (rest : List Byte), s.fetchBytes = pre ++ c :: rest →
      c ∉ ([0x62, 0x64, 0x65, 0x67, 0x26, 0x2E, 0x36, 0x3E, 0xF0, 0x66, 0xF2, 0xF3] : List Byte) →
      ¬(0x40 ≤ c ∧ c ≤ 0x4F) → step s = .refused .notInTable) ∧
    (∀ (p0 p1 p2 op modrm : Byte) (rest : List Byte),
      s.fetchBytes = pre ++ 0x62 :: p0 :: p1 :: p2 :: op :: modrm :: rest →
      (p0.extractLsb' 0 3 ≠ 6 ∨ p1.extractLsb' 0 2 ≠ 1 ∨ p1.getLsbD 7 = true ∨
        (op ≠ 0x97 ∧ op ≠ 0xA7 ∧ op ≠ 0xB7)) →
      step s = .refused .notInTable)

/-- The legacy bytes that are admitted (30_encoding.md R81): at most one of 64h and 65h and at most one 67h, in either
order, belong to the instruction; null segment bytes and repeated or conflicting overrides are refused. -/
def Obligations.LegacyArrangements : Prop :=
  ∀ (i : Instr) (pre rest : List Byte), i.wf = true → i.parts.leg = ⟨none, false⟩ →
    (∀ c ∈ pre, c ∈ ([0x64, 0x65, 0x67, 0x26, 0x2E, 0x36, 0x3E] : List Byte)) →
    ((pre.count 0x64 + pre.count 0x65 ≤ 1 ∧ pre.count 0x67 ≤ 1 ∧
        pre.length = pre.count 0x64 + pre.count 0x65 + pre.count 0x67) →
      decode (pre ++ encode i ++ rest) =
        .ok (Parts.instr
          { i.parts with
            leg := ⟨if 0x64 ∈ pre then some .fs else if 0x65 ∈ pre then some .gs else none, decide (0x67 ∈ pre)⟩ })) ∧
    (¬(pre.count 0x64 + pre.count 0x65 ≤ 1 ∧ pre.count 0x67 ≤ 1 ∧
        pre.length = pre.count 0x64 + pre.count 0x65 + pre.count 0x67) →
      decode (pre ++ encode i ++ rest) = .refused .legacyBytes)

/-! ### The step -/

/-- A step runs the decoded instruction, in every state; where the launch premises hold, illegal bytes raise #UD and
refused bytes are refused (30_encoding.md R109). `exec` itself moves RIP past the instruction. That illegal bytes raise
#UD also where a later byte or the successor's address would stop the step is the model's choice (log 32). -/
def Obligations.StepRunsTheDecodedInstruction : Prop :=
  (∀ (s : State) (i : Instr), s.fetched = .ok i → step s = exec i s) ∧
  (∀ s : State, Admitted s → s.fetched = .illegal → step s = .fault (.ud { s with draws := s.draws + 1 })) ∧
  (∀ (s : State) (r : DecodeRefusal), Admitted s → s.fetched = .refused r → step s = .refused (refusalOf r))

/-- A step at an instruction's bytes runs it: each byte of its encoding is stored where `Translate` puts its linear
address for fetching, in memory nobody else writes (70_reset_and_hazards.md R243 P5). -/
def Obligations.StepRunsTheStoredInstruction : Prop :=
  ∀ (s : State) (i : Instr), i.wf = true →
    (∀ (n : Nat) (b : Byte), (encode i)[n]? = some b →
      canonical s.cfg.laBits (s.rip.toNat + n) = true ∧
      ∃ p, s.translate (s.rip.toNat + n) .fetch = .mapped p .ordinary ∧ Memory.byte? s.mem p = some b) →
    step s = exec i s

/-- A placed instruction is the next to run (the model's own placing of code, log 17): whatever the state was, the
placed word's instruction is fetched, and nothing of vectors, opmasks, general registers, MXCSR, CPL, FS and GS
bases or parameters was changed by placing it. -/
def Obligations.PlacedWordsRun : Prop :=
  ∀ (s : State) (nbits w : Nat) (i : Instr), decodeTableWord nbits w = some i →
    step (s.withFetchWord nbits w) = exec i (s.withFetchWord nbits w) ∧
    (s.withFetchWord nbits w).zmm = s.zmm ∧ (s.withFetchWord nbits w).k = s.k ∧
    (s.withFetchWord nbits w).gpr = s.gpr ∧ (s.withFetchWord nbits w).mxcsr = s.mxcsr ∧
    (s.withFetchWord nbits w).cpl = s.cpl ∧ (s.withFetchWord nbits w).fsBase = s.fsBase ∧
    (s.withFetchWord nbits w).gsBase = s.gsBase ∧ (s.withFetchWord nbits w).cfg = s.cfg

/-- A step keeps the invariant: memory in canonical form, the reserved bits of MXCSR 0 (10_state.md R24), RIP canonical
(R28). -/
def Obligations.StepKeepsInvariant : Prop :=
  ∀ s t : State, Inv s → step s = .next t → Inv t

/-- The invariant holds at reset. -/
def Obligations.ResetSatisfiesInvariant : Prop := Inv State.reset

/-- The state a faulting step leaves keeps the invariant too. -/
def Obligations.FaultKeepsInvariant : Prop :=
  ∀ (s : State) (f : Fault), Inv s → step s = .fault f → Inv f.left

/-- The reset values of 10_state.md R40, and what INIT leaves alone (70_reset_and_hazards.md R241). That CR0.CD and
CR0.NW, which INIT leaves alone, are bits 30 and 29 is the model's (PRESUMED, log 10). -/
def Obligations.ResetAndInitValues : Prop :=
  (∀ r : VReg, State.reset.readZmm r = 0) ∧ (∀ r : KReg, State.reset.readK r = 0) ∧
  (∀ r : GReg, r ≠ 0 → r ≠ 2 → State.reset.readGpr r = 0) ∧
  State.reset.rip = 0xFFF0 ∧ State.reset.csBase = 0xFFFF0000 ∧ State.reset.mxcsr = 0x1F80 ∧
  State.reset.rflags = 0x2 ∧ State.reset.cr0 = 0x60000010 ∧ State.reset.cr2 = 0 ∧ State.reset.cr3 = 0 ∧
  State.reset.cr4 = 0 ∧ State.reset.xcr0 = 1 ∧ State.reset.efer = 0 ∧ State.reset.fsBase = 0 ∧
  State.reset.gsBase = 0 ∧ State.reset.cpl = 0 ∧
  ∀ s : State,
    (initEvent s).zmm = s.zmm ∧ (initEvent s).k = s.k ∧ (initEvent s).mxcsr = s.mxcsr ∧
    (initEvent s).xcr0 = s.xcr0 ∧ (initEvent s).mem = s.mem ∧ (initEvent s).rip = 0xFFF0 ∧
    (initEvent s).csBase = 0xFFFF0000 ∧ (initEvent s).rflags = 0x2 ∧ (initEvent s).cr2 = 0 ∧
    (initEvent s).cr3 = 0 ∧ (initEvent s).cr4 = 0 ∧ (initEvent s).efer = 0 ∧ (initEvent s).cpl = 0 ∧
    (initEvent s).fsBase = 0 ∧ (initEvent s).gsBase = 0 ∧
    (∀ r : GReg, r ≠ 0 → r ≠ 2 → (initEvent s).readGpr r = 0) ∧
    (initEvent s).cr0.getLsbD 30 = s.cr0.getLsbD 30 ∧ (initEvent s).cr0.getLsbD 29 = s.cr0.getLsbD 29 ∧
    (∀ b, b ≠ 29 → b ≠ 30 → (initEvent s).cr0.getLsbD b = State.reset.cr0.getLsbD b)

/-- What is refused.
(1) Outside 64-bit mode a step and every instruction (10_state.md R35, 30_encoding.md R114), so also (2) at reset
(70_reset_and_hazards.md R242). (3) With alignment checking on, (4) single-stepping, or (5) with an enabled instruction
breakpoint at RIP, a step and every instruction (R243 P6, P7, 60_exceptions.md R230). (6) A memory form whose operand an
enabled data breakpoint meets, where it would otherwise be read (R243 P7, R230). (7) An instruction whose successor's
address is not canonical, and (8) a step that needs an instruction byte that is not (10_state.md R28). (9) A step that
needs an instruction byte in shared or device memory, or (10) one that `Translate` does not map (R243 P5,
93_implementation_defined.md I18; log 9).
The model's choices in it: the places of CR0.PE, CR0.AM, RFLAGS.AC, RFLAGS.TF and EFER.LMA (log 10); the layout of the
debug registers (log 11); that register forms are refused too in (3) (log 12); that (6) comes after the exceptions of the
access and before those of the arithmetic (log 21); that (1) to (5) and (7) come before every exception (log 29), and
(8) to (10) before #UD for features and state and before #NM (log 32); which reason a refusal names where several of (3)
to (5) hold at once (log 35) or several instruction bytes cannot be fetched (log 33); and all of (9), inferred from what
20_memory.md R64 says of operands and R69 of code that changes (DEDUCED, log 28). -/
def Obligations.PremisesRefuse : Prop :=
  (∀ (s : State) (i : Instr), s.csL = false ∨ s.efer.getLsbD 10 = false ∨ s.cr0.getLsbD 0 = false →
    step s = .refused .not64BitMode ∧ exec i s = .refused .not64BitMode) ∧
  step State.reset = .refused .not64BitMode ∧
  (∀ (s : State) (i : Instr), s.mode64 = true → s.alignmentChecking = true →
    step s = .refused .alignmentChecking ∧ exec i s = .refused .alignmentChecking) ∧
  (∀ (s : State) (i : Instr), s.mode64 = true → s.alignmentChecking = false → s.singleStep = true →
    step s = .refused .singleStep ∧ exec i s = .refused .singleStep) ∧
  (∀ (s : State) (i : Instr) (n : Fin 4), s.mode64 = true → s.alignmentChecking = false → s.singleStep = false →
    (s.dr7.getLsbD (2 * n) = true ∨ s.dr7.getLsbD (2 * n + 1) = true) → s.dr7.extractLsb' (16 + 4 * n) 2 = 0 →
    s.drAddr[n] = s.rip → step s = .refused .breakpoint ∧ exec i s = .refused .breakpoint) ∧
  (∀ (i : Instr) (s : State) (vl : VecLen) (op : MemOp) (first len low : Nat) (n : Fin 4),
    i.parts.form = .mem vl op → Ready s vl i.length → first = (s.linearAddress i.parts.leg i.length vl op).toNat →
    (∀ m < operandSize vl op.bcast, ByteReadable s (first + m)) →
    (s.dr7.getLsbD (2 * n) = true ∨ s.dr7.getLsbD (2 * n + 1) = true) → s.dr7.extractLsb' (16 + 4 * n) 2 = 3 →
    len = (match (s.dr7.extractLsb' (18 + 4 * n) 2).toNat with
      | 0 => 1
      | 1 => 2
      | 2 => 8
      | _ => 4) →
    low = (s.drAddr[n]).toNat / len * len → low < first + operandSize vl op.bcast → first < low + len →
    exec i s = .refused .breakpoint) ∧
  (∀ (i : Instr) (s : State), Admitted s → canonical s.cfg.laBits (s.rip.toNat + i.length) = false →
    exec i s = .refused .codeNotCanonical) ∧
  (∀ (s : State) (n : Nat), Admitted s → n = s.fetchBytes.length → n < 15 → s.fetched = .short →
    (canonical s.cfg.laBits (s.rip.toNat + n) = false → step s = .refused .codeNotCanonical) ∧
    (canonical s.cfg.laBits (s.rip.toNat + n) = true →
      (∀ p, s.translate (s.rip.toNat + n) .fetch = .mapped p .shared ∨
          s.translate (s.rip.toNat + n) .fetch = .mapped p .device → step s = .refused .codeNotOrdinary) ∧
      (∀ code, s.translate (s.rip.toNat + n) .fetch = .fault code → step s = .refused .codeNotMapped)))

/-! ### Exceptions before the operands -/

/-- Features absent or vector state not enabled: #UD (60_exceptions.md R201 causes 5 and 6, 10_state.md R32). The
512-bit forms, embedded rounding among them, do not need AVX512VL (30_encoding.md R93). -/
def Obligations.DisabledStateRaisesUd : Prop :=
  ∀ (i : Instr) (s : State), Admitted s → NextCanonical s i.length →
    (s.cfg.avx512fp16 = false ∨ (i.parts.form.vecLen ≠ .v512 ∧ s.cfg.avx512vl = false) ∨
      s.cr4.getLsbD 18 = false ∨ s.xcr0.extractLsb' 1 2 ≠ 3 ∨ s.xcr0.extractLsb' 5 3 ≠ 7) →
    exec i s = .fault (.ud { s with draws := s.draws + 1 })

/-- CR0.TS = 1 raises #NM from a legal, enabled instruction, whatever its operands (60_exceptions.md R202). -/
def Obligations.TaskSwitchedRaisesNm : Prop :=
  ∀ (i : Instr) (s : State), Admitted s → NextCanonical s i.length → StateEnabled s i.parts.form.vecLen →
    s.cr0.getLsbD 3 = true → exec i s = .fault (.nm { s with draws := s.draws + 1 })

/-! ### Exceptions of memory operands -/

/-- A needed byte of the operand at a non-canonical address: #SS(0) where the base register is RSP or RBP and there is
no override (60_exceptions.md R203), #GP(0) otherwise (R204, 20_memory.md R57). That the exception wins where another
byte of the operand lies on a device (R64) or a data breakpoint meets the operand (70_reset_and_hazards.md R243 P7, P8),
where the spec lets the step refuse, is the model's choice (logs 20 and 21). -/
def Obligations.NonCanonicalOperandsFault : Prop :=
  ∀ (i : Instr) (s : State) (vl : VecLen) (op : MemOp) (n : Nat),
    i.parts.form = .mem vl op → Ready s vl i.length → n < operandSize vl op.bcast →
    neededByte (lanes vl) (s.active i.parts.mask) op.bcast n = true →
    canonical s.cfg.laBits ((s.linearAddress i.parts.leg i.length vl op).toNat + n) = false →
    ((i.parts.leg.seg = none ∧ (baseReg op.addr = some 4 ∨ baseReg op.addr = some 5)) →
      exec i s = .fault (.ss { s with draws := s.draws + 1 })) ∧
    (¬(i.parts.leg.seg = none ∧ (baseReg op.addr = some 4 ∨ baseReg op.addr = some 5)) →
      exec i s = .fault (.gp { s with draws := s.draws + 1 }))

/-- A page fault under a needed byte of a canonical operand in ordinary memory: #PF with the oracle's code, the address of
some such byte in CR2 and nothing else changed (60_exceptions.md R205). That it wins where a data breakpoint meets the
operand (R230, 70_reset_and_hazards.md R243 P7) is the model's choice (log 21). A step raises #PF for no other reason: always for a
byte of the operand of the memory form it runs, with the oracle's code for that byte. That the second clause leaves no
#PF for an instruction byte is the model's deduction (DEDUCED, log 9), against the letter of R200 and R205, which list
that cause too: R243 P5 and 93_implementation_defined.md I18 let the step refuse there, as
`PremisesRefuse` states. -/
def Obligations.PageFaults : Prop :=
  (∀ (i : Instr) (s : State) (vl : VecLen) (op : MemOp) (first : Nat),
    i.parts.form = .mem vl op → Ready s vl i.length → first = (s.linearAddress i.parts.leg i.length vl op).toNat →
    (∀ n < operandSize vl op.bcast, canonical s.cfg.laBits (first + n) = true ∧
      ∀ p, s.translate (first + n) .read ≠ .mapped p .device) →
    (∃ n code, n < operandSize vl op.bcast ∧ neededByte (lanes vl) (s.active i.parts.mask) op.bcast n = true ∧
      s.translate (first + n) .read = .fault code) →
    ∃ n code, n < operandSize vl op.bcast ∧ neededByte (lanes vl) (s.active i.parts.mask) op.bcast n = true ∧
      s.translate (first + n) .read = .fault code ∧
      exec i s = .fault (.pf code (BitVec.ofNat 64 (first + n))
        { s with cr2 := BitVec.ofNat 64 (first + n), draws := s.draws + 1 })) ∧
  ∀ (s : State) (code : BitVec 32) (a : Word64) (t : State), step s = .fault (.pf code a t) →
    ∃ (i : Instr) (vl : VecLen) (op : MemOp) (n : Nat), s.fetched = .ok i ∧ i.parts.form = .mem vl op ∧
      n < operandSize vl op.bcast ∧
      canonical s.cfg.laBits ((s.linearAddress i.parts.leg i.length vl op).toNat + n) = true ∧
      s.translate ((s.linearAddress i.parts.leg i.length vl op).toNat + n) .read = .fault code ∧
      a = s.linearAddress i.parts.leg i.length vl op + BitVec.ofNat 64 n

/-- Fault suppression (20_memory.md R61): where every needed byte can be read and nothing traps, the instruction either
completes as if every byte could be read, or faults on a byte that is not needed: with #SS(0) or #GP(0), by its segment
(R57, 60_exceptions.md R203, R204), where that byte's address is not canonical, with #PF where its page faults. -/
def Obligations.UnneededBytesMayFault : Prop :=
  ∀ (i : Instr) (s : State) (vl : VecLen) (op : MemOp) (first : Nat),
    i.parts.form = .mem vl op → Ready s vl i.length → first = (s.linearAddress i.parts.leg i.length vl op).toNat →
    (∀ n < operandSize vl op.bcast, neededByte (lanes vl) (s.active i.parts.mask) op.bcast n = true →
      ByteReadable s (first + n)) →
    (∀ n < operandSize vl op.bcast, ∀ p, s.translate (first + n) .read ≠ .mapped p .device) →
    s.dataBreakpoint first (operandSize vl op.bcast) = false →
    NoUnmasked s (lanes vl) (s.active i.parts.mask) (laneResults i s) →
    Completes (exec i s) s vl i.parts.mask i.parts.dest (laneResults i s) i.length ∨
    (∃ n, n < operandSize vl op.bcast ∧ neededByte (lanes vl) (s.active i.parts.mask) op.bcast n = false ∧
      canonical s.cfg.laBits (first + n) = false ∧
      exec i s = .fault (if i.parts.leg.seg = none ∧ (baseReg op.addr = some 4 ∨ baseReg op.addr = some 5)
        then .ss { s with draws := s.draws + 1 } else .gp { s with draws := s.draws + 1 })) ∨
    (∃ n code, n < operandSize vl op.bcast ∧ neededByte (lanes vl) (s.active i.parts.mask) op.bcast n = false ∧
      canonical s.cfg.laBits (first + n) = true ∧ s.translate (first + n) .read = .fault code ∧
      exec i s = .fault (.pf code (BitVec.ofNat 64 (first + n))
        { s with cr2 := BitVec.ofNat 64 (first + n), draws := s.draws + 1 }))

/-- An operand of which a byte lies on a device is refused (20_memory.md R64). Three things in it are the model's choice:
that a byte no lane needs counts too, and that the refusal comes before a #PF under a needed byte, which
60_exceptions.md R210 does not place (both log 20); and that the device is named where a data breakpoint meets the operand
too (log 35). -/
def Obligations.DeviceOperandsAreRefused : Prop :=
  ∀ (i : Instr) (s : State) (vl : VecLen) (op : MemOp) (first n p : Nat),
    i.parts.form = .mem vl op → Ready s vl i.length → first = (s.linearAddress i.parts.leg i.length vl op).toNat →
    (∀ m < operandSize vl op.bcast, canonical s.cfg.laBits (first + m) = true) →
    n < operandSize vl op.bcast → s.translate (first + n) .read = .mapped p .device →
    exec i s = .refused .deviceOperand

/-! ### Floating-point exceptions -/

/-- An unmasked condition in an active lane of a form without embedded rounding: #XM, or #UD where CR4.OSXMMEXCPT is 0
(60_exceptions.md R206, R207). Only MXCSR flags are written: `g`, some set of detected flags that holds the trapping
ones, which are the unmasked Invalid and Denormal if there are any, else the unmasked others (41_vfmsubadd_ph.md
R171). -/
def Obligations.UnmaskedConditionsTrap : Prop :=
  ∀ (i : Instr) (s : State), i.parts.form.embedded = none → Ready s i.parts.form.vecLen i.length →
    ThirdReadable i s → (∃ b, Detects i s b ∧ Unmasked s b) →
    ∃ g : BitVec 6,
      exec i s = .fault (if s.cr4.getLsbD 10 then
          .xm { s with mxcsr := s.mxcsr ||| g.setWidth 32, draws := s.draws + 1 }
        else .ud { s with mxcsr := s.mxcsr ||| g.setWidth 32, draws := s.draws + 1 }) ∧
      (∀ b < 6, g.getLsbD b = true → Detects i s b) ∧
      (∀ b < 2, Detects i s b → Unmasked s b → g.getLsbD b = true) ∧
      ((∀ b < 2, ¬(Detects i s b ∧ Unmasked s b)) →
        ∀ b < 6, Detects i s b → Unmasked s b → g.getLsbD b = true)

/-- With all exceptions masked, `MXCSR[12:7] = 111111b`, no instruction traps: each completes where it is ready and its
operand can be read (70_reset_and_hazards.md R243, 41_vfmsubadd_ph.md R171). -/
def Obligations.MaskedInstructionsComplete : Prop :=
  ∀ (i : Instr) (s : State), Ready s i.parts.form.vecLen i.length → ThirdReadable i s →
    s.mxcsr.extractLsb' 7 6 = 0x3F → ∃ t, exec i s = .next t

/-! ### Results -/

/-- VFMSUBADD132PH, register forms (41_vfmsubadd_ph.md R173, R174, R175, R176): each completes, with
`dest * src3 + src2` in active even lanes and `dest * src3 - src2` in active odd lanes. -/
def Obligations.Vfmsubadd132RegisterResults : Prop :=
  ∀ (leg : Legacy) (m : Writemask) (dest src2 src3 : VReg) (s : State) (r : Nat → LaneResult),
    r = lane132 s s.rc (s.readZmm dest) (s.readZmm src2) (lane (s.readZmm src3)) →
    (Ready s .v128 (regLength leg) → NoUnmasked s 8 (s.active m) r →
      Completes (exec (.vfmsubadd132phXmmReg leg m dest src2 src3) s) s .v128 m dest r (regLength leg)) ∧
    (Ready s .v256 (regLength leg) → NoUnmasked s 16 (s.active m) r →
      Completes (exec (.vfmsubadd132phYmmReg leg m dest src2 src3) s) s .v256 m dest r (regLength leg)) ∧
    (Ready s .v512 (regLength leg) → NoUnmasked s 32 (s.active m) r →
      Completes (exec (.vfmsubadd132phZmmReg leg m dest src2 src3) s) s .v512 m dest r (regLength leg))

/-- VFMSUBADD213PH, register forms (R177, R178, R179, R180): `src2 * dest + src3` and `src2 * dest - src3`. -/
def Obligations.Vfmsubadd213RegisterResults : Prop :=
  ∀ (leg : Legacy) (m : Writemask) (dest src2 src3 : VReg) (s : State) (r : Nat → LaneResult),
    r = lane213 s s.rc (s.readZmm dest) (s.readZmm src2) (lane (s.readZmm src3)) →
    (Ready s .v128 (regLength leg) → NoUnmasked s 8 (s.active m) r →
      Completes (exec (.vfmsubadd213phXmmReg leg m dest src2 src3) s) s .v128 m dest r (regLength leg)) ∧
    (Ready s .v256 (regLength leg) → NoUnmasked s 16 (s.active m) r →
      Completes (exec (.vfmsubadd213phYmmReg leg m dest src2 src3) s) s .v256 m dest r (regLength leg)) ∧
    (Ready s .v512 (regLength leg) → NoUnmasked s 32 (s.active m) r →
      Completes (exec (.vfmsubadd213phZmmReg leg m dest src2 src3) s) s .v512 m dest r (regLength leg))

/-- VFMSUBADD231PH, register forms (R181, R182, R183, R184): `src2 * src3 + dest` and `src2 * src3 - dest`. -/
def Obligations.Vfmsubadd231RegisterResults : Prop :=
  ∀ (leg : Legacy) (m : Writemask) (dest src2 src3 : VReg) (s : State) (r : Nat → LaneResult),
    r = lane231 s s.rc (s.readZmm dest) (s.readZmm src2) (lane (s.readZmm src3)) →
    (Ready s .v128 (regLength leg) → NoUnmasked s 8 (s.active m) r →
      Completes (exec (.vfmsubadd231phXmmReg leg m dest src2 src3) s) s .v128 m dest r (regLength leg)) ∧
    (Ready s .v256 (regLength leg) → NoUnmasked s 16 (s.active m) r →
      Completes (exec (.vfmsubadd231phYmmReg leg m dest src2 src3) s) s .v256 m dest r (regLength leg)) ∧
    (Ready s .v512 (regLength leg) → NoUnmasked s 32 (s.active m) r →
      Completes (exec (.vfmsubadd231phZmmReg leg m dest src2 src3) s) s .v512 m dest r (regLength leg))

/-- The embedded-rounding forms (R164, R167, 30_encoding.md R92): 512 bits, rounded as the instruction says, MXCSR
unchanged whatever the lanes detect and whatever it masks. -/
def Obligations.EmbeddedRoundingResults : Prop :=
  ∀ (leg : Legacy) (m : Writemask) (dest src2 src3 : VReg) (rc : RoundMode) (s : State),
    Ready s .v512 (regLength leg) →
    CompletesQuietly (exec (.vfmsubadd132phZmmEr leg m dest src2 src3 rc) s) s .v512 m dest
      (lane132 s rc (s.readZmm dest) (s.readZmm src2) (lane (s.readZmm src3))) (regLength leg) ∧
    CompletesQuietly (exec (.vfmsubadd213phZmmEr leg m dest src2 src3 rc) s) s .v512 m dest
      (lane213 s rc (s.readZmm dest) (s.readZmm src2) (lane (s.readZmm src3))) (regLength leg) ∧
    CompletesQuietly (exec (.vfmsubadd231phZmmEr leg m dest src2 src3 rc) s) s .v512 m dest
      (lane231 s rc (s.readZmm dest) (s.readZmm src2) (lane (s.readZmm src3))) (regLength leg)

/-- VFMSUBADD132PH, memory forms (R163, R173): each completes where the whole operand can be read, the third operand
being the element of each lane, or the one element broadcast. -/
def Obligations.Vfmsubadd132MemoryResults : Prop :=
  ∀ (leg : Legacy) (m : Writemask) (dest src2 : VReg) (op : MemOp) (s : State) (vl : VecLen) (first : Nat)
    (r : Nat → LaneResult),
    first = (s.linearAddress leg (memLength leg op) vl op).toNat →
    r = lane132 s s.rc (s.readZmm dest) (s.readZmm src2)
      (fun j => s.operandElement first (if op.bcast then 0 else j)) →
    Ready s vl (memLength leg op) → OperandReadable s first (operandSize vl op.bcast) →
    NoUnmasked s (lanes vl) (s.active m) r →
    (vl = .v128 → Completes (exec (.vfmsubadd132phXmmMem leg m dest src2 op) s) s .v128 m dest r (memLength leg op)) ∧
    (vl = .v256 → Completes (exec (.vfmsubadd132phYmmMem leg m dest src2 op) s) s .v256 m dest r (memLength leg op)) ∧
    (vl = .v512 → Completes (exec (.vfmsubadd132phZmmMem leg m dest src2 op) s) s .v512 m dest r (memLength leg op))

/-- VFMSUBADD213PH, memory forms (R163, R177). -/
def Obligations.Vfmsubadd213MemoryResults : Prop :=
  ∀ (leg : Legacy) (m : Writemask) (dest src2 : VReg) (op : MemOp) (s : State) (vl : VecLen) (first : Nat)
    (r : Nat → LaneResult),
    first = (s.linearAddress leg (memLength leg op) vl op).toNat →
    r = lane213 s s.rc (s.readZmm dest) (s.readZmm src2)
      (fun j => s.operandElement first (if op.bcast then 0 else j)) →
    Ready s vl (memLength leg op) → OperandReadable s first (operandSize vl op.bcast) →
    NoUnmasked s (lanes vl) (s.active m) r →
    (vl = .v128 → Completes (exec (.vfmsubadd213phXmmMem leg m dest src2 op) s) s .v128 m dest r (memLength leg op)) ∧
    (vl = .v256 → Completes (exec (.vfmsubadd213phYmmMem leg m dest src2 op) s) s .v256 m dest r (memLength leg op)) ∧
    (vl = .v512 → Completes (exec (.vfmsubadd213phZmmMem leg m dest src2 op) s) s .v512 m dest r (memLength leg op))

/-- VFMSUBADD231PH, memory forms (R163, R181). -/
def Obligations.Vfmsubadd231MemoryResults : Prop :=
  ∀ (leg : Legacy) (m : Writemask) (dest src2 : VReg) (op : MemOp) (s : State) (vl : VecLen) (first : Nat)
    (r : Nat → LaneResult),
    first = (s.linearAddress leg (memLength leg op) vl op).toNat →
    r = lane231 s s.rc (s.readZmm dest) (s.readZmm src2)
      (fun j => s.operandElement first (if op.bcast then 0 else j)) →
    Ready s vl (memLength leg op) → OperandReadable s first (operandSize vl op.bcast) →
    NoUnmasked s (lanes vl) (s.active m) r →
    (vl = .v128 → Completes (exec (.vfmsubadd231phXmmMem leg m dest src2 op) s) s .v128 m dest r (memLength leg op)) ∧
    (vl = .v256 → Completes (exec (.vfmsubadd231phYmmMem leg m dest src2 op) s) s .v256 m dest r (memLength leg op)) ∧
    (vl = .v512 → Completes (exec (.vfmsubadd231phZmmMem leg m dest src2 op) s) s .v512 m dest r (memLength leg op))

/-! ### Frames -/

/-- What a completed instruction, of all 21 rows, leaves unchanged: every other vector register, every opmask, general,
system and debug register, RFLAGS, segment bases, CPL, every byte of memory, and MXCSR but for flags that become
set (41_vfmsubadd_ph.md R172). -/
def Obligations.NextFrame : Prop :=
  ∀ (i : Instr) (s t : State), exec i s = .next t →
    (∀ r : VReg, r ≠ i.parts.dest → t.readZmm r = s.readZmm r) ∧
    (∀ r : KReg, t.readK r = s.readK r) ∧ (∀ r : GReg, t.readGpr r = s.readGpr r) ∧
    t.rip = s.rip + BitVec.ofNat 64 i.length ∧ t.rflags = s.rflags ∧
    (∀ b, b = 2 ∨ 6 ≤ b → t.mxcsr.getLsbD b = s.mxcsr.getLsbD b) ∧
    (∀ b, s.mxcsr.getLsbD b = true → t.mxcsr.getLsbD b = true) ∧
    t.cr0 = s.cr0 ∧ t.cr2 = s.cr2 ∧ t.cr3 = s.cr3 ∧ t.cr4 = s.cr4 ∧ t.xcr0 = s.xcr0 ∧ t.efer = s.efer ∧
    t.csL = s.csL ∧ t.csBase = s.csBase ∧ t.fsBase = s.fsBase ∧ t.gsBase = s.gsBase ∧ t.cpl = s.cpl ∧
    t.drAddr = s.drAddr ∧ t.dr6 = s.dr6 ∧ t.dr7 = s.dr7 ∧ t.xlate = s.xlate ∧ t.cfg = s.cfg ∧
    ∀ a : Nat, t.physicalByte a = s.physicalByte a

/-- What a faulting step leaves unchanged (60_exceptions.md R211): everything but CR2 on a page fault, MXCSR flags on #XM
and #UD, and the model's draw counter. RIP still addresses the instruction, and no byte of memory changed. The vector
and the error code of each exception are those of R200 and R220. -/
def Obligations.FaultFrame : Prop :=
  ∀ (s : State) (f : Fault), step s = .fault f →
    (∀ r : VReg, f.left.readZmm r = s.readZmm r) ∧ (∀ r : KReg, f.left.readK r = s.readK r) ∧
    (∀ r : GReg, f.left.readGpr r = s.readGpr r) ∧ f.left.rip = s.rip ∧ f.left.rflags = s.rflags ∧
    f.left.cr0 = s.cr0 ∧ f.left.cr3 = s.cr3 ∧ f.left.cr4 = s.cr4 ∧ f.left.xcr0 = s.xcr0 ∧ f.left.efer = s.efer ∧
    f.left.csL = s.csL ∧ f.left.csBase = s.csBase ∧ f.left.fsBase = s.fsBase ∧ f.left.gsBase = s.gsBase ∧
    f.left.cpl = s.cpl ∧ f.left.drAddr = s.drAddr ∧ f.left.dr6 = s.dr6 ∧ f.left.dr7 = s.dr7 ∧
    f.left.xlate = s.xlate ∧ f.left.cfg = s.cfg ∧ (∀ a : Nat, f.left.physicalByte a = s.physicalByte a) ∧
    (∀ b, b = 2 ∨ 6 ≤ b → f.left.mxcsr.getLsbD b = s.mxcsr.getLsbD b) ∧
    (∀ b, s.mxcsr.getLsbD b = true → f.left.mxcsr.getLsbD b = true) ∧
    ((∀ code a, f.exn ≠ .pf code a) → f.left.cr2 = s.cr2) ∧
    (f.exn ≠ .xm → f.exn ≠ .ud → f.left.mxcsr = s.mxcsr) ∧
    (f.exn = .xm → s.cr4.getLsbD 10 = true) ∧
    (f.exn = .ud → f.left.mxcsr ≠ s.mxcsr → s.cr4.getLsbD 10 = false) ∧
    (f.exn.vector, f.exn.errorCode) =
      match f with
      | .ud _ => (6, none)
      | .nm _ => (7, none)
      | .ss _ => (12, some 0)
      | .gp _ => (13, some 0)
      | .pf code _ _ => (14, some code)
      | .xm _ => (19, none)

/-- CR2 (10_state.md R41): a page fault writes the faulting linear address into it; nothing else writes it, and no
system register is written otherwise. -/
def Obligations.SystemRegisterWrites : Prop :=
  (∀ (s : State) (code : BitVec 32) (a : Word64) (t : State), step s = .fault (.pf code a t) → t.cr2 = a) ∧
  (∀ (s : State) (f : Fault), step s = .fault f → (∀ code a, f.exn ≠ .pf code a) → f.left.cr2 = s.cr2) ∧
  (∀ (s : State) (f : Fault), step s = .fault f →
    f.left.cr0 = s.cr0 ∧ f.left.cr3 = s.cr3 ∧ f.left.cr4 = s.cr4 ∧ f.left.xcr0 = s.xcr0 ∧ f.left.efer = s.efer ∧
    f.left.drAddr = s.drAddr ∧ f.left.dr6 = s.dr6 ∧ f.left.dr7 = s.dr7) ∧
  (∀ s t : State, step s = .next t →
    t.cr2 = s.cr2 ∧ t.cr0 = s.cr0 ∧ t.cr3 = s.cr3 ∧ t.cr4 = s.cr4 ∧ t.xcr0 = s.xcr0 ∧ t.efer = s.efer ∧
    t.drAddr = s.drAddr ∧ t.dr6 = s.dr6 ∧ t.dr7 = s.dr7)

/-- MXCSR flags written (41_vfmsubadd_ph.md R167): without embedded rounding a flag is set exactly if it was or an active
lane reports it, ZE and all other bits are as before; with embedded rounding MXCSR is not written. -/
def Obligations.FlagsWritten : Prop :=
  ∀ (i : Instr) (s t : State), exec i s = .next t →
    (i.parts.form.embedded = none → FlagsOred s i.parts.form.vecLen i.parts.mask t.mxcsr (laneResults i s)) ∧
    (i.parts.form.embedded ≠ none → t.mxcsr = s.mxcsr)

/-- The destination above the vector length is zeroed by every completed instruction, also where no lane is active, and
then under merging the lanes keep their value (41_vfmsubadd_ph.md R168). -/
def Obligations.UpperBitsZeroed : Prop :=
  ∀ (i : Instr) (s t : State), exec i s = .next t →
    (∀ b, 16 * lanes i.parts.form.vecLen ≤ b → (t.readZmm i.parts.dest).getLsbD b = false) ∧
    ((∀ j < lanes i.parts.form.vecLen, s.active i.parts.mask j = false) → (∃ k, i.parts.mask = .merging k) →
      ∀ b < 16 * lanes i.parts.form.vecLen, (t.readZmm i.parts.dest).getLsbD b = (s.readZmm i.parts.dest).getLsbD b)

/-- Every completed instruction wrote what its lanes compute, whichever of its bytes could be read: active lanes their
result, inactive lanes zero under zeroing and their old value under merging (41_vfmsubadd_ph.md R165, R166). -/
def Obligations.CompletedLanes : Prop :=
  ∀ (i : Instr) (s t : State), exec i s = .next t →
    LanesWritten s i.parts.form.vecLen i.parts.mask (s.readZmm i.parts.dest) (t.readZmm i.parts.dest) (laneResults i s)

/-! ### What has no influence -/

/-- Of the opmask registers only the selected one's bits below `KL` are read, and none is written (10_state.md R23): with
other opmasks that agree on those bits the instruction ends in the same way, the other opmasks in the state it leaves. -/
def Obligations.OnlyMaskBitsAreRead : Prop :=
  ∀ (i : Instr) (s : State) (k : Vector Word64 8),
    (∀ r : KReg, i.parts.mask = .merging r ∨ i.parts.mask = .zeroing r →
      ∀ j < lanes i.parts.form.vecLen, (k[r]).getLsbD j = (s.readK r).getLsbD j) →
    exec i { s with k := k } = mapOutcome (fun t => { t with k := k }) (fun t => { t with k := k }) (exec i s)

/-- Of the vector registers only bits below the vector length of the operands are read (10_state.md R21, R38): with other
registers that agree on those bits the instruction ends in the same way; where it completes it writes the same
destination, where it faults it writes none. -/
def Obligations.OnlyOperandBitsAreRead : Prop :=
  ∀ (i : Instr) (s : State) (z : Vector Vec 32),
    (∀ r : VReg, r = i.parts.dest ∨ r = i.parts.src2 ∨
        (∃ vl, i.parts.form = .reg vl r) ∨ (∃ rc, i.parts.form = .er r rc) →
      ∀ b < 16 * lanes i.parts.form.vecLen, (z[r]).getLsbD b = (s.readZmm r).getLsbD b) →
    exec i { s with zmm := z } =
      mapOutcome (fun t => { t with zmm := z.set i.parts.dest (t.readZmm i.parts.dest) }) (fun t => { t with zmm := z })
        (exec i s)

/-- With MXCSR.DAZ = 0 and MXCSR.FTZ = 0 the two settings of `FP16_DAZ_FTZ` give the same outcome (10_state.md R27). -/
def Obligations.DazFtzSettingIrrelevantWhenClear : Prop :=
  ∀ (i : Instr) (s : State) (d : DazFtz), s.mxcsr.getLsbD 6 = false → s.mxcsr.getLsbD 15 = false →
    exec i { s with cfg := { s.cfg with dazFtz := d } } =
      mapOutcome (fun t => { t with cfg := { t.cfg with dazFtz := d } })
        (fun t => { t with cfg := { t.cfg with dazFtz := d } }) (exec i s)

/-- CPL reaches an instruction only as an argument of `Translate` (10_state.md R34): at another level whose read answers
are the same, and with alignment checking on or off as before, it ends in the same way. -/
def Obligations.PrivilegeReachesOnlyTranslate : Prop :=
  ∀ (i : Instr) (s : State) (c : Fin 4),
    (∀ vl op, i.parts.form = .mem vl op →
      ∀ a, Machine.translate s.xlate a .read c = Machine.translate s.xlate a .read s.cpl) →
    State.alignmentChecking { s with cpl := c } = s.alignmentChecking →
    exec i { s with cpl := c } = mapOutcome (fun t => { t with cpl := c }) (fun t => { t with cpl := c }) (exec i s)

/-! ### Addresses and memory -/

/-- The effective address (20_memory.md R54), as numbers: the terms summed modulo 2^64; under 67h each modulo 2^32 and
summed modulo 2^32. `disp` is the displacement already scaled and sign-extended. No general register changes. -/
def Obligations.EffectiveAddresses : Prop :=
  (∀ (s : State) (leg : Legacy) (ilen n : Nat) (b : GReg) (d : Disp),
    (s.effectiveAddress leg ilen n (.base b d)).toNat =
      if leg.addr32 then
        ((s.readGpr b).toNat % 2 ^ 32 + (dispValue n d).toNat % 2 ^ 32) % 2 ^ 32
      else ((s.readGpr b).toNat + (dispValue n d).toNat) % 2 ^ 64) ∧
  (∀ (s : State) (leg : Legacy) (ilen n : Nat) (b : GReg) (x : GReg) (sc : Scale) (d : Disp),
    (s.effectiveAddress leg ilen n (.sib b (some ⟨x, sc⟩) d)).toNat =
      if leg.addr32 then
        ((s.readGpr b).toNat % 2 ^ 32 + (s.readGpr x).toNat % 2 ^ 32 * 2 ^ sc.bits.toNat % 2 ^ 32
          + (dispValue n d).toNat % 2 ^ 32) % 2 ^ 32
      else ((s.readGpr b).toNat + (s.readGpr x).toNat * 2 ^ sc.bits.toNat + (dispValue n d).toNat) % 2 ^ 64) ∧
  (∀ (s : State) (leg : Legacy) (ilen n : Nat) (b : GReg) (d : Disp),
    s.effectiveAddress leg ilen n (.sib b none d) = s.effectiveAddress leg ilen n (.base b d)) ∧
  (∀ (s : State) (leg : Legacy) (ilen n : Nat) (x : GReg) (sc : Scale) (d : BitVec 32),
    (s.effectiveAddress leg ilen n (.sibNoBase (some ⟨x, sc⟩) d)).toNat =
      if leg.addr32 then ((s.readGpr x).toNat % 2 ^ 32 * 2 ^ sc.bits.toNat % 2 ^ 32 + d.toNat) % 2 ^ 32
      else ((s.readGpr x).toNat * 2 ^ sc.bits.toNat + (d.signExtend 64).toNat) % 2 ^ 64) ∧
  (∀ (s : State) (leg : Legacy) (ilen n : Nat) (d : BitVec 32),
    (s.effectiveAddress leg ilen n (.sibNoBase none d)).toNat =
      if leg.addr32 then d.toNat else (d.signExtend 64).toNat) ∧
  (∀ (s : State) (leg : Legacy) (ilen n : Nat) (d : BitVec 32),
    (s.effectiveAddress leg ilen n (.ripRel d)).toNat =
      if leg.addr32 then ((s.rip.toNat + ilen) % 2 ^ 32 + d.toNat) % 2 ^ 32
      else (s.rip.toNat + ilen + (d.signExtend 64).toNat) % 2 ^ 64) ∧
  (∀ (i : Instr) (s t : State), exec i s = .next t → t.gpr = s.gpr) ∧
  ∀ (i : Instr) (s : State) (f : Fault), exec i s = .fault f → f.left.gpr = s.gpr

/-- Displacements and linear addresses (30_encoding.md R98, R104, 20_memory.md R56): one byte is sign-extended and
multiplied by `VL/8`, or by 2 where one element is broadcast; four bytes are sign-extended and not scaled; no
displacement byte (R96, `mod = 00b`) contributes 0; the FS or GS base is added modulo 2^64 where its override is present, and nothing otherwise. -/
def Obligations.DisplacementsAndSegments : Prop :=
  (∀ (vl : VecLen) (bcast : Bool) (v : BitVec 8),
    (dispValue (disp8Scale vl bcast) (.d8 v)).toInt = v.toInt * (if bcast then 2 else 2 * (lanes vl : Int))) ∧
  (∀ (n : Nat) (v : BitVec 32), (dispValue n (.d32 v)).toInt = v.toInt) ∧
  (∀ n : Nat, dispValue n .none = 0) ∧
  ∀ (s : State) (a : Bool) (ilen : Nat) (vl : VecLen) (op : MemOp),
    s.linearAddress ⟨some .fs, a⟩ ilen vl op =
      s.fsBase + s.effectiveAddress ⟨some .fs, a⟩ ilen (disp8Scale vl op.bcast) op.addr ∧
    s.linearAddress ⟨some .gs, a⟩ ilen vl op =
      s.gsBase + s.effectiveAddress ⟨some .gs, a⟩ ilen (disp8Scale vl op.bcast) op.addr ∧
    s.linearAddress ⟨none, a⟩ ilen vl op = s.effectiveAddress ⟨none, a⟩ ilen (disp8Scale vl op.bcast) op.addr

/-- Little-endian elements (20_memory.md R51, R52): element `j` of an operand in ordinary memory is the byte stored at
the location of `first + 2j` plus 256 times the one stored at the location of `first + 2j + 1`. -/
def Obligations.OperandElementsAreLittleEndian : Prop :=
  ∀ (s : State) (first j p q : Nat) (lo hi : Byte),
    s.translate (first + 2 * j) .read = .mapped p .ordinary →
    s.translate (first + (2 * j + 1)) .read = .mapped q .ordinary →
    Memory.byte? s.mem p = some lo → Memory.byte? s.mem q = some hi →
    (s.operandElement first j).toNat = lo.toNat + 256 * hi.toNat

/-- Memory (10_state.md R36): a stored byte is read back, every other location is left alone, and the canonical form is
kept. -/
def Obligations.MemoryReadAfterWrite : Prop :=
  ∀ (m : Memory) (x y : Nat) (v : Byte),
    Memory.byte? (Memory.write m x v) y = (if y = x then some v else Memory.byte? m y) ∧
    (Memory.wf m = true → Memory.wf (Memory.write m x v) = true)

/-! ### FP16 -/

/-- The product is not rounded before the addition (40_fp16_numerics.md R140): the witness of the rule, in every rounding
mode, and what rounding first would give. -/
def Obligations.FusedWitness : Prop :=
  (∀ (rule : NanRule) (rm : RoundMode) (um : Bool),
    (fma16 rule 0x3C01 0x3C01 0xBC02 .add rm ⟨false, false, um⟩).value = 0x0010 ∧
    (fma16 rule 0x3C01 0x3C01 0xBC02 .add rm ⟨false, false, um⟩).flags = ⟨false, false, false, false, false⟩) ∧
  (∀ (rule : NanRule) (um : Bool),
    (fma16 rule 0x3C01 0x3C01 0x0000 .add .rne ⟨false, false, um⟩).value = 0x3C02 ∧
    (fma16 rule 0x3C01 0x3C01 0x0000 .add .rne ⟨false, false, um⟩).flags.pe = true ∧
    (fma16 rule 0x3C02 0x3C00 0xBC02 .add .rne ⟨false, false, um⟩).value = 0x0000)

/-- NaN operands (40_fp16_numerics.md R133): the first NaN of multiplicand, multiplier, addend, with its quiet bit
forced, is the result, whatever the operation, also where the other two are an infinity and a zero; Invalid only if
one of them is signalling, no other flag, and nothing tiny (R130 step 1, R138). The values are stated for the rule of
R133, which is a parameter of the machine; the flags for every rule. -/
def Obligations.NanOperandsPropagate : Prop :=
  ∀ (x y z : Half) (op : LaneOp) (rm : RoundMode) (ctl : FpCtl),
    (isNan x = true → (fma16 .firstOperand x y z op rm ctl).value = x ||| 0x0200) ∧
    (isNan x = false → isNan y = true → (fma16 .firstOperand x y z op rm ctl).value = y ||| 0x0200) ∧
    (isNan x = false → isNan y = false → isNan z = true →
      (fma16 .firstOperand x y z op rm ctl).value = z ||| 0x0200) ∧
    ∀ rule : NanRule, (isNan x = true ∨ isNan y = true ∨ isNan z = true) →
      ((fma16 rule x y z op rm ctl).flags.ie = true ↔ isSnan x = true ∨ isSnan y = true ∨ isSnan z = true) ∧
      (fma16 rule x y z op rm ctl).flags.de = false ∧ (fma16 rule x y z op rm ctl).flags.oe = false ∧
      (fma16 rule x y z op rm ctl).flags.ue = false ∧ (fma16 rule x y z op rm ctl).flags.pe = false ∧
      (fma16 rule x y z op rm ctl).tiny = false

/-- Invalid (40_fp16_numerics.md R134), for operands used at their value: exactly a signalling NaN, infinity times zero
without a NaN, or an infinite product with an infinite addend of the other effective sign; the result is then the
default NaN in the last two cases. Wherever Invalid is raised no other flag is, and nothing is tiny (R130 steps 1 to 3,
R136, R138). -/
def Obligations.InvalidOperations : Prop :=
  ∀ (rule : NanRule) (x y z : Half) (op : LaneOp) (rm : RoundMode) (ctl : FpCtl), ctl.daz = false →
    let nan := isNan x = true ∨ isNan y = true ∨ isNan z = true
    let zeroTimesInf := (isInf x = true ∧ isZero y = true) ∨ (isZero x = true ∧ isInf y = true)
    let infMinusInf := (isInf x = true ∨ isInf y = true) ∧ isInf z = true ∧
      ((fpSign z != (op == .sub)) ≠ (fpSign x != fpSign y))
    ((fma16 rule x y z op rm ctl).flags.ie = true ↔
      (isSnan x = true ∨ isSnan y = true ∨ isSnan z = true) ∨ (¬nan ∧ zeroTimesInf) ∨
      (¬nan ∧ ¬zeroTimesInf ∧ infMinusInf)) ∧
    (¬nan → zeroTimesInf ∨ infMinusInf → (fma16 rule x y z op rm ctl).value = 0xFE00) ∧
    ((fma16 rule x y z op rm ctl).flags.ie = true →
      (fma16 rule x y z op rm ctl).flags = ⟨true, false, false, false, false⟩ ∧
      (fma16 rule x y z op rm ctl).tiny = false)

/-- Infinities (40_fp16_numerics.md R135), for operands used at their value: an infinite product with a finite addend or an
infinite one of its sign is an infinity of the product's sign; a finite product with an infinite addend is one of the
addend's effective sign; both with no flag but Denormal, and not tiny (R130 step 4, R138). -/
def Obligations.InfiniteResults : Prop :=
  ∀ (rule : NanRule) (x y z : Half) (op : LaneOp) (rm : RoundMode) (ctl : FpCtl), ctl.daz = false →
    isNan x = false → isNan y = false → isNan z = false →
    ((isInf x = true ∨ isInf y = true) → isZero x = false → isZero y = false →
      (isInf z = false ∨ (fpSign z != (op == .sub)) = (fpSign x != fpSign y)) →
      (fma16 rule x y z op rm ctl).value = (if fpSign x != fpSign y then 0xFC00 else 0x7C00) ∧
      (fma16 rule x y z op rm ctl).flags.ie = false ∧ (fma16 rule x y z op rm ctl).flags.oe = false ∧
      (fma16 rule x y z op rm ctl).flags.ue = false ∧ (fma16 rule x y z op rm ctl).flags.pe = false ∧
      (fma16 rule x y z op rm ctl).tiny = false) ∧
    (isInf x = false → isInf y = false → isInf z = true →
      (fma16 rule x y z op rm ctl).value = (if fpSign z != (op == .sub) then 0xFC00 else 0x7C00) ∧
      (fma16 rule x y z op rm ctl).flags.ie = false ∧ (fma16 rule x y z op rm ctl).flags.oe = false ∧
      (fma16 rule x y z op rm ctl).flags.ue = false ∧ (fma16 rule x y z op rm ctl).flags.pe = false ∧
      (fma16 rule x y z op rm ctl).tiny = false)

/-- The Denormal flag (40_fp16_numerics.md R136): raised exactly where an operand is a denormal used at its value, no
operand is a NaN, and Invalid is not raised. -/
def Obligations.DenormalOperands : Prop :=
  ∀ (rule : NanRule) (x y z : Half) (op : LaneOp) (rm : RoundMode) (ctl : FpCtl),
    (fma16 rule x y z op rm ctl).flags.de = true ↔
      ctl.daz = false ∧ (isDenormal x = true ∨ isDenormal y = true ∨ isDenormal z = true) ∧
      isNan x = false ∧ isNan y = false ∧ isNan z = false ∧ (fma16 rule x y z op rm ctl).flags.ie = false

/-- The sign of an exact zero (40_fp16_numerics.md R129): the product's sign where the addend's effective sign is the same;
otherwise plus, but minus when rounding down; no flag but Denormal. -/
def Obligations.ExactZeroResults : Prop :=
  ∀ (rule : NanRule) (x y z : Half) (op : LaneOp) (rm : RoundMode) (ctl : FpCtl), ctl.daz = false →
    IsFinite x → IsFinite y → IsFinite z → exactValue x y z op = 0 →
    (fma16 rule x y z op rm ctl).value =
      (if (fpSign x != fpSign y) = (fpSign z != (op == .sub)) then
        (if fpSign x != fpSign y then 0x8000 else 0x0000)
      else if rm = .rd then 0x8000 else 0x0000) ∧
    (fma16 rule x y z op rm ctl).flags.ie = false ∧ (fma16 rule x y z op rm ctl).flags.oe = false ∧
    (fma16 rule x y z op rm ctl).flags.ue = false ∧ (fma16 rule x y z op rm ctl).flags.pe = false

/-- Subtracting is adding the negated addend, zeros and infinities included, but a NaN addend is not negated
(40_fp16_numerics.md R131). Where another operand is a NaN, the first clause is for the NaN rule of R133. -/
def Obligations.SubtractionNegatesTheAddend : Prop :=
  ∀ (rule : NanRule) (x y z : Half) (rm : RoundMode) (ctl : FpCtl),
    (isNan z = false → (isNan x = false ∧ isNan y = false) ∨ rule = .firstOperand →
      fma16 rule x y z .sub rm ctl = fma16 rule x y (z ^^^ 0x8000) .add rm ctl) ∧
    (isNan z = true → fma16 rule x y z .sub rm ctl = fma16 rule x y z .add rm ctl)

/-- Multiplicand and multiplier commute where no operand is a NaN (41_vfmsubadd_ph.md R162). -/
def Obligations.MultiplicationCommutes : Prop :=
  ∀ (rule : NanRule) (x y z : Half) (op : LaneOp) (rm : RoundMode) (ctl : FpCtl),
    isNan x = false → isNan y = false → isNan z = false →
    fma16 rule x y z op rm ctl = fma16 rule y x z op rm ctl

/-- DAZ and FTZ (40_fp16_numerics.md R132, R137): DAZ acts as replacing each denormal operand by a zero of its sign; FTZ,
where UM = 1, replaces a tiny result by a zero of the exact value's sign with UE and PE, and does nothing otherwise;
they are on only where the hardware honours them and MXCSR has the bit. And MXCSR.RC, bits 14 and 13: 00b to nearest
even, 01b down, 10b up, 11b toward zero (10_state.md R24, R25, 41_vfmsubadd_ph.md R164). -/
def Obligations.DazAndFtz : Prop :=
  (∀ (rule : NanRule) (x y z : Half) (op : LaneOp) (rm : RoundMode) (ftz um : Bool),
    let zero := fun h : Half => if isDenormal h then (if fpSign h then (0x8000 : Half) else 0x0000) else h
    fma16 rule x y z op rm ⟨true, ftz, um⟩ = fma16 rule (zero x) (zero y) (zero z) op rm ⟨false, ftz, um⟩) ∧
  (∀ (rule : NanRule) (x y z : Half) (op : LaneOp) (rm : RoundMode) (daz ftz um : Bool),
    let plain := fma16 rule x y z op rm ⟨daz, false, um⟩
    (plain.tiny = true → ftz = true → um = true →
      fma16 rule x y z op rm ⟨daz, ftz, um⟩ =
        ⟨if fpSign plain.value then 0x8000 else 0x0000, { plain.flags with ue := true, pe := true }, true⟩) ∧
    (plain.tiny = false ∨ ftz = false ∨ um = false → fma16 rule x y z op rm ⟨daz, ftz, um⟩ = plain)) ∧
  (∀ s : State,
    (s.fpCtl.daz = true ↔ s.cfg.dazFtz = .honoured ∧ s.mxcsr.getLsbD 6 = true) ∧
    (s.fpCtl.ftz = true ↔ s.cfg.dazFtz = .honoured ∧ s.mxcsr.getLsbD 15 = true) ∧
    s.fpCtl.um = s.mxcsr.getLsbD 11 ∧
    (s.rc = .rne ↔ s.mxcsr.getLsbD 14 = false ∧ s.mxcsr.getLsbD 13 = false) ∧
    (s.rc = .rd ↔ s.mxcsr.getLsbD 14 = false ∧ s.mxcsr.getLsbD 13 = true) ∧
    (s.rc = .ru ↔ s.mxcsr.getLsbD 14 = true ∧ s.mxcsr.getLsbD 13 = false) ∧
    (s.rc = .rz ↔ s.mxcsr.getLsbD 14 = true ∧ s.mxcsr.getLsbD 13 = true))

/-- Overflow (40_fp16_numerics.md R127): OE exactly where the rounded magnitude with unbounded exponent is at least 2^16,
then PE too, not tiny, and the result of the table. -/
def Obligations.OverflowResults : Prop :=
  ∀ (rule : NanRule) (x y z : Half) (op : LaneOp) (rm : RoundMode) (ctl : FpCtl), ctl.daz = false →
    IsFinite x → IsFinite y → IsFinite z →
    ((fma16 rule x y z op rm ctl).flags.oe = true ↔ Overflows (exactValue x y z op) rm) ∧
    (Overflows (exactValue x y z op) rm →
      (fma16 rule x y z op rm ctl).flags.pe = true ∧ (fma16 rule x y z op rm ctl).flags.ue = false ∧
      (fma16 rule x y z op rm ctl).flags.ie = false ∧ (fma16 rule x y z op rm ctl).tiny = false ∧
      (fma16 rule x y z op rm ctl).value =
        match rm, decide (exactValue x y z op < 0) with
        | .rne, false => 0x7C00
        | .rne, true => 0xFC00
        | .rd, false => 0x7BFF
        | .rd, true => 0xFC00
        | .ru, false => 0x7C00
        | .ru, true => 0xFBFF
        | .rz, false => 0x7BFF
        | .rz, true => 0xFBFF)

/-- Tininess and underflow (40_fp16_numerics.md R128): tiny exactly where the value is not 0 and its magnitude rounded to
11 bits with unbounded exponent is below 2^-14; then UE and PE exactly where the result is not the exact value; with
the two examples of the rule. -/
def Obligations.TinyResults : Prop :=
  (∀ (rule : NanRule) (x y z : Half) (op : LaneOp) (rm : RoundMode) (um : Bool),
    IsFinite x → IsFinite y → IsFinite z →
    let R := fma16 rule x y z op rm ⟨false, false, um⟩
    (R.tiny = true ↔ exactValue x y z op ≠ 0 ∧ IsTiny (exactValue x y z op) rm) ∧
    (R.tiny = true → IsFinite R.value ∧
      (R.flags.ue = true ↔ fpValue R.value * 2 ^ 24 ≠ exactValue x y z op) ∧
      (R.flags.pe = true ↔ fpValue R.value * 2 ^ 24 ≠ exactValue x y z op) ∧
      (fpValue R.value * 2 ^ 24 - exactValue x y z op).natAbs < 2 ^ 24) ∧
    (R.tiny = false → R.flags.ue = false)) ∧
  (∀ (rule : NanRule) (um : Bool),
    fma16 rule 0x3BFF 0x0400 0x0000 .add .rne ⟨false, false, um⟩ = ⟨0x0400, ⟨false, false, false, true, true⟩, true⟩ ∧
    fma16 rule 0x0401 0x3BFE 0x0000 .add .rne ⟨false, false, um⟩ = ⟨0x0400, ⟨false, false, false, false, true⟩, false⟩)

/-- Directed rounding (40_fp16_numerics.md R126): rounding down gives the greatest pattern not above the exact value,
rounding up the least not below it, rounding toward zero whichever of the two is nearer zero; the sign is that of
the exact value. Where there is no finite pattern on that side, the result is an infinity. -/
def Obligations.DirectedRounding : Prop :=
  ∀ (rule : NanRule) (x y z : Half) (op : LaneOp) (um : Bool), IsFinite x → IsFinite y → IsFinite z →
    let v := exactValue x y z op
    let down := (fma16 rule x y z op .rd ⟨false, false, um⟩).value
    let up := (fma16 rule x y z op .ru ⟨false, false, um⟩).value
    let zero := (fma16 rule x y z op .rz ⟨false, false, um⟩).value
    v ≠ 0 →
    (fpSign down = decide (v < 0) ∧ (IsFinite down ∨ down = 0xFC00) ∧ (IsFinite down → fpValue down * 2 ^ 24 ≤ v) ∧
      ∀ h : Half, IsFinite h → fpValue h * 2 ^ 24 ≤ v → IsFinite down ∧ fpValue h ≤ fpValue down) ∧
    (fpSign up = decide (v < 0) ∧ (IsFinite up ∨ up = 0x7C00) ∧ (IsFinite up → v ≤ fpValue up * 2 ^ 24) ∧
      ∀ h : Half, IsFinite h → v ≤ fpValue h * 2 ^ 24 → IsFinite up ∧ fpValue up ≤ fpValue h) ∧
    (zero = if v < 0 then up else down)

/-- Rounding to nearest even (40_fp16_numerics.md R126): from 65520 on the result is an infinity; otherwise it is finite,
no finite pattern is nearer to the exact value, and where another is as near the result's last bit is 0; the sign is
that of the exact value. -/
def Obligations.NearestRounding : Prop :=
  ∀ (rule : NanRule) (x y z : Half) (op : LaneOp) (um : Bool), IsFinite x → IsFinite y → IsFinite z →
    let v := exactValue x y z op
    let r := (fma16 rule x y z op .rne ⟨false, false, um⟩).value
    v ≠ 0 →
    fpSign r = decide (v < 0) ∧
    (65520 * 2 ^ 48 ≤ v.natAbs → r = if v < 0 then 0xFC00 else 0x7C00) ∧
    (v.natAbs < 65520 * 2 ^ 48 →
      IsFinite r ∧ ∀ h : Half, IsFinite h →
        (fpValue r * 2 ^ 24 - v).natAbs ≤ (fpValue h * 2 ^ 24 - v).natAbs ∧
        (fpValue h ≠ fpValue r → (fpValue r * 2 ^ 24 - v).natAbs = (fpValue h * 2 ^ 24 - v).natAbs →
          r.getLsbD 0 = false))

/-- Precision (40_fp16_numerics.md R126): PE exactly where the result is not the exact value. -/
def Obligations.PrecisionFlag : Prop :=
  ∀ (rule : NanRule) (x y z : Half) (op : LaneOp) (rm : RoundMode) (um : Bool),
    IsFinite x → IsFinite y → IsFinite z →
    let R := fma16 rule x y z op rm ⟨false, false, um⟩
    R.flags.pe = true ↔ ¬(IsFinite R.value ∧ fpValue R.value * 2 ^ 24 = exactValue x y z op)

end Statements
end

