-- ==== Sys2Proof/Laws/Decode.lean ====
section
/-! SUPPORT. The fields of an encoding, one round trip each, and what decoding an addressing form can give. -/

namespace Sys2Proof

/-! ### Register numbers and small fields -/

@[simp] theorem vregOf_bits (r : VReg) : vregOf (r.bit 4) (r.bit 3) r.field3 = r := by revert r; decide
@[simp] theorem vregOfV_bits (r : VReg) : vregOfV (r.bit 4) r.field4 = r := by revert r; decide
@[simp] theorem gregOf_bits (r : GReg) : gregOf r.bit3 r.field3 = r := by revert r; decide
@[simp] theorem kregOf_field (k : KReg) : kregOf k.field = k := by revert k; decide
@[simp] theorem field_kregOf (b : BitVec 3) : KReg.field (kregOf b) = b := by revert b; decide
@[simp] theorem roundModeOf_bits (r : RoundMode) : roundModeOf r.bits = r := by cases r <;> decide
@[simp] theorem bits_roundModeOf (b : BitVec 2) : (roundModeOf b).bits = b := by revert b; decide
@[simp] theorem vecLenOf_bits (v : VecLen) : vecLenOf v.bits = some v := by cases v <;> decide
@[simp] theorem scaleOf_bits (s : Scale) : scaleOf s.bits = s := by cases s <;> decide
@[simp] theorem fmaOf_opcode (f : Fma) : fmaOf f.opcode = some f := by cases f <;> decide

/-- The low bits of a register number decide the special encodings of R96 and R97. -/
theorem field3_eq (r : GReg) (n : Nat) (h : n < 8) : r.field3 = BitVec.ofNat 3 n ↔ r.low3 = n := by
  have : ∀ (r : GReg) (n : Fin 8), r.field3 = BitVec.ofNat 3 n ↔ r.low3 = n := by decide
  exact this r ⟨n, h⟩

/-- The register a field with this value names has these low bits. -/
theorem low3_gregOf (b : Bool) (f : BitVec 3) : (gregOf b f).low3 = f.toNat := by
  revert b f; decide

@[simp] theorem kind_reg (vl : VecLen) (r : VReg) : (Form.reg vl r).kind = .reg vl := rfl
@[simp] theorem kind_er (r : VReg) (rc : RoundMode) : (Form.er r rc).kind = .er := rfl
@[simp] theorem kind_mem (vl : VecLen) (op : MemOp) : (Form.mem vl op).kind = .mem vl := rfl

/-! ### The EVEX payload and ModRM -/

/-- Reading the payload back from its three bytes. -/
@[simp] theorem evexOf_bytes (e : Evex) : evexOf e.p0 e.p1 e.p2 = e := by
  have h0 : ∀ (r x b r' res : Bool) (m : BitVec 3) (p : Byte),
      p = BitVec.ofBool (!r) ++ BitVec.ofBool (!x) ++ BitVec.ofBool (!b) ++ BitVec.ofBool (!r') ++ BitVec.ofBool res ++ m →
      (!p.getLsbD 7) = r ∧ (!p.getLsbD 6) = x ∧ (!p.getLsbD 5) = b ∧ (!p.getLsbD 4) = r' ∧ p.getLsbD 3 = res ∧
        p.extractLsb' 0 3 = m := by
    intro r x b r' res m p h
    subst h
    revert r x b r' res m
    decide
  have h1 : ∀ (w f : Bool) (v : BitVec 4) (pp : BitVec 2) (p : Byte),
      p = BitVec.ofBool w ++ (~~~v) ++ BitVec.ofBool f ++ pp →
      p.getLsbD 7 = w ∧ ~~~(p.extractLsb' 3 4) = v ∧ p.getLsbD 2 = f ∧ p.extractLsb' 0 2 = pp := by
    intro w f v pp p h
    subst h
    revert w f v pp
    decide
  have h2 : ∀ (z bc v' : Bool) (ll : BitVec 2) (a : BitVec 3) (p : Byte),
      p = BitVec.ofBool z ++ ll ++ BitVec.ofBool bc ++ BitVec.ofBool (!v') ++ a →
      p.getLsbD 7 = z ∧ p.extractLsb' 5 2 = ll ∧ p.getLsbD 4 = bc ∧ (!p.getLsbD 3) = v' ∧ p.extractLsb' 0 3 = a := by
    intro z bc v' ll a p h
    subst h
    revert z bc v' ll a
    decide
  obtain ⟨r, x, b, r', reserved, mmm, w, vvvv, fixed, pp, z, ll, bc, v', aaa⟩ := e
  obtain ⟨a1, a2, a3, a4, a5, a6⟩ := h0 r x b r' reserved mmm _ rfl
  obtain ⟨b1, b2, b3, b4⟩ := h1 w fixed vvvv pp _ rfl
  obtain ⟨c1, c2, c3, c4, c5⟩ := h2 z bc v' ll aaa _ rfl
  simp only [evexOf, Evex.p0, Evex.p1, Evex.p2, a1, a2, a3, a4, a5, a6, b1, b2, b3, b4, c1, c2, c3, c4, c5]

/-- Reading `mod`, `reg` and `rm` back (also `ss`, `index` and `base` of a SIB byte). -/
theorem modrm_fields (m : BitVec 2) (r b : BitVec 3) :
    (m ++ r ++ b : BitVec 8).extractLsb' 6 2 = m ∧ (m ++ r ++ b : BitVec 8).extractLsb' 3 3 = r ∧
      (m ++ r ++ b : BitVec 8).extractLsb' 0 3 = b := by
  revert m r b; decide

/-! ### Displacements, SIB and masks -/

@[simp] theorem disp32Of_bytes (d : BitVec 32) (rest : List Byte) : disp32Of (disp32Bytes d ++ rest) = some d := by
  simp only [disp32Bytes, List.cons_append, disp32Of, Option.some.injEq]
  apply BitVec.eq_of_getLsbD_eq
  intro i hi
  simp only [BitVec.getLsbD_append, BitVec.getLsbD_extractLsb']
  by_cases h1 : i < 8
  · simp [h1]
  · by_cases h2 : i - 8 < 8
    · simp [h1, h2, show 8 + (i - 8) = i by omega]
    · by_cases h3 : i - 8 - 8 < 8
      · simp [h1, h2, h3, show 16 + (i - 8 - 8) = i by omega]
      · simp [h1, h2, h3, show i - 8 - 8 - 8 < 8 by omega, show 24 + (i - 8 - 8 - 8) = i by omega]

/-- Reading a displacement back. -/
@[simp] theorem dispOf_bytes (d : Disp) (rest : List Byte) : dispOf d.mod (d.bytes ++ rest) = some d := by
  cases d <;> simp [dispOf, Disp.mod, Disp.bytes, disp8Of]

/-- Reading an index back from the SIB byte. -/
theorem indexOf_sib (i : Option Index) (base : BitVec 3) (h : i.all Index.wf = true) :
    indexOf (indexBit i) (sibByte i base) = i := by
  cases i with
  | none => revert base; decide
  | some i =>
    obtain ⟨r, s⟩ := i
    have h' : r ≠ 4 := by simpa [Index.wf] using h
    simp only [indexOf, sibByte, indexBit, (modrm_fields _ _ _).1, (modrm_fields _ _ _).2.1, gregOf_bits, scaleOf_bits,
      if_neg h']

/-- The base field of a SIB byte. -/
theorem sib_base (i : Option Index) (base : BitVec 3) : (sibByte i base).extractLsb' 0 3 = base := by
  cases i with
  | none => exact (modrm_fields _ _ _).2.2
  | some i => exact (modrm_fields _ _ _).2.2

/-- Reading an addressing form back. -/
theorem addrOf_fields (a : MemAddr) (rest : List Byte) (h : a.wf = true) :
    addrOf a.fields.mod a.fields.rm a.fields.x a.fields.b (a.fields.tail ++ rest) = some a := by
  cases a with
  | base b d =>
    simp only [MemAddr.wf, Bool.and_eq_true, bne_iff_ne, ne_eq, Bool.or_eq_true] at h
    have h4 : b.field3 ≠ 4 := fun e => h.1 ((field3_eq b 4 (by decide)).1 e)
    have h5 : ¬(d.mod = 0 ∧ b.field3 = 5) := by
      rintro ⟨e1, e2⟩
      rcases h.2 with h | h
      · exact h ((field3_eq b 5 (by decide)).1 e2)
      · cases d <;> simp [Disp.mod] at e1 h
    simp only [addrOf, MemAddr.fields, if_neg h4, if_neg h5, dispOf_bytes, Option.map_some, gregOf_bits]
  | sib b i d =>
    simp only [MemAddr.wf, Bool.and_eq_true, bne_iff_ne, ne_eq, Bool.or_eq_true] at h
    have h5 : ¬(d.mod = 0 ∧ b.field3 = 5) := by
      rintro ⟨e1, e2⟩
      rcases h.2 with h | h
      · exact h ((field3_eq b 5 (by decide)).1 e2)
      · cases d <;> simp [Disp.mod] at e1 h
    simp only [addrOf, MemAddr.fields, if_true, List.cons_append, sib_base, if_neg h5, indexOf_sib _ _ h.1, dispOf_bytes,
      Option.map_some, gregOf_bits]
  | sibNoBase i d =>
    simp only [MemAddr.wf] at h
    simp [addrOf, MemAddr.fields, sib_base, indexOf_sib _ _ h]
  | ripRel d => simp [addrOf, MemAddr.fields]

/-- Reading a writemask back. -/
theorem maskOf_fields (m : Writemask) (h : m.wf = true) : maskOf m.fields.1 m.fields.2 = some m := by
  cases m with
  | all => rfl
  | merging k =>
    have hk : k ≠ 0 := by simpa [Writemask.wf] using h
    have : k.field ≠ 0 := by revert k; decide
    simp only [maskOf, Writemask.fields, if_neg this, kregOf_field, Bool.false_eq_true, if_false]
  | zeroing k =>
    have hk : k ≠ 0 := by simpa [Writemask.wf] using h
    have : k.field ≠ 0 := by revert k; decide
    simp only [maskOf, Writemask.fields, if_neg this, kregOf_field, if_true]

/-- The well-formedness of a form. -/
def Form.wf : Form → Bool
  | .reg _ _  => true
  | .er _ _   => true
  | .mem _ op => op.addr.wf

/-- Well-formedness by parts. -/
theorem wf_iff (i : Instr) : i.wf = (i.parts.mask.wf && i.parts.form.wf) := by
  cases i <;> simp [Instr.wf, Instr.parts, Form.wf]

@[simp] theorem parts_instr (i : Instr) : i.parts.instr = i := by cases i <;> rfl

@[simp] theorem instr_parts (p : Parts) : p.instr.parts = p := by
  obtain ⟨f, leg, m, d, a, form⟩ := p
  cases f <;> cases form with
  | reg vl r => cases vl <;> rfl
  | er r rc => rfl
  | mem vl op => cases vl <;> rfl

/-- Reading a form back. -/
theorem formOf_fields (p : Parts) (rest : List Byte) (h : p.form.wf = true) :
    formOf p.evex p.form.fields.2.2.mod p.form.fields.2.2.rm (p.form.fields.2.2.tail ++ rest) = some (some p.form) := by
  obtain ⟨f, leg, m, d, a, form⟩ := p
  cases form with
  | reg vl r => simp [formOf, Parts.evex, Form.fields]
  | er r rc => simp [formOf, Parts.evex, Form.fields]
  | mem vl op =>
    have hm : op.addr.fields.mod ≠ 3 := by
      cases op with
      | mk addr b => cases addr with
        | base b d => cases d <;> simp [MemAddr.fields, Disp.mod]
        | sib b i d => cases d <;> simp [MemAddr.fields, Disp.mod]
        | sibNoBase i d => simp [MemAddr.fields]
        | ripRel d => simp [MemAddr.fields]
    simp only [Form.wf] at h
    simp only [formOf, Parts.evex, Form.fields, if_neg hm, vecLenOf_bits, addrOf_fields _ _ h, Option.map_some]

/-! ### Legacy bytes -/

/-- The legacy bytes of an instruction are read back, up to the 62h byte. -/
theorem scanLegacy_bytes (l : Legacy) (rest : List Byte) :
    scanLegacy .start (l.bytes ++ 0x62 :: rest) = (⟨l.seg, l.addr32, false, false⟩, 0x62 :: rest) := by
  obtain ⟨seg, a⟩ := l
  rcases seg with _ | seg
  · cases a <;> rfl
  · cases seg <;> cases a <;> rfl

/-- The legacy bytes are as many as counted. -/
theorem legacy_bytes_length (l : Legacy) : l.bytes.length = l.count := by
  obtain ⟨seg, a⟩ := l
  rcases seg with _ | seg
  · cases a <;> rfl
  · cases seg <;> cases a <;> rfl

/-- The bytes after ModRM are as many as counted. -/
theorem tail_length (a : MemAddr) : a.fields.tail.length = a.count := by
  cases a with
  | base b d => cases d <;> rfl
  | sib b i d => cases d <;> rfl
  | sibNoBase i d => rfl
  | ripRel d => rfl

/-! ### What decoding uses -/

/-- A 4-byte displacement uses four bytes. -/
theorem disp32Of_used (bs : List Byte) (d : BitVec 32) (h : disp32Of bs = some d) :
    4 ≤ bs.length ∧ ∀ rest, disp32Of (bs.take 4 ++ rest) = some d := by
  match bs, h with
  | b0 :: b1 :: b2 :: b3 :: r, h => exact ⟨by simp, fun rest => by simpa [disp32Of] using h⟩

/-- A displacement uses as many bytes as it counts, and is none exactly for `mod = 00b`. -/
theorem dispOf_used (mod : BitVec 2) (bs : List Byte) (d : Disp) (h : dispOf mod bs = some d) :
    d.count ≤ bs.length ∧ (d = .none → mod = 0) ∧ ∀ rest, dispOf mod (bs.take d.count ++ rest) = some d := by
  unfold dispOf at h
  split at h
  · rename_i h0
    obtain rfl := Option.some.inj h
    exact ⟨Nat.zero_le _, fun _ => h0, fun rest => by simp [dispOf, h0]⟩
  · rename_i h0
    split at h
    · rename_i h1
      match bs, h with
      | b :: r, h =>
        obtain rfl := Option.some.inj h
        refine ⟨by simp [Disp.count], by simp, fun rest => ?_⟩
        simp only [dispOf, if_neg h0, if_pos h1]
        rfl
    · rename_i h1
      obtain ⟨v, hv, rfl⟩ := Option.map_eq_some_iff.1 h
      obtain ⟨u1, u2⟩ := disp32Of_used _ _ hv
      refine ⟨u1, by simp, fun rest => ?_⟩
      simp only [dispOf, if_neg h0, if_neg h1]
      rw [show (Disp.d32 v).count = 4 from rfl, u2]; rfl

/-- An index that was read is well-formed. -/
theorem indexOf_wf (x : Bool) (sib : Byte) : (indexOf x sib).all Index.wf = true := by
  simp only [indexOf]
  split
  · rfl
  · rename_i h; simpa [Index.wf] using h

/-- An addressing form that was read is well-formed, and uses as many bytes as it counts. -/
theorem addrOf_used (mod : BitVec 2) (rm : BitVec 3) (x b : Bool) (bs : List Byte) (a : MemAddr)
    (h : addrOf mod rm x b bs = some a) :
    a.wf = true ∧ a.count ≤ bs.length ∧ ∀ rest, addrOf mod rm x b (bs.take a.count ++ rest) = some a := by
  unfold addrOf at h
  split at h
  · rename_i h4
    match bs, h with
    | sib :: bs, h =>
      simp only at h
      split at h
      · rename_i h0
        obtain ⟨v, hv, rfl⟩ := Option.map_eq_some_iff.1 h
        obtain ⟨u1, u2⟩ := disp32Of_used _ _ hv
        refine ⟨indexOf_wf _ _, by simpa [MemAddr.count] using u1, fun rest => ?_⟩
        show addrOf mod rm x b (sib :: (bs.take 4 ++ rest)) = _
        simp only [addrOf, if_pos h4, if_pos h0, u2, Option.map_some]
      · rename_i h0
        obtain ⟨d, hd, rfl⟩ := Option.map_eq_some_iff.1 h
        obtain ⟨u1, u2, u3⟩ := dispOf_used _ _ _ hd
        have hl : MemAddr.count (.sib (gregOf b (sib.extractLsb' 0 3)) (indexOf x sib) d) = d.count + 1 :=
          Nat.add_comm _ _
        refine ⟨?_, by rw [hl, List.length_cons]; omega, fun rest => ?_⟩
        · have hb : (gregOf b (sib.extractLsb' 0 3)).low3 != 5 || d != .none := by
            by_cases e : d = .none
            · have : ¬ sib.extractLsb' 0 3 = 5 := fun e5 => h0 ⟨u2 e, e5⟩
              have : (sib.extractLsb' 0 3).toNat ≠ 5 := fun e5 => this (BitVec.eq_of_toNat_eq e5)
              have : (gregOf b (sib.extractLsb' 0 3)).low3 ≠ 5 := by rw [low3_gregOf]; exact this
              simp only [bne_iff_ne.2 this, Bool.true_or]
            · simp [e]
          simp only [MemAddr.wf, indexOf_wf, hb, Bool.and_self]
        · rw [hl]
          show addrOf mod rm x b (sib :: (bs.take d.count ++ rest)) = _
          simp only [addrOf, if_pos h4, if_neg h0, u3, Option.map_some]
  · rename_i h4
    split at h
    · rename_i h5
      obtain ⟨v, hv, rfl⟩ := Option.map_eq_some_iff.1 h
      obtain ⟨u1, u2⟩ := disp32Of_used _ _ hv
      refine ⟨rfl, u1, fun rest => ?_⟩
      simp only [MemAddr.count, addrOf, if_neg h4, if_pos h5, u2, Option.map_some]
    · rename_i h5
      obtain ⟨d, hd, rfl⟩ := Option.map_eq_some_iff.1 h
      obtain ⟨u1, u2, u3⟩ := dispOf_used _ _ _ hd
      refine ⟨?_, u1, fun rest => ?_⟩
      · have n4 : rm.toNat ≠ 4 := fun e => h4 (BitVec.eq_of_toNat_eq e)
        have n5 : d = .none → rm.toNat ≠ 5 := fun e e5 => h5 ⟨u2 e, BitVec.eq_of_toNat_eq e5⟩
        by_cases e : d = .none
        · simp [MemAddr.wf, low3_gregOf, n4, n5 e]
        · simp [MemAddr.wf, low3_gregOf, n4, e]
      · simp only [MemAddr.count, addrOf, if_neg h4, if_neg h5, u3, Option.map_some]

/-- A writemask that was read is well-formed. -/
theorem maskOf_wf (z : Bool) (aaa : BitVec 3) (m : Writemask) (h : maskOf z aaa = some m) : m.wf = true := by
  revert z aaa m
  intro z aaa
  have : ∀ (z : Bool) (aaa : BitVec 3), (maskOf z aaa).all Writemask.wf = true := by decide
  intro m h
  simpa [h] using this z aaa

/-- Bytes after ModRM that a form uses. -/
def Form.tailCount : Form → Nat
  | .reg _ _  => 0
  | .er _ _   => 0
  | .mem _ op => op.addr.count

/-- The length by parts. -/
theorem length_eq (i : Instr) : i.length = i.parts.leg.count + 6 + i.parts.form.tailCount := by
  cases i <;> rfl

/-- A form that was read is well-formed, and uses as many bytes as it counts. -/
theorem formOf_used (e : Evex) (mod : BitVec 2) (rm : BitVec 3) (bs : List Byte) (f : Form)
    (h : formOf e mod rm bs = some (some f)) :
    f.wf = true ∧ f.tailCount ≤ bs.length ∧ ∀ rest, formOf e mod rm (bs.take f.tailCount ++ rest) = some (some f) := by
  unfold formOf at h
  split at h
  · rename_i h3
    split at h
    · rename_i hb
      obtain rfl := Option.some.inj (Option.some.inj h)
      exact ⟨rfl, Nat.zero_le _, fun rest => by simp only [formOf, if_pos h3, if_pos hb]⟩
    · rename_i hb
      obtain ⟨vl, hv, h⟩ := Option.map_eq_some_iff.1 h
      obtain rfl := Option.some.inj h
      exact ⟨rfl, Nat.zero_le _, fun rest => by simp only [formOf, if_pos h3, if_neg hb, hv, Option.map_some]⟩
  · rename_i h3
    obtain ⟨vl, hv, h⟩ := Option.map_eq_some_iff.1 h
    obtain ⟨a, ha, rfl⟩ := Option.map_eq_some_iff.1 h
    obtain ⟨u1, u2, u3⟩ := addrOf_used _ _ _ _ _ _ ha
    refine ⟨u1, u2, fun rest => ?_⟩
    simp only [formOf, if_neg h3, hv, Option.map_some, Form.tailCount, u3]

/-- Everything a decoded instruction says about the fields it came from. -/
theorem decodeFields_ok (fma : Fma) (leg : Legacy) (e : Evex) (modrm : Byte) (bs : List Byte) (i : Instr)
    (h : decodeFields fma leg e modrm bs = .ok i) :
    e.badBits = false ∧ i.parts.fma = fma ∧ i.parts.leg = leg ∧ maskOf e.z e.aaa = some i.parts.mask ∧
      formOf e (modrm.extractLsb' 6 2) (modrm.extractLsb' 0 3) bs = some (some i.parts.form) ∧
      i.parts.dest = vregOf e.r' e.r (modrm.extractLsb' 3 3) ∧ i.parts.src2 = vregOfV e.v' e.vvvv := by
  unfold decodeFields at h
  split at h
  · cases h
  · rename_i hb
    split at h
    · cases h
    · rename_i m hm
      split at h
      · cases h
      · cases h
      · rename_i form hf
        obtain rfl := DecodeResult.ok.inj h
        simp only [instr_parts]
        exact ⟨by simpa using hb, trivial, trivial, hm, hf, trivial, trivial⟩

/-- The legacy bytes scanned, without an illegal byte or an arrangement outside R81, are as many as they count. -/
theorem scanLegacy_split (s t : Scan) (bs rest : List Byte) (h : scanLegacy s bs = (t, rest)) :
    ∃ pre, bs = pre ++ rest ∧ (∀ more, rest ≠ [] → scanLegacy s (pre ++ rest ++ more) = (t, rest ++ more)) ∧
      (∀ b ∈ pre, ∀ u : Scan, (u.byte b).isSome = true) ∧ (s.illegal = true → t.illegal = true) ∧
      (s.outside = true → t.outside = true) ∧
      (t.illegal = false → t.outside = false →
        pre.length + Legacy.count ⟨s.seg, s.addr32⟩ = Legacy.count ⟨t.seg, t.addr32⟩) := by
  induction bs generalizing s with
  | nil =>
    simp only [scanLegacy, Prod.mk.injEq] at h
    obtain ⟨rfl, rfl⟩ := h
    exact ⟨[], rfl, fun _ h => absurd rfl h, by simp, id, id, by simp⟩
  | cons b bs ih =>
    simp only [scanLegacy] at h
    split at h
    · rename_i s' hs
      obtain ⟨pre, e1, e2, e3, e4, e5, e6⟩ := ih s' h
      have some_any : ∀ u : Scan, (u.byte b).isSome = true := by
        intro u
        unfold Scan.byte at hs ⊢
        split
        · rfl
        · split
          · rfl
          · split
            · rfl
            · split
              · rfl
              · split
                · rfl
                · rename_i n1 n2 n3 n4 n5
                  rw [if_neg n1, if_neg n2, if_neg n3, if_neg n4, if_neg n5] at hs
                  cases hs
      have step : (s.illegal = true → s'.illegal = true) ∧ (s.outside = true → s'.outside = true) ∧
          (s'.illegal = false → s'.outside = false →
            1 + Legacy.count ⟨s.seg, s.addr32⟩ = Legacy.count ⟨s'.seg, s'.addr32⟩) := by
        obtain ⟨seg, a, il, o⟩ := s
        unfold Scan.byte at hs
        split at hs
        · obtain rfl := Option.some.inj hs
          cases seg <;> cases a <;> simp [Scan.override, Legacy.count]
        · split at hs
          · obtain rfl := Option.some.inj hs
            cases seg <;> cases a <;> simp [Scan.override, Legacy.count]
          · split at hs
            · obtain rfl := Option.some.inj hs
              cases seg <;> cases a <;> simp [Legacy.count]
            · split at hs
              · obtain rfl := Option.some.inj hs
                simp
              · split at hs
                · obtain rfl := Option.some.inj hs
                  simp
                · cases hs
      refine ⟨b :: pre, by rw [e1]; rfl, fun more hr => ?_, ?_, fun q => e4 (step.1 q), fun q => e5 (step.2.1 q),
        fun q1 q2 => ?_⟩
      · simp only [List.cons_append, scanLegacy, hs]
        exact e2 more hr
      · intro b' hb'
        rcases List.mem_cons.1 hb' with rfl | hb'
        · exact some_any
        · exact e3 b' hb'
      · have h1 := e6 q1 q2
        have h2 := step.2.2 (by cases hi : s'.illegal with | false => rfl | true => rw [e4 hi] at q1; cases q1)
          (by cases hi : s'.outside with | false => rfl | true => rw [e5 hi] at q2; cases q2)
        rw [List.length_cons]
        omega
    · rename_i hs
      simp only [Prod.mk.injEq] at h
      obtain ⟨rfl, rfl⟩ := h
      exact ⟨[], rfl, fun more _ => by simp [scanLegacy, hs], by simp, id, id, by simp⟩

/-- Everything a decoded instruction says about its bytes: legacy bytes, 62h, the payload, and the bytes used. -/
theorem decode_ok (bs : List Byte) (i : Instr) (h : decode bs = .ok i) :
    ∃ pre p0 p1 p2 op modrm tail,
      bs = pre ++ 0x62 :: p0 :: p1 :: p2 :: op :: modrm :: tail ∧ pre.length = i.parts.leg.count ∧
      (∀ more, scanLegacy .start (pre ++ 0x62 :: more) = (⟨i.parts.leg.seg, i.parts.leg.addr32, false, false⟩, 0x62 :: more)) ∧
      inTable (evexOf p0 p1 p2) op = some i.parts.fma ∧
      decodeFields i.parts.fma i.parts.leg (evexOf p0 p1 p2) modrm tail = .ok i := by
  unfold decode at h
  split at h
  · cases h
  · rename_i s b rest hs
    split at h
    · rename_i hb
      subst hb
      unfold decodeEvex at h
      split at h
      · rename_i p0 p1 p2 op modrm tail
        split at h
        · cases h
        · rename_i fma hf
          split at h
          · cases h
          · split at h
            · cases h
            · rename_i n1 n2
              obtain ⟨pre, e1, e2, e3, e4, e5, e6⟩ := scanLegacy_split _ _ _ _ hs
              obtain ⟨-, d2, d3, -⟩ := decodeFields_ok _ _ _ _ _ _ h
              have ht : s = ⟨i.parts.leg.seg, i.parts.leg.addr32, false, false⟩ := by
                rw [d3]
                obtain ⟨sg, a, il, o⟩ := s
                simp only [Bool.not_eq_true] at n1 n2
                simp [n1, n2]
              have hl : pre.length = i.parts.leg.count := by
                have := e6 (by simpa using n1) (by simpa using n2)
                rw [ht] at this
                simpa [Scan.start, Legacy.count] using this
              have hscan : ∀ (pre : List Byte) (u t : Scan) (r : Byte) (rest : List Byte),
                  (∀ b ∈ pre, ∀ u : Scan, (u.byte b).isSome = true) →
                  scanLegacy u (pre ++ 0x62 :: rest) = (t, 0x62 :: rest) →
                  ∀ more, scanLegacy u (pre ++ 0x62 :: more) = (t, 0x62 :: more) := by
                intro pre
                induction pre with
                | nil =>
                  intro u t r rest _ hu more
                  have h62 : ∀ u : Scan, u.byte 0x62 = none := fun u => rfl
                  simp only [List.nil_append, scanLegacy, h62, Prod.mk.injEq, and_true] at hu ⊢
                  exact hu
                | cons c pre ih =>
                  intro u t r rest hp hu more
                  obtain ⟨u', hu'⟩ := Option.isSome_iff_exists.1 (hp c (by simp) u)
                  simp only [List.cons_append, scanLegacy, hu'] at hu ⊢
                  exact ih u' t r rest (fun b hb => hp b (by simp [hb])) hu more
              refine ⟨pre, p0, p1, p2, op, modrm, tail, e1, hl, ?_, by rw [d2]; exact hf, ?_⟩
              · rw [← ht]
                exact hscan pre _ _ 0 _ e3 (e1 ▸ hs)
              · rw [d2, d3]; exact h
      · cases h
    · cases h

/-- A decoded instruction is well-formed, its bytes are there, and what follows them does not matter. -/
theorem decode_used (bs : List Byte) (i : Instr) (h : decode bs = .ok i) :
    i.wf = true ∧ i.length ≤ bs.length ∧ ∀ rest, decode (bs.take i.length ++ rest) = .ok i := by
  obtain ⟨pre, p0, p1, p2, op, modrm, tail, rfl, hl, hs, ht, hd⟩ := decode_ok bs i h
  obtain ⟨hb, -, -, hm, hf, d1, d2⟩ := decodeFields_ok _ _ _ _ _ _ hd
  obtain ⟨u1, u2, u3⟩ := formOf_used _ _ _ _ _ hf
  refine ⟨by rw [wf_iff, u1, maskOf_wf _ _ _ hm]; rfl, by rw [length_eq]; simp; omega, fun rest => ?_⟩
  have e : (pre ++ 0x62 :: p0 :: p1 :: p2 :: op :: modrm :: tail).take i.length
      = pre ++ 0x62 :: p0 :: p1 :: p2 :: op :: modrm :: tail.take i.parts.form.tailCount := by
    rw [length_eq, ← hl, Nat.add_assoc, List.take_append, List.take_of_length_le (by omega),
      show pre.length + (6 + i.parts.form.tailCount) - pre.length = i.parts.form.tailCount + 6 by omega]
    rfl
  rw [e]
  simp only [List.append_assoc, List.cons_append, decode, hs, if_true, decodeEvex, ht, Bool.false_eq_true, if_false]
  unfold decodeFields
  rw [hb, hm, u3, ← d1, ← d2]
  simp only [Bool.false_eq_true, if_false]
  congr 1
  exact parts_instr i

/-- What follows an instruction does not matter. -/
theorem decode_append (bs rest : List Byte) (i : Instr) (h : decode bs = .ok i) : decode (bs ++ rest) = .ok i := by
  have := (decode_used bs i h).2.2 (bs.drop i.length ++ rest)
  rwa [← List.append_assoc, List.take_append_drop] at this

/-! ### Encodings as decoded -/

/-- An encoding, byte by byte up to ModRM. -/
theorem encode_eq (i : Instr) :
    encode i = i.parts.leg.bytes ++ 0x62 :: i.parts.evex.p0 :: i.parts.evex.p1 :: i.parts.evex.p2 ::
      i.parts.fma.opcode :: i.parts.modrm :: i.parts.form.fields.2.2.tail := by
  simp [encode]

/-- An encoding is in the table. -/
@[simp] theorem inTable_parts (p : Parts) : inTable p.evex p.fma.opcode = some p.fma := by
  simp [inTable, Parts.evex]

/-- The fields of an encoding are read back, with the legacy bytes that stood before it. -/
theorem decodeFields_parts (p : Parts) (leg : Legacy) (rest : List Byte) (h1 : p.mask.wf = true)
    (h2 : p.form.wf = true) :
    decodeFields p.fma leg p.evex p.modrm (p.form.fields.2.2.tail ++ rest) = .ok (Parts.instr { p with leg := leg }) := by
  have hm := modrm_fields p.form.fields.2.2.mod p.dest.field3 p.form.fields.2.2.rm
  have hmod : p.modrm = p.form.fields.2.2.mod ++ p.dest.field3 ++ p.form.fields.2.2.rm := rfl
  have hb : p.evex.badBits = false := rfl
  have hmask : maskOf p.evex.z p.evex.aaa = some p.mask := maskOf_fields p.mask h1
  unfold decodeFields
  rw [hb, hmask, hmod, hm.1, hm.2.1, hm.2.2, formOf_fields p rest h2]
  simp [Parts.evex]

/-! ### Legacy bytes before the 62h byte -/

/-- The bytes the scan treats as legacy bytes. -/
def legacyByte (c : Byte) : Bool :=
  c == 0x64 || c == 0x65 || c == 0x67 || nullSegment c || illegalLegacy c

/-- One legacy byte scanned. -/
def Scan.next (s : Scan) (c : Byte) : Scan := (s.byte c).getD s

/-- A legacy byte is scanned. -/
theorem byte_legacy (s : Scan) (c : Byte) (h : legacyByte c = true) : s.byte c = some (Scan.next s c) := by
  unfold Scan.next
  have : (s.byte c).isSome = true := by
    unfold Scan.byte
    simp only [legacyByte, Bool.or_eq_true, beq_iff_eq] at h
    split
    · rfl
    · split
      · rfl
      · split
        · rfl
        · split
          · rfl
          · split
            · rfl
            · rename_i n1 n2 n3 n4 n5
              rcases h with (((h | h) | h) | h) | h <;> contradiction
  obtain ⟨t, ht⟩ := Option.isSome_iff_exists.1 this
  rw [ht]; rfl

/-- Another byte is not. -/
theorem byte_other (s : Scan) (c : Byte) (h : legacyByte c = false) : s.byte c = none := by
  simp only [legacyByte, Bool.or_eq_false_iff, beq_eq_false_iff_ne] at h
  obtain ⟨⟨⟨⟨h1, h2⟩, h3⟩, h4⟩, h5⟩ := h
  simp only [Scan.byte, if_neg h1, if_neg h2, if_neg h3, h4, h5, Bool.false_eq_true, if_false]

/-- The scan stops at the first byte that is not a legacy byte. -/
theorem scan_pre (pre : List Byte) (s : Scan) (c : Byte) (more : List Byte) (h : ∀ c ∈ pre, legacyByte c = true)
    (hc : legacyByte c = false) :
    scanLegacy s (pre ++ c :: more) = (pre.foldl Scan.next s, c :: more) := by
  induction pre generalizing s with
  | nil => simp [scanLegacy, byte_other _ _ hc]
  | cons b pre ih =>
    have := ih (Scan.next s b) (fun c hc => h c (by simp [hc]))
    simp only [List.cons_append, scanLegacy, byte_legacy s b (h b (by simp)), this, List.foldl_cons]

/-- A byte of R82 is remembered. -/
theorem next_illegal (s : Scan) (c : Byte) (h : legacyByte c = true) :
    (Scan.next s c).illegal = (s.illegal || illegalLegacy c) := by
  have h64 : illegalLegacy 0x64 = false := by decide
  have h65 : illegalLegacy 0x65 = false := by decide
  have h67 : illegalLegacy 0x67 = false := by decide
  have hnull : ∀ c, nullSegment c = true → illegalLegacy c = false := by decide
  unfold Scan.next Scan.byte
  split
  · subst_vars; rw [h64, Bool.or_false]; unfold Scan.override; cases s.seg <;> rfl
  · split
    · subst_vars; rw [h65, Bool.or_false]; unfold Scan.override; cases s.seg <;> rfl
    · split
      · subst_vars; rw [h67, Bool.or_false]; cases s.addr32 <;> rfl
      · split
        · rename_i q; simp [hnull c q]
        · split
          · rename_i q; simp [q]
          · rename_i n1 n2 n3 n4 n5
            simp only [legacyByte, Bool.or_eq_true, beq_iff_eq] at h
            rcases h with (((h | h) | h) | h) | h <;> contradiction

/-- Any byte of R82 among the legacy bytes is remembered. -/
theorem fold_illegal (pre : List Byte) (s : Scan) (h : ∀ c ∈ pre, legacyByte c = true) :
    (pre.foldl Scan.next s).illegal = (s.illegal || pre.any illegalLegacy) := by
  induction pre generalizing s with
  | nil => simp
  | cons b pre ih =>
    rw [List.foldl_cons, ih _ (fun c hc => h c (by simp [hc])), next_illegal _ _ (h b (by simp)), List.any_cons,
      Bool.or_assoc]

/-- The bytes of R82. -/
theorem illegal_iff : ∀ c : Byte, illegalLegacy c = true ↔
    (c = 0xF0 ∨ c = 0x66 ∨ c = 0xF2 ∨ c = 0xF3 ∨ (0x40 ≤ c ∧ c ≤ 0x4F)) := by decide +kernel
/-- The bytes of R81 and R82. -/
theorem legacy_iff : ∀ c : Byte, legacyByte c = true ↔
    (c ∈ ([0x64, 0x65, 0x67, 0x26, 0x2E, 0x36, 0x3E, 0xF0, 0x66, 0xF2, 0xF3] : List Byte) ∨
      (0x40 ≤ c ∧ c ≤ 0x4F)) := by decide +kernel

/-- The legacy bytes of an instruction are legacy bytes, none of R82, and scan to its overrides. -/
theorem legBytes (l : Legacy) :
    (∀ c ∈ l.bytes, legacyByte c = true) ∧ l.bytes.any illegalLegacy = false ∧
      l.bytes.foldl Scan.next .start = ⟨l.seg, l.addr32, false, false⟩ := by
  obtain ⟨seg, a⟩ := l
  rcases seg with _ | seg
  · cases a <;> decide
  · cases seg <;> cases a <;> decide

end Sys2Proof
end

