-- ==== Sys2Proof/Laws/State.lean ====
section
/-! SUPPORT. One lemma per field of State and update. -/

namespace Sys2Proof.Machine

variable (s : State)

/-! ### Completing an instruction -/

@[simp] theorem complete_zmm (dest : VReg) (v : Vec) (flags : BitVec 6) (ilen : Nat) :
    (s.complete dest v flags ilen).zmm = s.zmm.set dest v := rfl
@[simp] theorem complete_k (dest : VReg) (v : Vec) (flags : BitVec 6) (ilen : Nat) :
    (s.complete dest v flags ilen).k = s.k := rfl
@[simp] theorem complete_gpr (dest : VReg) (v : Vec) (flags : BitVec 6) (ilen : Nat) :
    (s.complete dest v flags ilen).gpr = s.gpr := rfl
@[simp] theorem complete_rip (dest : VReg) (v : Vec) (flags : BitVec 6) (ilen : Nat) :
    (s.complete dest v flags ilen).rip = s.rip + BitVec.ofNat 64 ilen := rfl
@[simp] theorem complete_rflags (dest : VReg) (v : Vec) (flags : BitVec 6) (ilen : Nat) :
    (s.complete dest v flags ilen).rflags = s.rflags := rfl
@[simp] theorem complete_mxcsr (dest : VReg) (v : Vec) (flags : BitVec 6) (ilen : Nat) :
    (s.complete dest v flags ilen).mxcsr = s.mxcsr ||| flags.setWidth 32 := rfl
@[simp] theorem complete_cr0 (dest : VReg) (v : Vec) (flags : BitVec 6) (ilen : Nat) :
    (s.complete dest v flags ilen).cr0 = s.cr0 := rfl
@[simp] theorem complete_cr2 (dest : VReg) (v : Vec) (flags : BitVec 6) (ilen : Nat) :
    (s.complete dest v flags ilen).cr2 = s.cr2 := rfl
@[simp] theorem complete_cr3 (dest : VReg) (v : Vec) (flags : BitVec 6) (ilen : Nat) :
    (s.complete dest v flags ilen).cr3 = s.cr3 := rfl
@[simp] theorem complete_cr4 (dest : VReg) (v : Vec) (flags : BitVec 6) (ilen : Nat) :
    (s.complete dest v flags ilen).cr4 = s.cr4 := rfl
@[simp] theorem complete_xcr0 (dest : VReg) (v : Vec) (flags : BitVec 6) (ilen : Nat) :
    (s.complete dest v flags ilen).xcr0 = s.xcr0 := rfl
@[simp] theorem complete_efer (dest : VReg) (v : Vec) (flags : BitVec 6) (ilen : Nat) :
    (s.complete dest v flags ilen).efer = s.efer := rfl
@[simp] theorem complete_csL (dest : VReg) (v : Vec) (flags : BitVec 6) (ilen : Nat) :
    (s.complete dest v flags ilen).csL = s.csL := rfl
@[simp] theorem complete_csBase (dest : VReg) (v : Vec) (flags : BitVec 6) (ilen : Nat) :
    (s.complete dest v flags ilen).csBase = s.csBase := rfl
@[simp] theorem complete_fsBase (dest : VReg) (v : Vec) (flags : BitVec 6) (ilen : Nat) :
    (s.complete dest v flags ilen).fsBase = s.fsBase := rfl
@[simp] theorem complete_gsBase (dest : VReg) (v : Vec) (flags : BitVec 6) (ilen : Nat) :
    (s.complete dest v flags ilen).gsBase = s.gsBase := rfl
@[simp] theorem complete_cpl (dest : VReg) (v : Vec) (flags : BitVec 6) (ilen : Nat) :
    (s.complete dest v flags ilen).cpl = s.cpl := rfl
@[simp] theorem complete_drAddr (dest : VReg) (v : Vec) (flags : BitVec 6) (ilen : Nat) :
    (s.complete dest v flags ilen).drAddr = s.drAddr := rfl
@[simp] theorem complete_dr6 (dest : VReg) (v : Vec) (flags : BitVec 6) (ilen : Nat) :
    (s.complete dest v flags ilen).dr6 = s.dr6 := rfl
@[simp] theorem complete_dr7 (dest : VReg) (v : Vec) (flags : BitVec 6) (ilen : Nat) :
    (s.complete dest v flags ilen).dr7 = s.dr7 := rfl
@[simp] theorem complete_mem (dest : VReg) (v : Vec) (flags : BitVec 6) (ilen : Nat) :
    (s.complete dest v flags ilen).mem = s.mem := rfl
@[simp] theorem complete_xlate (dest : VReg) (v : Vec) (flags : BitVec 6) (ilen : Nat) :
    (s.complete dest v flags ilen).xlate = s.xlate := rfl
@[simp] theorem complete_cfg (dest : VReg) (v : Vec) (flags : BitVec 6) (ilen : Nat) :
    (s.complete dest v flags ilen).cfg = s.cfg := rfl
@[simp] theorem complete_draws (dest : VReg) (v : Vec) (flags : BitVec 6) (ilen : Nat) :
    (s.complete dest v flags ilen).draws = s.draws + 1 := rfl

/-! ### Taking an exception -/

@[simp] theorem faulted_zmm (e : Exn) (g : BitVec 6) : (s.faulted e g).zmm = s.zmm := rfl
@[simp] theorem faulted_k (e : Exn) (g : BitVec 6) : (s.faulted e g).k = s.k := rfl
@[simp] theorem faulted_gpr (e : Exn) (g : BitVec 6) : (s.faulted e g).gpr = s.gpr := rfl
@[simp] theorem faulted_rip (e : Exn) (g : BitVec 6) : (s.faulted e g).rip = s.rip := rfl
@[simp] theorem faulted_rflags (e : Exn) (g : BitVec 6) : (s.faulted e g).rflags = s.rflags := rfl
@[simp] theorem faulted_mxcsr (e : Exn) (g : BitVec 6) : (s.faulted e g).mxcsr = s.mxcsr ||| g.setWidth 32 := rfl
@[simp] theorem faulted_cr0 (e : Exn) (g : BitVec 6) : (s.faulted e g).cr0 = s.cr0 := rfl
@[simp] theorem faulted_cr2 (e : Exn) (g : BitVec 6) : (s.faulted e g).cr2 = e.cr2 s.cr2 := rfl
@[simp] theorem faulted_cr3 (e : Exn) (g : BitVec 6) : (s.faulted e g).cr3 = s.cr3 := rfl
@[simp] theorem faulted_cr4 (e : Exn) (g : BitVec 6) : (s.faulted e g).cr4 = s.cr4 := rfl
@[simp] theorem faulted_xcr0 (e : Exn) (g : BitVec 6) : (s.faulted e g).xcr0 = s.xcr0 := rfl
@[simp] theorem faulted_efer (e : Exn) (g : BitVec 6) : (s.faulted e g).efer = s.efer := rfl
@[simp] theorem faulted_csL (e : Exn) (g : BitVec 6) : (s.faulted e g).csL = s.csL := rfl
@[simp] theorem faulted_csBase (e : Exn) (g : BitVec 6) : (s.faulted e g).csBase = s.csBase := rfl
@[simp] theorem faulted_fsBase (e : Exn) (g : BitVec 6) : (s.faulted e g).fsBase = s.fsBase := rfl
@[simp] theorem faulted_gsBase (e : Exn) (g : BitVec 6) : (s.faulted e g).gsBase = s.gsBase := rfl
@[simp] theorem faulted_cpl (e : Exn) (g : BitVec 6) : (s.faulted e g).cpl = s.cpl := rfl
@[simp] theorem faulted_drAddr (e : Exn) (g : BitVec 6) : (s.faulted e g).drAddr = s.drAddr := rfl
@[simp] theorem faulted_dr6 (e : Exn) (g : BitVec 6) : (s.faulted e g).dr6 = s.dr6 := rfl
@[simp] theorem faulted_dr7 (e : Exn) (g : BitVec 6) : (s.faulted e g).dr7 = s.dr7 := rfl
@[simp] theorem faulted_mem (e : Exn) (g : BitVec 6) : (s.faulted e g).mem = s.mem := rfl
@[simp] theorem faulted_xlate (e : Exn) (g : BitVec 6) : (s.faulted e g).xlate = s.xlate := rfl
@[simp] theorem faulted_cfg (e : Exn) (g : BitVec 6) : (s.faulted e g).cfg = s.cfg := rfl
@[simp] theorem faulted_draws (e : Exn) (g : BitVec 6) : (s.faulted e g).draws = s.draws + 1 := rfl

@[simp] theorem fault_exn (e : Exn) : (e.fault s).exn = e := by cases e <;> rfl
@[simp] theorem fault_left (e : Exn) : (e.fault s).left = s := by cases e <;> rfl

/-- A fault is its exception and the state it leaves. -/
theorem fault_eta (f : Fault) : f.exn.fault f.left = f := by cases f <;> rfl

/-- Completing is reaching the state `after`, with the flags OR-ed in. -/
theorem complete_eq_after (dest : VReg) (v : Vec) (flags : BitVec 6) (ilen : Nat) :
    s.complete dest v flags ilen = s.after dest v (s.mxcsr ||| flags.setWidth 32) ilen := rfl

/-! ### The state after an instruction -/

@[simp] theorem after_zmm (dest : VReg) (v : Vec) (w : BitVec 32) (ilen : Nat) :
    (s.after dest v w ilen).zmm = s.zmm.set dest v := rfl
@[simp] theorem after_k (dest : VReg) (v : Vec) (w : BitVec 32) (ilen : Nat) :
    (s.after dest v w ilen).k = s.k := rfl
@[simp] theorem after_gpr (dest : VReg) (v : Vec) (w : BitVec 32) (ilen : Nat) :
    (s.after dest v w ilen).gpr = s.gpr := rfl
@[simp] theorem after_rip (dest : VReg) (v : Vec) (w : BitVec 32) (ilen : Nat) :
    (s.after dest v w ilen).rip = s.rip + BitVec.ofNat 64 ilen := rfl
@[simp] theorem after_rflags (dest : VReg) (v : Vec) (w : BitVec 32) (ilen : Nat) :
    (s.after dest v w ilen).rflags = s.rflags := rfl
@[simp] theorem after_mxcsr (dest : VReg) (v : Vec) (w : BitVec 32) (ilen : Nat) :
    (s.after dest v w ilen).mxcsr = w := rfl
@[simp] theorem after_cr0 (dest : VReg) (v : Vec) (w : BitVec 32) (ilen : Nat) :
    (s.after dest v w ilen).cr0 = s.cr0 := rfl
@[simp] theorem after_cr2 (dest : VReg) (v : Vec) (w : BitVec 32) (ilen : Nat) :
    (s.after dest v w ilen).cr2 = s.cr2 := rfl
@[simp] theorem after_cr3 (dest : VReg) (v : Vec) (w : BitVec 32) (ilen : Nat) :
    (s.after dest v w ilen).cr3 = s.cr3 := rfl
@[simp] theorem after_cr4 (dest : VReg) (v : Vec) (w : BitVec 32) (ilen : Nat) :
    (s.after dest v w ilen).cr4 = s.cr4 := rfl
@[simp] theorem after_xcr0 (dest : VReg) (v : Vec) (w : BitVec 32) (ilen : Nat) :
    (s.after dest v w ilen).xcr0 = s.xcr0 := rfl
@[simp] theorem after_efer (dest : VReg) (v : Vec) (w : BitVec 32) (ilen : Nat) :
    (s.after dest v w ilen).efer = s.efer := rfl
@[simp] theorem after_csL (dest : VReg) (v : Vec) (w : BitVec 32) (ilen : Nat) :
    (s.after dest v w ilen).csL = s.csL := rfl
@[simp] theorem after_csBase (dest : VReg) (v : Vec) (w : BitVec 32) (ilen : Nat) :
    (s.after dest v w ilen).csBase = s.csBase := rfl
@[simp] theorem after_fsBase (dest : VReg) (v : Vec) (w : BitVec 32) (ilen : Nat) :
    (s.after dest v w ilen).fsBase = s.fsBase := rfl
@[simp] theorem after_gsBase (dest : VReg) (v : Vec) (w : BitVec 32) (ilen : Nat) :
    (s.after dest v w ilen).gsBase = s.gsBase := rfl
@[simp] theorem after_cpl (dest : VReg) (v : Vec) (w : BitVec 32) (ilen : Nat) :
    (s.after dest v w ilen).cpl = s.cpl := rfl
@[simp] theorem after_drAddr (dest : VReg) (v : Vec) (w : BitVec 32) (ilen : Nat) :
    (s.after dest v w ilen).drAddr = s.drAddr := rfl
@[simp] theorem after_dr6 (dest : VReg) (v : Vec) (w : BitVec 32) (ilen : Nat) :
    (s.after dest v w ilen).dr6 = s.dr6 := rfl
@[simp] theorem after_dr7 (dest : VReg) (v : Vec) (w : BitVec 32) (ilen : Nat) :
    (s.after dest v w ilen).dr7 = s.dr7 := rfl
@[simp] theorem after_mem (dest : VReg) (v : Vec) (w : BitVec 32) (ilen : Nat) :
    (s.after dest v w ilen).mem = s.mem := rfl
@[simp] theorem after_xlate (dest : VReg) (v : Vec) (w : BitVec 32) (ilen : Nat) :
    (s.after dest v w ilen).xlate = s.xlate := rfl
@[simp] theorem after_cfg (dest : VReg) (v : Vec) (w : BitVec 32) (ilen : Nat) :
    (s.after dest v w ilen).cfg = s.cfg := rfl
@[simp] theorem after_draws (dest : VReg) (v : Vec) (w : BitVec 32) (ilen : Nat) :
    (s.after dest v w ilen).draws = s.draws + 1 := rfl

/-- The written register reads as the value written. -/
@[simp] theorem after_readZmm_self (dest : VReg) (v : Vec) (w : BitVec 32) (ilen : Nat) :
    (s.after dest v w ilen).readZmm dest = v := by simp [State.readZmm]

/-- The destination of a completed instruction reads as the value written. -/
@[simp] theorem complete_readZmm_self (dest : VReg) (v : Vec) (flags : BitVec 6) (ilen : Nat) :
    (s.complete dest v flags ilen).readZmm dest = v := by simp [State.readZmm]

/-- Every other vector register reads as before. -/
theorem after_readZmm_other (dest r : VReg) (v : Vec) (w : BitVec 32) (ilen : Nat) (h : r ≠ dest) :
    (s.after dest v w ilen).readZmm r = s.readZmm r := by
  have h' : (dest : Nat) ≠ (r : Nat) := fun e => h (Fin.ext e.symm)
  simp [State.readZmm, Vector.getElem_set_ne, h']

/-! ### Stops -/

/-- A stop by #UD, #NM, #SS or #GP before any flag is recorded leaves the state as it was, but for the draw counter. -/
theorem stop_ud : Stop.outcome s (.exception .ud) = .fault (.ud { s with draws := s.draws + 1 }) := by
  simp [Stop.outcome, takeException, Exn.fault, State.faulted, Exn.cr2]

theorem stop_nm : Stop.outcome s (.exception .nm) = .fault (.nm { s with draws := s.draws + 1 }) := by
  simp [Stop.outcome, takeException, Exn.fault, State.faulted, Exn.cr2]

theorem stop_ss : Stop.outcome s (.exception .ss) = .fault (.ss { s with draws := s.draws + 1 }) := by
  simp [Stop.outcome, takeException, Exn.fault, State.faulted, Exn.cr2]

theorem stop_gp : Stop.outcome s (.exception .gp) = .fault (.gp { s with draws := s.draws + 1 }) := by
  simp [Stop.outcome, takeException, Exn.fault, State.faulted, Exn.cr2]

/-- A page fault also writes CR2. -/
theorem stop_pf (c : BitVec 32) (a : Word64) :
    Stop.outcome s (.exception (.pf c a)) = .fault (.pf c a { s with cr2 := a, draws := s.draws + 1 }) := by
  simp [Stop.outcome, takeException, Exn.fault, State.faulted, Exn.cr2]

/-- The exception of an unmasked condition records flags. -/
theorem takeException_fp (g : BitVec 6) :
    takeException s.fpException g s = .fault (if s.cr4.getLsbD 10 then
        .xm { s with mxcsr := s.mxcsr ||| g.setWidth 32, draws := s.draws + 1 }
      else .ud { s with mxcsr := s.mxcsr ||| g.setWidth 32, draws := s.draws + 1 }) := by
  unfold State.fpException State.osxmmexcpt
  generalize s.cr4.getLsbD 10 = c
  cases c <;> rfl

end Sys2Proof.Machine
end

