-- ==== Sys2Proof/Laws/Vector.lean ====
section
/-! SUPPORT. Lanes of a packed vector. -/

namespace Sys2Proof.Machine

/-- A bit of a packed vector is the bit of its lane, or zero above the lanes. -/
theorem getLsbD_packLanes (f : Nat → Half) (n b : Nat) (hn : n ≤ 32) :
    (packLanes f n).getLsbD b = (decide (b < 16 * n) && (f (b / 16)).getLsbD (b % 16)) := by
  induction n with
  | zero => simp [packLanes]
  | succ n ih =>
    rw [packLanes, BitVec.getLsbD_or, ih (by omega), BitVec.getLsbD_shiftLeft, BitVec.getLsbD_setWidth]
    by_cases h1 : b < 16 * n
    · simp [h1, show b < 16 * (n + 1) by omega]
    · by_cases h2 : b < 16 * (n + 1)
      · have h3 : b / 16 = n := by omega
        have h4 : b % 16 = b - 16 * n := by omega
        simp [h1, h2, h3, h4, show b < 512 by omega, show b - 16 * n < 512 by omega]
      · have : (f n).getLsbD (b - 16 * n) = false := BitVec.getLsbD_of_ge _ _ (by omega)
        simp [h1, h2, this]

/-- A lane of a packed vector. -/
theorem lane_packLanes (f : Nat → Half) (n j : Nat) (hn : n ≤ 32) :
    lane (packLanes f n) j = if j < n then f j else 0 := by
  apply BitVec.eq_of_getLsbD_eq
  intro i hi
  rw [lane, BitVec.getLsbD_extractLsb', getLsbD_packLanes _ _ _ hn]
  have h1 : (16 * j + i) / 16 = j := by omega
  have h2 : (16 * j + i) % 16 = i := by omega
  by_cases h : j < n
  · simp [h, h1, h2, hi, show 16 * j + i < 16 * n by omega]
  · simp [h, show ¬ 16 * j + i < 16 * n by omega]

/-- Two vectors with the same lanes are equal. -/
theorem vec_ext (v w : Vec) (h : ∀ j < 32, lane v j = lane w j) : v = w := by
  apply BitVec.eq_of_getLsbD_eq
  intro b hb
  have h1 := congrArg (fun x => BitVec.getLsbD x (b % 16)) (h (b / 16) (by omega))
  simp only [lane, BitVec.getLsbD_extractLsb', show b % 16 < 16 by omega, decide_true, Bool.true_and] at h1
  rwa [show 16 * (b / 16) + b % 16 = b by omega] at h1

/-- There are at most 32 lanes. -/
theorem lanes_le (vl : VecLen) : lanes vl ≤ 32 := by cases vl <;> decide

end Sys2Proof.Machine
end

