-- ==== Sys2Proof/Laws/Exec.lean ====
section
/-! SUPPORT. What executing an instruction can do, said once. -/

namespace Sys2Proof.Machine

/-! ### Entry -/

/-- The premises hold exactly where nothing is refused. -/
theorem launchRefusal_none (s : State) : s.launchRefusal = none ↔ Admitted s := by
  unfold State.launchRefusal Admitted
  cases s.mode64 <;> cases s.alignmentChecking <;> cases s.singleStep <;> cases s.instructionBreakpoint <;> simp

/-- `enabled`, bit by bit. -/
theorem enabled_iff (s : State) (vl : VecLen) : s.enabled vl = true ↔ StateEnabled s vl := by
  have h2 : ∀ x : Word64, (x.extractLsb' 1 2 == 3) = (x.getLsbD 1 && x.getLsbD 2) := by
    intro x
    have e1 : x.getLsbD 1 = (x.extractLsb' 1 2).getLsbD 0 := by simp
    have e2 : x.getLsbD 2 = (x.extractLsb' 1 2).getLsbD 1 := by simp
    rw [e1, e2]
    generalize x.extractLsb' 1 2 = y
    revert y; decide
  have h3 : ∀ x : Word64, (x.extractLsb' 5 3 == 7) = (x.getLsbD 5 && x.getLsbD 6 && x.getLsbD 7) := by
    intro x
    have e1 : x.getLsbD 5 = (x.extractLsb' 5 3).getLsbD 0 := by simp
    have e2 : x.getLsbD 6 = (x.extractLsb' 5 3).getLsbD 1 := by simp
    have e3 : x.getLsbD 7 = (x.extractLsb' 5 3).getLsbD 2 := by simp
    rw [e1, e2, e3]
    generalize x.extractLsb' 5 3 = y
    revert y; decide
  simp only [State.enabled, hasFeatures, h2, h3, State.osxsave, Bool.and_eq_true, Bool.or_eq_true, beq_iff_eq,
    StateEnabled, and_assoc]

/-- Nothing stops an instruction before its operands exactly where it is ready. -/
theorem entryStop_none (s : State) (vl : VecLen) (ilen : Nat) : s.entryStop vl ilen = none ↔ Ready s vl ilen := by
  have key : ∀ (l : Option Refusal) (c e n : Bool),
      (match l with
        | some r => some (Stop.refusal r)
        | none => if !c then some (.refusal .codeNotCanonical) else if !e then some (.exception .ud)
          else if n then some (.exception .nm) else none) = none ↔ l = none ∧ c = true ∧ e = true ∧ n = false := by
    intro l c e n
    cases l <;> cases c <;> cases e <;> cases n <;> simp
  have h : Ready s vl ilen ↔ s.launchRefusal = none ∧ canonical s.cfg.laBits (s.rip.toNat + ilen) = true ∧
      s.enabled vl = true ∧ s.ts = false := by
    rw [launchRefusal_none, enabled_iff]; exact Iff.rfl
  rw [h]
  exact key _ _ _ _

/-! ### Lanes and flags -/

/-- `someLane` in words. -/
theorem someLane_iff (kl : Nat) (act p : Nat → Bool) :
    someLane kl act p = true ↔ ∃ j < kl, act j = true ∧ p j = true := by
  simp [someLane, List.any_eq_true]

/-- The lanes of the result vector. -/
theorem lane_resultVec (kl : Nat) (act : Nat → Bool) (m : Writemask) (old : Vec) (r : Nat → LaneResult) (j : Nat)
    (hk : kl ≤ 32) :
    lane (resultVec kl act m old r) j =
      if j < kl then (if act j then (r j).value else inactiveLane m (lane old j)) else 0 :=
  lane_packLanes _ _ _ hk

/-- The result vector is what LanesWritten asks for. -/
theorem lanesWritten_resultVec (s : State) (vl : VecLen) (m : Writemask) (old : Vec) (r : Nat → LaneResult) :
    LanesWritten s vl m old (resultVec (lanes vl) (s.active m) m old r) r := by
  refine ⟨fun j hj ha => ?_, fun j hj ha => ?_, fun j _ hj => ?_⟩
  · rw [lane_resultVec _ _ _ _ _ _ (lanes_le vl)]; simp [hj, ha]
  · rw [lane_resultVec _ _ _ _ _ _ (lanes_le vl)]
    cases m <;> simp [hj, ha, inactiveLane]
  · rw [lane_resultVec _ _ _ _ _ _ (lanes_le vl), if_neg (by omega)]

/-- The bits of a flag set. -/
theorem getLsbD_bits (f : FpFlags) (b : Nat) :
    f.bits.getLsbD b = ((b == 0 && f.ie) || (b == 1 && f.de) || (b == 3 && f.oe) || (b == 4 && f.ue) || (b == 5 && f.pe)) := by
  by_cases hb : b < 6
  · obtain ⟨ie, de, oe, ue, pe⟩ := f
    interval_cases b <;> revert ie de oe ue pe <;> decide
  · rw [BitVec.getLsbD_of_ge _ _ (by omega)]
    simp [show b ≠ 0 by omega, show b ≠ 1 by omega, show b ≠ 3 by omega, show b ≠ 4 by omega, show b ≠ 5 by omega]

/-- OR-ing the union of the flags is what FlagsOred asks for. -/
theorem flagsOred_union (s : State) (vl : VecLen) (m : Writemask) (r : Nat → LaneResult) :
    FlagsOred s vl m (s.mxcsr ||| (unionFlags (lanes vl) (s.active m) r).bits.setWidth 32) r := by
  have key : ∀ b, (s.mxcsr ||| (unionFlags (lanes vl) (s.active m) r).bits.setWidth 32).getLsbD b
      = (s.mxcsr.getLsbD b || (unionFlags (lanes vl) (s.active m) r).bits.getLsbD b) := by
    intro b
    rw [BitVec.getLsbD_or, BitVec.getLsbD_setWidth]
    by_cases hb : b < 32
    · simp [hb]
    · simp [hb, BitVec.getLsbD_of_ge (unionFlags (lanes vl) (s.active m) r).bits b (by omega)]
  refine ⟨?_, ?_, ?_, ?_, ?_, fun b hb => ?_⟩
  · rw [key, getLsbD_bits]; simp [unionFlags, someLane_iff]
  · rw [key, getLsbD_bits]; simp [unionFlags, someLane_iff]
  · rw [key, getLsbD_bits]; simp [unionFlags, someLane_iff]
  · rw [key, getLsbD_bits]; simp [unionFlags, someLane_iff]
  · rw [key, getLsbD_bits]; simp [unionFlags, someLane_iff]
  · rw [key, getLsbD_bits]
    have : b ≠ 0 ∧ b ≠ 1 ∧ b ≠ 3 ∧ b ≠ 4 ∧ b ≠ 5 := by omega
    simp [this]

/-! ### Trapping -/

/-- Some flag traps exactly where one of the five detected conditions is unmasked. -/
theorem trapping_any (s : State) (f : FpFlags) :
    (trapping s f).any = ((!s.im && f.ie) || (!s.dm && f.de) || (!s.om && f.oe) || (!s.um && f.ue) || (!s.pm && f.pe)) := by
  have key : ∀ a b c d e : Bool,
      (if (FpFlags.mk a b false false false).any then FpFlags.mk a b false false false
        else FpFlags.mk false false c d e).any = (a || b || c || d || e) := by decide
  exact key _ _ _ _ _

/-- One condition is not unmasked exactly where every active lane that shows it finds it masked. -/
theorem masked_iff (m : Bool) (kl : Nat) (act p : Nat → Bool) :
    (!m && someLane kl act p) = false ↔ ∀ j < kl, act j = true → p j = true → m = true := by
  cases m with
  | true => simp
  | false => simp [someLane, List.any_eq_false]

/-- An instruction does not trap exactly where no active lane detects an unmasked condition. -/
theorem trapping_none (s : State) (kl : Nat) (act : Nat → Bool) (r : Nat → LaneResult) :
    (trapping s (detectedFlags s kl act r)).any = false ↔ NoUnmasked s kl act r := by
  have hu : (!s.um && (someLane kl act (fun j => (r j).flags.ue) || (!s.um && someLane kl act fun j => (r j).tiny)))
      = ((!s.um && someLane kl act fun j => (r j).flags.ue) || (!s.um && someLane kl act fun j => (r j).tiny)) := by
    cases s.um <;> simp
  rw [trapping_any]
  simp only [detectedFlags, unionFlags, hu, Bool.or_eq_false_iff, masked_iff]
  constructor
  · rintro ⟨⟨⟨⟨h1, h2⟩, h3⟩, h4, h6⟩, h5⟩ j hj ha
    exact ⟨h1 j hj ha, h2 j hj ha, h3 j hj ha, h4 j hj ha, h5 j hj ha, h6 j hj ha⟩
  · intro h
    exact ⟨⟨⟨⟨fun j hj ha => (h j hj ha).1, fun j hj ha => (h j hj ha).2.1⟩, fun j hj ha => (h j hj ha).2.2.1⟩,
      fun j hj ha => (h j hj ha).2.2.2.1, fun j hj ha => (h j hj ha).2.2.2.2.2⟩,
      fun j hj ha => (h j hj ha).2.2.2.2.1⟩

/-- With all exceptions masked no condition is unmasked. -/
theorem noUnmasked_of_allMasked (s : State) (h : AllMasked s) (kl : Nat) (act : Nat → Bool) (r : Nat → LaneResult) :
    NoUnmasked s kl act r := by
  have bit : ∀ i < 6, s.mxcsr.getLsbD (7 + i) = true := by
    intro i hi
    have := congrArg (fun x => BitVec.getLsbD x i) h
    simp only [BitVec.getLsbD_extractLsb', hi, decide_true, Bool.true_and] at this
    rw [this]
    interval_cases i <;> decide
  intro j _ _
  exact ⟨fun _ => bit 0 (by decide), fun _ => bit 1 (by decide), fun _ => bit 3 (by decide), fun _ => bit 4 (by decide),
    fun _ => bit 5 (by decide), fun _ => bit 4 (by decide)⟩

/-! ### EXEC -/

/-- Everything `compute` can do: complete, or trap where there is no embedded rounding. -/
theorem compute_cases (s : State) (f : Fma) (vl : VecLen) (ilen : Nat) (m : Writemask) (dest src2 : VReg)
    (t3 : Nat → Half) (er : Option RoundMode) :
    (∃ v g, s.compute f vl ilen m dest src2 t3 er = .next (s.complete dest v g ilen) ∧ (er.isSome = true → g = 0)) ∨
    (∃ g, er = none ∧ g.getLsbD 2 = false ∧
      s.compute f vl ilen m dest src2 t3 er = takeException s.fpException g s) := by
  unfold State.compute
  cases er with
  | some rm => exact .inl ⟨_, _, rfl, fun _ => rfl⟩
  | none =>
    dsimp only
    split
    · refine .inr ⟨_, rfl, ?_, rfl⟩
      rw [recordedFlags, BitVec.getLsbD_or, BitVec.getLsbD_and, getLsbD_bits, getLsbD_bits]
      simp
    · exact .inl ⟨_, _, rfl, fun h => by simp at h⟩

/-- Everything `execute` can do: stop at entry, stop at operand 3, or compute. -/
theorem execute_cases (s : State) (f : Fma) (vl : VecLen) (ilen : Nat) (m : Writemask) (dest src2 : VReg)
    (third : Except Stop (Nat → Half)) (er : Option RoundMode) :
    (∃ stop, s.entryStop vl ilen = some stop ∧ s.execute f vl ilen m dest src2 third er = stop.outcome s) ∨
    (∃ stop, s.entryStop vl ilen = none ∧ third = .error stop ∧
      s.execute f vl ilen m dest src2 third er = stop.outcome s) ∨
    (∃ t3, s.entryStop vl ilen = none ∧ third = .ok t3 ∧
      s.execute f vl ilen m dest src2 third er = s.compute f vl ilen m dest src2 t3 er) := by
  unfold State.execute
  cases h : s.entryStop vl ilen with
  | some stop => exact .inl ⟨stop, rfl, rfl⟩
  | none =>
    cases third with
    | error stop => exact .inr (.inl ⟨stop, rfl, rfl, rfl⟩)
    | ok t3 => exact .inr (.inr ⟨t3, rfl, rfl, rfl⟩)

/-- Operand 3 of an instruction. -/
def third (i : Instr) (s : State) : Except Stop (Nat → Half) :=
  match i.parts.form with
  | .reg _ r => s.readReg r
  | .er r _ => s.readReg r
  | .mem vl op => s.readMem i.parts.leg (memLength i.parts.leg op) i.parts.mask vl op

/-- Every instruction is EXEC on its parts. -/
theorem exec_eq_execute (i : Instr) (s : State) :
    exec i s = s.execute i.parts.fma i.parts.form.vecLen i.length i.parts.mask i.parts.dest i.parts.src2 (third i s)
      i.parts.form.embedded := by
  cases i <;> rfl

/-- A stop is never a next state. -/
theorem stop_ne_next (s t : State) (stop : Stop) : stop.outcome s ≠ .next t := by
  cases stop <;> simp [Stop.outcome, takeException]

/-- What a next state of an instruction is: the instruction's destination, flags and length, and nothing else. -/
theorem exec_next (i : Instr) (s t : State) (h : exec i s = .next t) :
    ∃ v g, t = s.complete i.parts.dest v g i.length ∧ (i.parts.form.embedded.isSome = true → g = 0) := by
  rw [exec_eq_execute] at h
  rcases execute_cases s i.parts.fma i.parts.form.vecLen i.length i.parts.mask i.parts.dest i.parts.src2 (third i s)
    i.parts.form.embedded with ⟨stop, _, e⟩ | ⟨stop, _, _, e⟩ | ⟨t3, _, _, e⟩
  · rw [e] at h; exact absurd h (stop_ne_next _ _ _)
  · rw [e] at h; exact absurd h (stop_ne_next _ _ _)
  · rw [e] at h
    rcases compute_cases s i.parts.fma i.parts.form.vecLen i.length i.parts.mask i.parts.dest i.parts.src2 t3
      i.parts.form.embedded with ⟨v, g, e2, hg⟩ | ⟨g, _, _, e2⟩
    · rw [e2, Host.Outcome.next.injEq] at h; exact ⟨v, g, h.symm, hg⟩
    · rw [e2] at h; simp [takeException] at h

/-- A next state means the instruction was ready. -/
theorem exec_next_ready (i : Instr) (s t : State) (h : exec i s = .next t) : Ready s i.parts.form.vecLen i.length := by
  rw [exec_eq_execute] at h
  rcases execute_cases s i.parts.fma i.parts.form.vecLen i.length i.parts.mask i.parts.dest i.parts.src2 (third i s)
    i.parts.form.embedded with ⟨stop, _, e⟩ | ⟨stop, _, _, e⟩ | ⟨t3, hr, _, e⟩
  · rw [e] at h; exact absurd h (stop_ne_next _ _ _)
  · rw [e] at h; exact absurd h (stop_ne_next _ _ _)
  · exact (entryStop_none _ _ _).1 hr

/-- A ready instruction whose operand 3 is read and that detects nothing unmasked completes. -/
theorem execute_completes (s : State) (f : Fma) (vl : VecLen) (ilen : Nat) (m : Writemask) (dest src2 : VReg)
    (t3 : Nat → Half) (hr : Ready s vl ilen)
    (hq : NoUnmasked s (lanes vl) (s.active m)
      (laneResult f s.cfg.nanRule s.rc s.fpCtl (s.readZmm dest) (s.readZmm src2) t3)) :
    Completes (s.execute f vl ilen m dest src2 (.ok t3) none) s vl m dest
      (laneResult f s.cfg.nanRule s.rc s.fpCtl (s.readZmm dest) (s.readZmm src2) t3) ilen := by
  refine ⟨_, _, ?_, lanesWritten_resultVec s vl m _ _, flagsOred_union s vl m _⟩
  rw [State.execute, (entryStop_none _ _ _).2 hr]
  simp only [State.compute, Option.getD_none, (trapping_none _ _ _ _).2 hq, Bool.false_eq_true, if_false,
    complete_eq_after]

/-- A ready embedded-rounding form completes and leaves MXCSR as it was. -/
theorem execute_completesQuietly (s : State) (f : Fma) (vl : VecLen) (ilen : Nat) (m : Writemask) (dest src2 : VReg)
    (t3 : Nat → Half) (rm : RoundMode) (hr : Ready s vl ilen) :
    CompletesQuietly (s.execute f vl ilen m dest src2 (.ok t3) (some rm)) s vl m dest
      (laneResult f s.cfg.nanRule rm s.fpCtl (s.readZmm dest) (s.readZmm src2) t3) ilen := by
  refine ⟨_, ?_, lanesWritten_resultVec s vl m _ _⟩
  rw [State.execute, (entryStop_none _ _ _).2 hr]
  simp [State.compute, complete_eq_after]

/-! ### The lanes of each mnemonic -/

theorem laneResult_132 (s : State) (rm : RoundMode) (d s2 : Vec) (t3 : Nat → Half) :
    laneResult .f132 s.cfg.nanRule rm s.fpCtl d s2 t3 = lane132 s rm d s2 t3 := by
  funext j; by_cases h : j % 2 = 0 <;> simp [laneResult, lane132, roles, laneOp, h]

theorem laneResult_213 (s : State) (rm : RoundMode) (d s2 : Vec) (t3 : Nat → Half) :
    laneResult .f213 s.cfg.nanRule rm s.fpCtl d s2 t3 = lane213 s rm d s2 t3 := by
  funext j; by_cases h : j % 2 = 0 <;> simp [laneResult, lane213, roles, laneOp, h]

theorem laneResult_231 (s : State) (rm : RoundMode) (d s2 : Vec) (t3 : Nat → Half) :
    laneResult .f231 s.cfg.nanRule rm s.fpCtl d s2 t3 = lane231 s rm d s2 t3 := by
  funext j; by_cases h : j % 2 = 0 <;> simp [laneResult, lane231, roles, laneOp, h]

end Sys2Proof.Machine
end

