-- ==== Sys2Proof/Laws/Fp16.lean ====
section
/-! SUPPORT. Rounding as a choice between two neighbouring patterns. Magnitudes are numbered by the lower 15 bits of
a pattern; number 31744 stands for infinity and, in `magOf`, for 2^16. -/

namespace Sys2Proof.Machine

/-! ### The magnitude of a pattern by its number -/

/-- The magnitude of number `k`, in units of 2^-24 (R122). -/
def magOf (k : Nat) : Nat := if k < 1024 then k else (1024 + k % 1024) * 2 ^ (k / 1024 - 1)

theorem magOf_step (k : Nat) : magOf k < magOf (k + 1) := by
  unfold magOf
  by_cases h1 : k + 1 < 1024
  · simp [h1, show k < 1024 by omega]
  · by_cases h2 : k < 1024
    · obtain rfl : k = 1023 := by omega
      decide
    · simp only [h1, h2, if_false]
      by_cases h3 : k % 1024 = 1023
      · rw [show (k + 1) % 1024 = 0 by omega, show (k + 1) / 1024 - 1 = (k / 1024 - 1) + 1 by omega, h3, pow_succ]
        have := Nat.pos_of_ne_zero (Nat.pow_pos (a := 2) (n := k / 1024 - 1) (by decide)).ne'
        omega
      · rw [show (k + 1) % 1024 = k % 1024 + 1 by omega, show (k + 1) / 1024 = k / 1024 by omega]
        exact Nat.mul_lt_mul_of_pos_right (by omega) (Nat.pow_pos (by decide))

theorem magOf_strictMono : StrictMono magOf := strictMono_nat_of_lt_succ magOf_step

theorem magOf_le_iff (j k : Nat) : magOf j ≤ magOf k ↔ j ≤ k := magOf_strictMono.le_iff_le

/-- Magnitudes from a block number and a significand. -/
theorem magOf_block (b n : Nat) (h : b = 0 ∨ 1024 ≤ n) (hn : n ≤ 2048) : magOf (b * 1024 + n) = n * 2 ^ b := by
  unfold magOf
  by_cases h1 : n < 1024
  · obtain rfl : b = 0 := by omega
    simp [h1]
  · by_cases h2 : n = 2048
    · subst h2
      rw [if_neg (by omega), show (b * 1024 + 2048) % 1024 = 0 by omega, show (b * 1024 + 2048) / 1024 - 1 = b + 1 by omega,
        pow_succ]
      ring
    · rw [if_neg (by omega), show (b * 1024 + n) % 1024 = n - 1024 by omega, show (b * 1024 + n) / 1024 - 1 = b by omega,
        show 1024 + (n - 1024) = n by omega]

/-- The number of a pattern. -/
def number (h : Half) : Nat := h.toNat % 2 ^ 15

theorem number_lt (h : Half) : number h < 2 ^ 15 := Nat.mod_lt _ (by decide)

theorem toNat_fpExp (h : Half) : (fpExp h).toNat = number h / 1024 := by
  simp only [fpExp, number, BitVec.extractLsb'_toNat, Nat.shiftRight_eq_div_pow]
  omega

theorem toNat_fpFrac (h : Half) : (fpFrac h).toNat = number h % 1024 := by
  simp only [fpFrac, number, BitVec.extractLsb'_toNat, Nat.shiftRight_eq_div_pow]
  omega

theorem fpMag_eq (h : Half) : fpMag h = magOf (number h) := by
  have e : fpExp h = 0 ↔ number h < 1024 := by
    rw [← BitVec.toNat_inj, toNat_fpExp]
    simp only [BitVec.toNat_ofNat, BitVec.ofNat_eq_ofNat]
    omega
  unfold fpMag magOf
  by_cases h0 : number h < 1024
  · rw [if_pos (e.2 h0), if_pos h0, toNat_fpFrac]; omega
  · rw [if_neg (fun q => h0 (e.1 q)), if_neg h0, toNat_fpFrac, toNat_fpExp]

theorem finite_iff (h : Half) : IsFinite h ↔ number h < 31744 := by
  unfold IsFinite
  rw [ne_eq, ← BitVec.toNat_inj, toNat_fpExp]
  have := number_lt h
  simp only [BitVec.toNat_ofNat, BitVec.ofNat_eq_ofNat]
  omega

theorem toNat_withSign (s : Bool) (m : BitVec 15) : (withSign s m).toNat = (if s then 2 ^ 15 else 0) + m.toNat := by
  rw [withSign, BitVec.toNat_append]
  have := m.isLt
  cases s
  · simp
  · simp only [BitVec.toNat_ofBool, Bool.toNat_true, if_true]
    rw [← Nat.shiftLeft_add_eq_or_of_lt this]
    rfl

@[simp] theorem number_withSign (s : Bool) (m : BitVec 15) : number (withSign s m) = m.toNat := by
  have := m.isLt
  rw [number, toNat_withSign]
  cases s <;> simp <;> omega

theorem fpSign_iff (h : Half) : fpSign h = true ↔ 2 ^ 15 ≤ h.toNat := by
  have := h.isLt
  rw [fpSign, BitVec.getLsbD, Nat.testBit_eq_decide_div_mod_eq, decide_eq_true_eq]
  omega

@[simp] theorem fpSign_withSign (s : Bool) (m : BitVec 15) : fpSign (withSign s m) = s := by
  have := m.isLt
  have h := fpSign_iff (withSign s m)
  rw [toNat_withSign] at h
  cases s
  · rw [← Bool.not_eq_true]
    intro p
    have := h.1 p
    simp only [Bool.false_eq_true, if_false] at this
    omega
  · simpa using h

/-- A pattern is its sign and its number. -/
theorem withSign_number (h : Half) : withSign (fpSign h) (BitVec.ofNat 15 (number h)) = h := by
  apply BitVec.eq_of_toNat_eq
  have hl := h.isLt
  have hs := fpSign_iff h
  rw [toNat_withSign, BitVec.toNat_ofNat, number]
  by_cases q : fpSign h = true
  · rw [if_pos q]; have := hs.1 q; omega
  · rw [if_neg q]; have : ¬ 2 ^ 15 ≤ h.toNat := fun p => q (hs.2 p); omega

/-! ### Rounding a quotient -/

theorem roundQuot_bounds (a d : Nat) (rm : RoundMode) (neg : Bool) :
    a / d ≤ roundQuot a d rm neg ∧ roundQuot a d rm neg ≤ a / d + 1 := by
  unfold roundQuot
  cases rm
  · dsimp only
    split
    · omega
    · split
      · omega
      · omega
  · dsimp only; split <;> omega
  · dsimp only; split <;> omega
  · dsimp only; omega

/-- A quotient without remainder is not changed. -/
theorem roundQuot_exact (a d : Nat) (rm : RoundMode) (neg : Bool) (hd : 0 < d) (h : a % d = 0) :
    roundQuot a d rm neg = a / d := by
  unfold roundQuot
  cases rm <;> simp [h, hd]

/-- Rounding a quotient depends on the quotient alone. -/
theorem roundQuot_scale (a d c : Nat) (rm : RoundMode) (neg : Bool) (hc : 0 < c) :
    roundQuot (a * c) (d * c) rm neg = roundQuot a d rm neg := by
  unfold roundQuot
  rw [Nat.mul_div_mul_right _ _ hc, Nat.mul_mod_mul_right]
  have h1 : 2 * (a % d * c) < d * c ↔ 2 * (a % d) < d := by
    rw [← mul_assoc]; exact Nat.mul_lt_mul_right hc
  have h2 : d * c < 2 * (a % d * c) ↔ d < 2 * (a % d) := by
    rw [← mul_assoc]; exact Nat.mul_lt_mul_right hc
  have h3 : a % d * c ≠ 0 ↔ a % d ≠ 0 := by
    rw [Nat.mul_ne_zero_iff]; exact and_iff_left hc.ne'
  simp only [h1, h2, h3]

/-- Whether a mode rounds a magnitude toward zero whatever the remainder. -/
def truncates (rm : RoundMode) (neg : Bool) : Prop := rm = .rz ∨ (rm = .rd ∧ neg = false) ∨ (rm = .ru ∧ neg = true)

/-- Whether a mode rounds a magnitude up whenever there is a remainder. -/
def augments (rm : RoundMode) (neg : Bool) : Prop := (rm = .rd ∧ neg = true) ∨ (rm = .ru ∧ neg = false)

theorem roundQuot_truncates (a d : Nat) (rm : RoundMode) (neg : Bool) (h : truncates rm neg) :
    roundQuot a d rm neg = a / d := by
  rcases h with rfl | ⟨rfl, rfl⟩ | ⟨rfl, rfl⟩ <;> simp [roundQuot]

theorem roundQuot_augments (a d : Nat) (rm : RoundMode) (neg : Bool) (h : augments rm neg) :
    roundQuot a d rm neg = if a % d = 0 then a / d else a / d + 1 := by
  rcases h with ⟨rfl, rfl⟩ | ⟨rfl, rfl⟩ <;> by_cases q : a % d = 0 <;> simp [roundQuot, q]

/-! ### The two neighbours of a magnitude -/

/-- The distance of neighbouring magnitudes around `a`, in units of 2^-48. -/
def unitOf (a : Nat) : Nat := 2 ^ (max a.log2 34 - 10)

/-- The block of numbers `a` falls into. -/
def blockOf (a : Nat) : Nat := max a.log2 34 - 34

/-- The number of the greatest magnitude not above `a`. -/
def floorNumber (a : Nat) : Nat := blockOf a * 1024 + a / unitOf a

/-- The number `a` is rounded to; 31744 or more is an overflow. -/
def roundNumber (a : Nat) (rm : RoundMode) (neg : Bool) : Nat := blockOf a * 1024 + roundQuot a (unitOf a) rm neg

theorem unitOf_pos (a : Nat) : 0 < unitOf a := Nat.pow_pos (by decide)

theorem unitOf_eq (a : Nat) : unitOf a = 2 ^ blockOf a * 2 ^ 24 := by
  rw [unitOf, blockOf, ← pow_add]
  congr 1
  omega

/-- The quotient by the unit is below 2048, and from 1024 on outside the first block. -/
theorem quot_bounds (a : Nat) (h : a ≠ 0) : a / unitOf a < 2048 ∧ (blockOf a = 0 ∨ 1024 ≤ a / unitOf a) := by
  have h1 : 2 ^ a.log2 ≤ a := Nat.log2_self_le h
  have h2 : a < 2 ^ (a.log2 + 1) := Nat.lt_log2_self
  constructor
  · rw [Nat.div_lt_iff_lt_mul (unitOf_pos a), unitOf, show 2048 = 2 ^ 11 by decide, ← pow_add]
    exact lt_of_lt_of_le h2 (Nat.pow_le_pow_right (by decide) (by omega))
  · by_cases q : a.log2 ≤ 34
    · exact .inl (by unfold blockOf; omega)
    · refine .inr ?_
      rw [Nat.le_div_iff_mul_le (unitOf_pos a), unitOf, show 1024 = 2 ^ 10 by decide, ← pow_add]
      exact le_trans (Nat.pow_le_pow_right (by decide) (by omega)) h1

/-- The magnitude of a number in the block of `a`. -/
theorem magOf_number (a n : Nat) (h : blockOf a = 0 ∨ 1024 ≤ n) (hn : n ≤ 2048) :
    magOf (blockOf a * 1024 + n) * 2 ^ 24 = n * unitOf a := by
  rw [magOf_block _ _ h hn, unitOf_eq]; ring

/-- The magnitude just below or at `a`. -/
theorem magOf_floor (a : Nat) (h : a ≠ 0) : magOf (floorNumber a) * 2 ^ 24 = a / unitOf a * unitOf a := by
  obtain ⟨h1, h2⟩ := quot_bounds a h
  exact magOf_number a _ h2 (by omega)

/-- The magnitude just above `a`. -/
theorem magOf_ceil (a : Nat) (h : a ≠ 0) : magOf (floorNumber a + 1) * 2 ^ 24 = (a / unitOf a + 1) * unitOf a := by
  obtain ⟨h1, h2⟩ := quot_bounds a h
  rw [floorNumber, add_assoc]
  exact magOf_number a _ (by omega) (by omega)

/-- The magnitudes not above `a`. -/
theorem le_floor_iff (a k : Nat) (h : a ≠ 0) : magOf k * 2 ^ 24 ≤ a ↔ k ≤ floorNumber a := by
  constructor
  · intro q
    by_contra hk
    have h1 := (magOf_le_iff (floorNumber a + 1) k).2 (by omega)
    have h2 := magOf_ceil a h
    have h3 := Nat.lt_div_mul_add (a := a) (unitOf_pos a)
    have h4 : magOf (floorNumber a + 1) * 2 ^ 24 ≤ magOf k * 2 ^ 24 := Nat.mul_le_mul_right _ h1
    rw [h2, add_mul, one_mul] at h4
    omega
  · intro q
    have h1 := (magOf_le_iff k (floorNumber a)).2 q
    have h2 := magOf_floor a h
    have h3 := Nat.div_mul_le_self a (unitOf a)
    have h4 : magOf k * 2 ^ 24 ≤ magOf (floorNumber a) * 2 ^ 24 := Nat.mul_le_mul_right _ h1
    omega

/-- Where there is a remainder, `a` lies strictly between its neighbours; otherwise it is the lower one. -/
theorem floor_exact_iff (a : Nat) (h : a ≠ 0) : magOf (floorNumber a) * 2 ^ 24 = a ↔ a % unitOf a = 0 := by
  rw [magOf_floor a h]
  have := Nat.div_add_mod' a (unitOf a)
  omega

theorem roundNumber_bounds (a : Nat) (rm : RoundMode) (neg : Bool) :
    floorNumber a ≤ roundNumber a rm neg ∧ roundNumber a rm neg ≤ floorNumber a + 1 := by
  have := roundQuot_bounds a (unitOf a) rm neg
  unfold floorNumber roundNumber
  omega

/-! ### `roundMag` as a choice of a number -/

/-- A magnitude rounded to 11 bits with unbounded exponent stays below 2^-14. -/
def tinyMag (a : Nat) (rm : RoundMode) (neg : Bool) : Bool := decide (a < 2 ^ 34 ∧ roundQuot a (2 ^ 23) rm neg < 2048)

/-- Rounding up to 2048 at the top of the tiny range is rounding up to the smallest normal. -/
theorem roundQuot_top (a : Nat) (rm : RoundMode) (neg : Bool) (h : a < 2 ^ 34) (hn : roundQuot a (2 ^ 23) rm neg = 2048) :
    roundQuot a (2 ^ 24) rm neg = 1024 ∧ a % 2 ^ 23 ≠ 0 ∧ a % 2 ^ 24 ≠ 0 := by
  have hr : a % 2 ^ 23 ≠ 0 := by
    intro q
    have := roundQuot_exact a (2 ^ 23) rm neg (by decide) q
    omega
  have h1 : a / 2 ^ 23 = 2047 := by
    have := roundQuot_bounds a (2 ^ 23) rm neg
    omega
  refine ⟨?_, hr, by omega⟩
  unfold roundQuot at hn ⊢
  cases rm
  · dsimp only at hn ⊢
    rw [if_neg (by omega), if_pos (by omega)]
    omega
  · dsimp only at hn ⊢
    have : neg = true := by
      by_contra q
      rw [if_neg (fun p => q p.2)] at hn
      omega
    rw [if_pos ⟨by omega, this⟩]
    omega
  · dsimp only at hn ⊢
    have : neg = false := by
      by_contra q
      rw [if_neg (fun p => q p.2)] at hn
      omega
    rw [if_pos ⟨by omega, this⟩]
    omega
  · dsimp only at hn ⊢
    omega

/-- `Round` of R126 gives the pattern of a rounded number, or the overflow result of R127. -/
theorem roundMag_eq (a : Nat) (neg : Bool) (rm : RoundMode) (h : a ≠ 0) :
    roundMag a neg rm =
      if 31744 ≤ roundNumber a rm neg then ⟨overflowResult neg rm, ⟨false, false, true, false, true⟩, false⟩
      else
        ⟨withSign neg (BitVec.ofNat 15 (roundNumber a rm neg)),
          ⟨false, false, false, tinyMag a rm neg && decide (a % unitOf a ≠ 0), decide (a % unitOf a ≠ 0)⟩,
          tinyMag a rm neg⟩ := by
  have h1 : 2 ^ a.log2 ≤ a := Nat.log2_self_le h
  have h2 : a < 2 ^ (a.log2 + 1) := Nat.lt_log2_self
  by_cases c1 : a.log2 < 34
  · -- the first block: the unit is 2^24
    have hb : blockOf a = 0 := by unfold blockOf; omega
    have hu : unitOf a = 2 ^ 24 := by rw [unitOf_eq, hb]; rfl
    have ha : a < 2 ^ 34 := lt_of_lt_of_le h2 (Nat.pow_le_pow_right (by decide) (by omega))
    have hq := roundQuot_bounds a (2 ^ 24) rm neg
    have hn : roundNumber a rm neg = roundQuot a (2 ^ 24) rm neg := by rw [roundNumber, hb, hu]; omega
    rw [if_neg (by rw [hn]; omega), hn, hu]
    by_cases c2 : a.log2 = 33
    · have hs : roundQuot (a * 2 ^ 10) (2 ^ 33) rm neg = roundQuot a (2 ^ 23) rm neg := by
        exact roundQuot_scale a (2 ^ 23) (2 ^ 10) rm neg (by decide)
      by_cases c3 : roundQuot a (2 ^ 23) rm neg = 2048
      · obtain ⟨t1, t2, t3⟩ := roundQuot_top a rm neg ha c3
        have ht : tinyMag a rm neg = false := decide_eq_false (fun q => by omega)
        have hi : a * 2 ^ 10 % 2 ^ 33 ≠ 0 := by omega
        simp only [roundMag, c2, hs, c3, if_true, ht, t1, t3, ne_eq, not_false_eq_true, decide_true, Bool.false_and, hi]
        rfl
      · have hlt : roundQuot a (2 ^ 23) rm neg < 2048 := by
          have := roundQuot_bounds a (2 ^ 23) rm neg
          omega
        have ht : tinyMag a rm neg = true := decide_eq_true ⟨ha, hlt⟩
        simp only [roundMag, c2, hs, c3, if_false, ht, Bool.true_and]
        rfl
    · have ha' : a < 2 ^ 33 := lt_of_lt_of_le h2 (Nat.pow_le_pow_right (by decide) (by omega))
      have hlt : roundQuot a (2 ^ 23) rm neg < 2048 := by
        have := roundQuot_bounds a (2 ^ 23) rm neg
        omega
      have ht : tinyMag a rm neg = true := decide_eq_true ⟨lt_trans ha' (by decide), hlt⟩
      simp only [roundMag, ht, Bool.true_and]
      split
      · rw [if_neg (by omega), if_neg (by omega)]
      · rw [if_neg (by omega), if_neg (by omega)]
  · -- blocks of 1024 numbers each
    have hb : blockOf a = a.log2 - 34 := by unfold blockOf; omega
    have hu : unitOf a = 2 ^ (a.log2 - 10) := by unfold unitOf; congr 1; omega
    have hl : 2 ^ a.log2 = unitOf a * 2 ^ 10 := by rw [hu, ← pow_add]; congr 1; omega
    have hs : roundQuot (a * 2 ^ 10) (2 ^ a.log2) rm neg = roundQuot a (unitOf a) rm neg := by
      rw [hl]; exact roundQuot_scale _ _ _ _ _ (by decide)
    have hm : a * 2 ^ 10 % 2 ^ a.log2 ≠ 0 ↔ a % unitOf a ≠ 0 := by
      rw [hl, Nat.mul_mod_mul_right, Nat.mul_ne_zero_iff]
      exact and_iff_left (by decide)
    have ha : ¬ a < 2 ^ 34 := by
      have := Nat.pow_le_pow_right (n := 2) (by decide) (show 34 ≤ a.log2 by omega)
      omega
    have ht : tinyMag a rm neg = false := decide_eq_false (fun q => ha q.1)
    obtain ⟨q1, q2⟩ := quot_bounds a h
    have q3 : 1024 ≤ a / unitOf a := by
      rw [Nat.le_div_iff_mul_le (unitOf_pos a), hu, show 1024 = 2 ^ 10 by decide, ← pow_add]
      exact le_trans (Nat.pow_le_pow_right (by decide) (by omega)) h1
    have hq := roundQuot_bounds a (unitOf a) rm neg
    have hn : roundNumber a rm neg = (a.log2 - 34) * 1024 + roundQuot a (unitOf a) rm neg := by rw [roundNumber, hb]
    simp only [roundMag, hs, hm, ht, Bool.false_and]
    by_cases c3 : roundQuot a (unitOf a) rm neg = 2048
    · simp only [c3, if_true]
      by_cases c4 : 63 < a.log2 + 1
      · rw [if_pos c4, if_pos (by omega)]
      · rw [if_neg c4, if_pos (show 34 ≤ a.log2 + 1 by omega), if_neg (show ¬ 31744 ≤ roundNumber a rm neg by omega), hn, c3,
          show (a.log2 + 1 - 33) * 1024 + (1024 - 1024) = (a.log2 - 34) * 1024 + 2048 by omega]
    · simp only [c3, if_false]
      by_cases c4 : 63 < a.log2
      · rw [if_pos c4, if_pos (by omega)]
      · rw [if_neg c4, if_pos (show 34 ≤ a.log2 by omega), if_neg (show ¬ 31744 ≤ roundNumber a rm neg by omega), hn,
          show (a.log2 - 33) * 1024 + (roundQuot a (unitOf a) rm neg - 1024)
            = (a.log2 - 34) * 1024 + roundQuot a (unitOf a) rm neg by omega]

/-! ### What each kind of mode chooses -/

/-- A truncating mode takes the lower neighbour. -/
theorem roundNumber_truncates (a : Nat) (rm : RoundMode) (neg : Bool) (h : truncates rm neg) :
    roundNumber a rm neg = floorNumber a := by
  rw [roundNumber, roundQuot_truncates _ _ _ _ h, floorNumber]

/-- The magnitudes an augmenting mode may not go below. -/
theorem roundNumber_augments (a k : Nat) (rm : RoundMode) (neg : Bool) (h : augments rm neg) (ha : a ≠ 0) :
    roundNumber a rm neg ≤ k ↔ a ≤ magOf k * 2 ^ 24 := by
  have hf := le_floor_iff a
  have he := floor_exact_iff a ha
  rw [roundNumber, roundQuot_augments _ _ _ _ h]
  by_cases q : a % unitOf a = 0
  · rw [if_pos q, ← floorNumber]
    rw [← he] at q
    constructor
    · intro p
      have := (magOf_le_iff (floorNumber a) k).2 p
      omega
    · intro p
      by_contra hk
      have := magOf_strictMono (show k < floorNumber a by omega)
      omega
  · rw [if_neg q, ← add_assoc, ← floorNumber]
    constructor
    · intro p
      by_contra hk
      have := (hf k ha).1 (by omega)
      omega
    · intro p
      by_contra hk
      have h1 := (hf k ha).2 (by omega)
      have h2 : magOf k * 2 ^ 24 = a := by omega
      have h3 : floorNumber a = k := by
        have h4 := (hf (floorNumber a) ha).2 le_rfl
        have h5 : magOf (floorNumber a) ≤ magOf k := by omega
        have h6 := (magOf_le_iff (floorNumber a) k).1 h5
        omega
      rw [← h3] at h2
      exact q (he.1 h2)

/-- Nearest takes the nearer neighbour, and of two as near the one with an even number. -/
theorem roundNumber_nearest (a : Nat) (neg : Bool) :
    roundNumber a .rne neg =
      if 2 * (a % unitOf a) < unitOf a then floorNumber a
      else if unitOf a < 2 * (a % unitOf a) then floorNumber a + 1
      else floorNumber a + floorNumber a % 2 := by
  unfold roundNumber roundQuot floorNumber
  dsimp only
  split
  · rfl
  · split
    · omega
    · omega

/-- Of all magnitudes none is nearer to `a` than the one nearest takes; where another is as near, its number is even. -/
theorem nearest_spec (a j : Nat) (neg : Bool) (h : a ≠ 0) :
    ((magOf (roundNumber a .rne neg) * 2 ^ 24 : Int) - a).natAbs ≤ ((magOf j * 2 ^ 24 : Int) - a).natAbs ∧
    (magOf j ≠ magOf (roundNumber a .rne neg) →
      ((magOf (roundNumber a .rne neg) * 2 ^ 24 : Int) - a).natAbs = ((magOf j * 2 ^ 24 : Int) - a).natAbs →
      roundNumber a .rne neg % 2 = 0) := by
  have h1 := magOf_floor a h
  have h2 := magOf_ceil a h
  have h3 := Nat.div_add_mod' a (unitOf a)
  have h4 := Nat.mod_lt a (unitOf_pos a)
  rw [add_mul, one_mul] at h2
  rw [roundNumber_nearest]
  rcases Nat.lt_or_ge j (floorNumber a) with q | q
  · have h5 := magOf_strictMono q
    split
    · constructor <;> omega
    · split
      · constructor <;> omega
      · rcases Nat.mod_two_eq_zero_or_one (floorNumber a) with p | p
        · rw [p, Nat.add_zero]; constructor <;> omega
        · rw [p]; constructor <;> omega
  · rcases Nat.eq_or_lt_of_le q with rfl | q
    · split
      · constructor <;> omega
      · split
        · constructor <;> omega
        · rcases Nat.mod_two_eq_zero_or_one (floorNumber a) with p | p
          · rw [p, Nat.add_zero]; constructor <;> omega
          · rw [p]; constructor <;> omega
    · have h5 := (magOf_le_iff (floorNumber a + 1) j).2 q
      split
      · constructor <;> omega
      · split
        · constructor <;> omega
        · rcases Nat.mod_two_eq_zero_or_one (floorNumber a) with p | p
          · rw [p, Nat.add_zero]; constructor <;> omega
          · rw [p]; constructor <;> omega

/-! ### Overflow and tininess in numbers -/

/-- Every mode truncates, augments or is nearest. -/
theorem mode_cases (rm : RoundMode) (neg : Bool) : truncates rm neg ∨ augments rm neg ∨ rm = .rne := by
  cases rm <;> cases neg <;> simp [truncates, augments]

/-- Where a rounded number overflows. -/
theorem overflow_iff (v : Int) (rm : RoundMode) (h : v ≠ 0) :
    31744 ≤ roundNumber v.natAbs rm (decide (v < 0)) ↔ Overflows v rm := by
  have ha : v.natAbs ≠ 0 := by omega
  have m1 : magOf 31744 = 2 ^ 40 := by decide
  have m2 : magOf 31743 = 65504 * 2 ^ 24 := by decide
  have ht : truncates rm (decide (v < 0)) →
      (31744 ≤ roundNumber v.natAbs rm (decide (v < 0)) ↔ 65536 * 2 ^ 48 ≤ v.natAbs) := by
    intro q
    rw [roundNumber_truncates _ _ _ q, ← le_floor_iff _ _ ha, m1]
    omega
  have hu : augments rm (decide (v < 0)) →
      (31744 ≤ roundNumber v.natAbs rm (decide (v < 0)) ↔ 65504 * 2 ^ 48 < v.natAbs) := by
    intro q
    have := roundNumber_augments v.natAbs 31743 rm _ q ha
    rw [m2] at this
    omega
  cases rm
  · -- nearest
    have h1 := magOf_floor v.natAbs ha
    have h2 := magOf_ceil v.natAbs ha
    have h3 := Nat.div_add_mod' v.natAbs (unitOf v.natAbs)
    have h4 := Nat.mod_lt v.natAbs (unitOf_pos v.natAbs)
    rw [add_mul, one_mul] at h2
    show _ ↔ 65520 * 2 ^ 48 ≤ v.natAbs
    rw [roundNumber_nearest]
    rcases Nat.lt_or_ge (floorNumber v.natAbs) 31743 with q | q
    · have h5 := (magOf_le_iff (floorNumber v.natAbs + 1) 31743).2 q
      split
      · omega
      · split
        · omega
        · omega
    · rcases Nat.eq_or_lt_of_le q with q | q
      · rw [← q, m2] at h1
        rw [← q, m1] at h2
        rw [← q]
        split
        · omega
        · split
          · omega
          · omega
      · have h5 := (magOf_le_iff 31744 (floorNumber v.natAbs)).2 q
        split
        · omega
        · split
          · omega
          · omega
  · by_cases n : v < 0
    · simpa [Overflows, n] using hu (.inl ⟨rfl, by simp [n]⟩)
    · simpa [Overflows, n] using ht (.inr (.inl ⟨rfl, by simp [n]⟩))
  · by_cases n : v < 0
    · simpa [Overflows, n] using ht (.inr (.inr ⟨rfl, by simp [n]⟩))
    · simpa [Overflows, n] using hu (.inr ⟨rfl, by simp [n]⟩)
  · exact ht (.inl rfl)

/-- Where a rounded magnitude is tiny. -/
theorem tinyMag_iff (v : Int) (rm : RoundMode) : tinyMag v.natAbs rm (decide (v < 0)) = true ↔ IsTiny v rm := by
  rw [tinyMag, decide_eq_true_eq]
  cases rm
  · simp only [IsTiny, roundQuot]
    split
    · omega
    · split <;> omega
  · by_cases n : v < 0 <;> simp only [IsTiny, roundQuot, n, decide_true, decide_false, if_true, if_false, and_true,
      and_false, Bool.false_eq_true]
    · split <;> omega
    · omega
  · by_cases n : v < 0 <;> simp only [IsTiny, roundQuot, n, decide_true, decide_false, if_true, if_false, and_true,
      and_false, Bool.true_eq_false]
    · omega
    · split <;> omega
  · simp only [IsTiny, roundQuot]
    omega

/-- A tiny magnitude is in the first block, where numbers count units. -/
theorem tiny_unit (a : Nat) (rm : RoundMode) (neg : Bool) (h : a ≠ 0) (ht : tinyMag a rm neg = true) :
    unitOf a = 2 ^ 24 := by
  have h1 : a < 2 ^ 34 := (of_decide_eq_true ht).1
  have h2 : a.log2 < 34 := (Nat.log2_lt h).2 h1
  rw [unitOf, show max a.log2 34 - 10 = 24 by omega]

/-! ### The operation on finite operands -/

/-- IsFinite patterns are neither NaN nor infinity. -/
theorem finite_not (h : Half) (q : IsFinite h) : isNan h = false ∧ isInf h = false := by
  have : (fpExp h == 31) = false := beq_false_of_ne q
  simp only [isNan, isInf, this, Bool.false_and, and_self]

/-- On finite operands used at their value, FMA16 is the rounded exact value with the Denormal flag. -/
theorem fma16_finite (rule : NanRule) (x y z : Half) (op : LaneOp) (rm : RoundMode) (ctl : FpCtl)
    (hd : ctl.daz = false) (hx : IsFinite x) (hy : IsFinite y) (hz : IsFinite z) :
    fma16 rule x y z op rm ctl = (finiteResult x y z op rm ctl).withDe (denormalFlags x y z).de := by
  obtain ⟨x1, x2⟩ := finite_not x hx
  obtain ⟨y1, y2⟩ := finite_not y hy
  obtain ⟨z1, z2⟩ := finite_not z hz
  simp [fma16, flushDenormal, hd, fmaCases, x1, x2, y1, y2, z1, z2]

/-- The same for a value that is not 0 and without flushing: `Round` of R126. -/
theorem fma16_round (rule : NanRule) (x y z : Half) (op : LaneOp) (rm : RoundMode) (um : Bool)
    (hx : IsFinite x) (hy : IsFinite y) (hz : IsFinite z) (hv : exactValue x y z op ≠ 0) :
    fma16 rule x y z op rm ⟨false, false, um⟩ =
      (roundMag (exactValue x y z op).natAbs (decide (exactValue x y z op < 0)) rm).withDe (denormalFlags x y z).de := by
  rw [fma16_finite _ _ _ _ _ _ _ rfl hx hy hz]
  simp [finiteResult, hv]

/-- The value of a pattern by sign and number. -/
theorem fpValue_eq (h : Half) : fpValue h = if fpSign h then -(magOf (number h) : Int) else magOf (number h) := by
  rw [fpValue, fpMag_eq]

/-- The result of rounding a magnitude that does not overflow. -/
theorem roundMag_small (a : Nat) (neg : Bool) (rm : RoundMode) (h : a ≠ 0) (hk : roundNumber a rm neg < 31744) :
    fpSign (roundMag a neg rm).value = neg ∧ number (roundMag a neg rm).value = roundNumber a rm neg := by
  rw [roundMag_eq a neg rm h, if_neg (by omega)]
  refine ⟨fpSign_withSign _ _, ?_⟩
  rw [number_withSign, BitVec.toNat_ofNat]
  exact Nat.mod_eq_of_lt (by omega)

/-- The result of an overflow. -/
theorem roundMag_overflow (a : Nat) (neg : Bool) (rm : RoundMode) (h : a ≠ 0) (hk : 31744 ≤ roundNumber a rm neg) :
    roundMag a neg rm = ⟨overflowResult neg rm, ⟨false, false, true, false, true⟩, false⟩ := by
  rw [roundMag_eq a neg rm h, if_pos hk]

/-- A truncating mode delivers the greatest magnitude not above `a`, the largest finite one at most. -/
theorem roundMag_truncates (a : Nat) (neg : Bool) (rm : RoundMode) (h : a ≠ 0) (ht : truncates rm neg) :
    fpSign (roundMag a neg rm).value = neg ∧ number (roundMag a neg rm).value < 31744 ∧
    ∀ j < 31744, j ≤ number (roundMag a neg rm).value ↔ magOf j * 2 ^ 24 ≤ a := by
  by_cases hk : roundNumber a rm neg < 31744
  · obtain ⟨h1, h2⟩ := roundMag_small a neg rm h hk
    refine ⟨h1, by omega, fun j _ => ?_⟩
    rw [h2, roundNumber_truncates _ _ _ ht, le_floor_iff _ _ h]
  · rw [roundMag_overflow a neg rm h (by omega)]
    have e : overflowResult neg rm = withSign neg 0x7BFF := by
      rcases ht with rfl | ⟨rfl, rfl⟩ | ⟨rfl, rfl⟩ <;> rfl
    simp only [e, fpSign_withSign, number_withSign, true_and]
    rw [show (0x7BFF : BitVec 15).toNat = 31743 from rfl]
    refine ⟨by decide, fun j hj => ?_⟩
    rw [le_floor_iff _ _ h]
    rw [roundNumber_truncates _ _ _ ht] at hk
    omega

/-- An augmenting mode delivers the least magnitude not below `a`, or infinity where there is none. -/
theorem roundMag_augments (a : Nat) (neg : Bool) (rm : RoundMode) (h : a ≠ 0) (ht : augments rm neg) :
    fpSign (roundMag a neg rm).value = neg ∧ number (roundMag a neg rm).value ≤ 31744 ∧
    ∀ j < 31744, number (roundMag a neg rm).value ≤ j ↔ a ≤ magOf j * 2 ^ 24 := by
  by_cases hk : roundNumber a rm neg < 31744
  · obtain ⟨h1, h2⟩ := roundMag_small a neg rm h hk
    refine ⟨h1, by omega, fun j _ => ?_⟩
    rw [h2, roundNumber_augments _ _ _ _ ht h]
  · rw [roundMag_overflow a neg rm h (by omega)]
    have e : overflowResult neg rm = withSign neg 0x7C00 := by
      rcases ht with ⟨rfl, rfl⟩ | ⟨rfl, rfl⟩ <;> rfl
    simp only [e, fpSign_withSign, number_withSign, true_and]
    rw [show (0x7C00 : BitVec 15).toNat = 31744 from rfl]
    refine ⟨le_rfl, fun j hj => ?_⟩
    rw [← roundNumber_augments _ _ _ _ ht h]
    omega

/-- How far the rounded value is from the exact one, and when it is the exact one. -/
theorem roundMag_error (v : Int) (rm : RoundMode) (hv : v ≠ 0)
    (hk : roundNumber v.natAbs rm (decide (v < 0)) < 31744) :
    (fpValue (roundMag v.natAbs (decide (v < 0)) rm).value * 2 ^ 24 = v ↔ v.natAbs % unitOf v.natAbs = 0) ∧
    (fpValue (roundMag v.natAbs (decide (v < 0)) rm).value * 2 ^ 24 - v).natAbs < unitOf v.natAbs := by
  have ha : v.natAbs ≠ 0 := by omega
  obtain ⟨h1, h2⟩ := roundMag_small v.natAbs (decide (v < 0)) rm ha hk
  have hb := roundNumber_bounds v.natAbs rm (decide (v < 0))
  have f1 := magOf_floor v.natAbs ha
  have f2 := magOf_ceil v.natAbs ha
  have f3 := Nat.div_add_mod' v.natAbs (unitOf v.natAbs)
  have f4 := Nat.mod_lt v.natAbs (unitOf_pos v.natAbs)
  rw [add_mul, one_mul] at f2
  have hex : v.natAbs % unitOf v.natAbs = 0 → roundNumber v.natAbs rm (decide (v < 0)) = floorNumber v.natAbs := by
    intro q
    rw [roundNumber, roundQuot_exact _ _ _ _ (unitOf_pos _) q, floorNumber]
  have hs : fpValue (roundMag v.natAbs (decide (v < 0)) rm).value
      = if v < 0 then -(magOf (roundNumber v.natAbs rm (decide (v < 0))) : Int)
        else magOf (roundNumber v.natAbs rm (decide (v < 0))) := by
    rw [fpValue_eq, h1, h2]
    by_cases n : v < 0 <;> simp [n]
  rw [hs]
  generalize roundNumber v.natAbs rm (decide (v < 0)) = k at hb hex
  by_cases q : v.natAbs % unitOf v.natAbs = 0
  · obtain rfl := hex q
    split <;> exact ⟨⟨fun _ => q, fun _ => by omega⟩, by omega⟩
  · rcases (show k = floorNumber v.natAbs ∨ k = floorNumber v.natAbs + 1 by omega) with rfl | rfl
    · split <;> exact ⟨⟨fun _ => by omega, fun e => absurd e q⟩, by omega⟩
    · split <;> exact ⟨⟨fun _ => by omega, fun e => absurd e q⟩, by omega⟩

/-- A tiny magnitude does not overflow. -/
theorem tiny_small (a : Nat) (rm : RoundMode) (neg : Bool) (ha : a ≠ 0) (ht : tinyMag a rm neg = true) :
    roundNumber a rm neg < 31744 := by
  have hu := tiny_unit a rm neg ha ht
  have h1 : a < 2 ^ 34 := (of_decide_eq_true ht).1
  have hb : blockOf a = 0 := by
    have := (Nat.log2_lt ha).2 h1
    unfold blockOf; omega
  have := roundQuot_bounds a (2 ^ 24) rm neg
  rw [roundNumber, hb, hu]
  omega

/-! ### The other cases of the operation -/

@[simp] theorem withDe_value (r : LaneResult) (d : Bool) : (r.withDe d).value = r.value := rfl
@[simp] theorem withDe_tiny (r : LaneResult) (d : Bool) : (r.withDe d).tiny = r.tiny := rfl
@[simp] theorem withDe_ie (r : LaneResult) (d : Bool) : (r.withDe d).flags.ie = r.flags.ie := rfl
@[simp] theorem withDe_de (r : LaneResult) (d : Bool) : (r.withDe d).flags.de = d := rfl
@[simp] theorem withDe_oe (r : LaneResult) (d : Bool) : (r.withDe d).flags.oe = r.flags.oe := rfl
@[simp] theorem withDe_ue (r : LaneResult) (d : Bool) : (r.withDe d).flags.ue = r.flags.ue := rfl
@[simp] theorem withDe_pe (r : LaneResult) (d : Bool) : (r.withDe d).flags.pe = r.flags.pe := rfl

/-- Finite operands never raise Invalid. -/
theorem finiteResult_ie (x y z : Half) (op : LaneOp) (rm : RoundMode) (ctl : FpCtl) :
    (finiteResult x y z op rm ctl).flags.ie = false := by
  unfold finiteResult
  dsimp only
  split
  · rfl
  · split
    · rfl
    · rw [roundMag_eq _ _ _ (by omega)]
      split <;> rfl

/-- When Invalid is raised. -/
theorem fmaCases_ie (rule : NanRule) (x y z : Half) (op : LaneOp) (rm : RoundMode) (ctl : FpCtl) :
    (fmaCases rule x y z op rm ctl).flags.ie =
      if isNan x || isNan y || isNan z then isSnan x || isSnan y || isSnan z
      else ((isInf x && isZero y) || (isZero x && isInf y)) ||
        ((isInf x || isInf y) && isInf z && addendSign z op != (fpSign x != fpSign y)) := by
  unfold fmaCases
  dsimp only
  split
  · rfl
  · split
    · rename_i h; simp [h, FpFlags.invalid]
    · rename_i h2
      split
      · rename_i h3
        split
        · rename_i h4; simp [h3, h4, FpFlags.invalid]
        · rename_i h4
          rw [Bool.not_eq_true] at h2 h4
          simp [h2, h3, h4, denormalFlags]
      · rename_i h3
        rw [Bool.not_eq_true] at h2 h3
        split
        · simp [h2, h3, denormalFlags]
        · simp [h2, h3, finiteResult_ie]

/-- Flushing a denormal operand leaves NaNs, infinities and signs alone. -/
theorem flushDenormal_class (daz : Bool) (h : Half) :
    isNan (flushDenormal daz h) = isNan h ∧ isSnan (flushDenormal daz h) = isSnan h ∧
    isInf (flushDenormal daz h) = isInf h ∧ fpSign (flushDenormal daz h) = fpSign h ∧
    isDenormal (flushDenormal daz h) = (isDenormal h && !daz) := by
  unfold flushDenormal
  by_cases q : daz && isDenormal h
  · rw [if_pos q]
    simp only [Bool.and_eq_true] at q
    have q2 := q.2
    simp only [isDenormal, Bool.and_eq_true, beq_iff_eq] at q2
    have hn : isNan h = false := by simp [isNan, q2.1]
    have hi : isInf h = false := by simp [isInf, q2.1]
    have hs : isSnan h = false := by simp [isSnan, hn]
    rw [hn, hi, hs, q.1, q.2]
    cases fpSign h <;> decide
  · rw [if_neg q]
    refine ⟨rfl, rfl, rfl, rfl, ?_⟩
    simp only [Bool.and_eq_true, not_and, Bool.not_eq_true] at q
    cases daz
    · simp
    · simp [q rfl]

/-- A NaN is not flushed. -/
theorem flushDenormal_nan (daz : Bool) (h : Half) (q : isNan h = true) : flushDenormal daz h = h := by
  have : isDenormal h = false := by
    simp only [isNan, Bool.and_eq_true, beq_iff_eq] at q
    simp [isDenormal, q.1]
  simp [flushDenormal, this]

/-- When the Denormal flag is raised. -/
theorem fmaCases_de (rule : NanRule) (x y z : Half) (op : LaneOp) (rm : RoundMode) (ctl : FpCtl) :
    (fmaCases rule x y z op rm ctl).flags.de =
      ((isDenormal x || isDenormal y || isDenormal z) && !(isNan x || isNan y || isNan z) &&
        !(fmaCases rule x y z op rm ctl).flags.ie) := by
  unfold fmaCases
  dsimp only
  split
  · rename_i h; simp [h]
  · rename_i h
    rw [Bool.not_eq_true] at h
    split
    · simp [FpFlags.invalid]
    · split
      · split
        · simp [FpFlags.invalid]
        · simp [h, denormalFlags]
      · split
        · simp [h, denormalFlags]
        · simp [h, denormalFlags, finiteResult_ie]

/-- Flipping the sign bit flips the sign and nothing else. -/
theorem neg_fields (z : Half) :
    fpSign (z ^^^ 0x8000) = (!fpSign z) ∧ fpExp (z ^^^ 0x8000) = fpExp z ∧
      fpFrac (z ^^^ 0x8000) = fpFrac z := by
  have h : (z ^^^ 0x8000).toNat = if 2 ^ 15 ≤ z.toNat then z.toNat - 2 ^ 15 else z.toNat + 2 ^ 15 := by
    have := z.isLt
    have e : withSign (!fpSign z) (BitVec.ofNat 15 (number z)) = z ^^^ 0x8000 := by
      apply BitVec.eq_of_getLsbD_eq
      intro i hi
      have hz : z.getLsbD i = (withSign (fpSign z) (BitVec.ofNat 15 (number z))).getLsbD i := by rw [withSign_number]
      rw [BitVec.getLsbD_xor, hz]
      by_cases q : i < 15
      · have : (0x8000 : BitVec 16).getLsbD i = false := by
          have : ∀ b : Fin 15, (0x8000 : BitVec 16).getLsbD b = false := by decide
          exact this ⟨i, q⟩
        rw [this, Bool.xor_false]
        simp only [withSign, BitVec.getLsbD_append, q, if_true]
      · obtain rfl : i = 15 := by omega
        have : (0x8000 : BitVec 16).getLsbD 15 = true := by decide
        rw [this]
        simp only [withSign, BitVec.getLsbD_append]
        cases fpSign z <;> simp
    rw [← e, toNat_withSign]
    have hs := fpSign_iff z
    have := number_lt z
    simp only [BitVec.toNat_ofNat]
    unfold number at *
    by_cases q : 2 ^ 15 ≤ z.toNat
    · rw [if_pos q, hs.2 q]; simp; omega
    · have : fpSign z = false := by rw [← Bool.not_eq_true, hs]; exact q
      rw [if_neg q, this]; simp; omega
  have hl := z.isLt
  have hn : number (z ^^^ 0x8000) = number z := by
    unfold number; rw [h]; split <;> omega
  refine ⟨?_, ?_, ?_⟩
  · have h1 := fpSign_iff (z ^^^ 0x8000)
    have h2 := fpSign_iff z
    rw [h] at h1
    cases q : fpSign z
    · have : ¬ 2 ^ 15 ≤ z.toNat := by rw [← h2, q]; simp
      rw [if_neg this] at h1
      exact h1.2 (by omega)
    · have := h2.1 q
      rw [if_pos this] at h1
      rw [Bool.not_true, ← Bool.not_eq_true, h1]; omega
  · apply BitVec.eq_of_toNat_eq; rw [toNat_fpExp, toNat_fpExp, hn]
  · apply BitVec.eq_of_toNat_eq; rw [toNat_fpFrac, toNat_fpFrac, hn]

end Sys2Proof.Machine
end

