-- ==== Sys2Proof/Laws/Operands.lean ====
section
/-! SUPPORT. What reading a memory operand can do, said once. -/

namespace Sys2Proof.Machine

/-! ### One byte -/

theorem badAddress_iff (s : State) (a : Span) (i : Nat) :
    s.badAddress a i = true ↔ canonical s.cfg.laBits (a.first + i) = false := by
  simp [State.badAddress]

/-- A byte page-faults where it is canonical and the oracle answers a fault. -/
theorem pageFault_some (s : State) (a : Span) (i : Nat) (f : BitVec 32 × Nat) :
    s.pageFault a i = some f ↔ canonical s.cfg.laBits (a.first + i) = true ∧
      s.translate (a.first + i) .read = .fault f.1 ∧ f.2 = a.first + i := by
  obtain ⟨c, x⟩ := f
  unfold State.pageFault State.badAddress
  cases canonical s.cfg.laBits (a.first + i) with
  | false => simp
  | true =>
    cases s.translate (a.first + i) .read with
    | mapped p t => simp
    | fault code => simp [eq_comm]

/-- A byte is on a device where it is canonical and the oracle says so. -/
theorem onDevice_iff (s : State) (a : Span) (i : Nat) :
    s.onDevice a i = true ↔ canonical s.cfg.laBits (a.first + i) = true ∧
      ∃ p, s.translate (a.first + i) .read = .mapped p .device := by
  unfold State.onDevice State.badAddress
  cases canonical s.cfg.laBits (a.first + i) with
  | false => simp
  | true =>
    cases h : s.translate (a.first + i) .read with
    | mapped p t => cases t <;> simp
    | fault code => simp

/-- A readable byte is neither. -/
theorem isMemory_iff (t : Translation) :
    t.isMemory = true ↔ (∀ code, t ≠ .fault code) ∧ ∀ p, t ≠ .mapped p .device := by
  cases t with
  | mapped p y => cases y <;> simp [Translation.isMemory]
  | fault code => simp [Translation.isMemory]

/-! ### Which byte faults -/

theorem pickFault_none (s : State) (l : List (BitVec 32 × Nat)) : s.pickFault l = none ↔ l = [] := by
  cases l <;> simp [State.pickFault]

/-- The fault picked is one of them. -/
theorem pickFault_some (s : State) (l : List (BitVec 32 × Nat)) (e : Exn) (h : s.pickFault l = some e) :
    ∃ g ∈ l, e = .pf g.1 (BitVec.ofNat 64 g.2) := by
  cases l with
  | nil => simp [State.pickFault] at h
  | cons f fs =>
    simp only [State.pickFault, Option.some.injEq] at h
    refine ⟨(f :: fs).getD (Config.faultChoice s.draws % (fs.length + 1)) f, ?_, h.symm⟩
    have hl : Config.faultChoice s.draws % (fs.length + 1) < (f :: fs).length := Nat.mod_lt _ (by simp)
    rw [List.getD_eq_getElem?_getD, List.getElem?_eq_getElem hl, Option.getD_some]
    exact List.getElem_mem hl

/-- Among some offsets, a page fault is picked or there is none. -/
theorem pickFault_offsets (s : State) (a : Span) (l : List Nat) :
    (s.pickFault (l.filterMap (s.pageFault a)) = none ∧ ∀ i ∈ l, s.pageFault a i = none) ∨
    ∃ i code, i ∈ l ∧ canonical s.cfg.laBits (a.first + i) = true ∧ s.translate (a.first + i) .read = .fault code ∧
      s.pickFault (l.filterMap (s.pageFault a)) = some (.pf code (BitVec.ofNat 64 (a.first + i))) := by
  cases h : s.pickFault (l.filterMap (s.pageFault a)) with
  | none =>
    rw [pickFault_none, List.filterMap_eq_nil_iff] at h
    exact .inl ⟨rfl, h⟩
  | some e =>
    obtain ⟨g, hg, rfl⟩ := pickFault_some s _ e h
    obtain ⟨i, hi, hf⟩ := List.mem_filterMap.1 hg
    obtain ⟨h1, h2, h3⟩ := (pageFault_some _ _ _ _).1 hf
    exact .inr ⟨i, g.1, hi, h1, h2, by rw [h3]⟩

/-- The needed offsets. -/
theorem mem_needed (a : Span) (i : Nat) : i ∈ a.needed ↔ i < a.size ∧ a.need i = true := by
  simp [Span.needed]

/-- The other offsets. -/
theorem mem_unneeded (a : Span) (i : Nat) : i ∈ a.unneeded ↔ i < a.size ∧ a.need i = false := by
  simp [Span.unneeded]

/-! ### What stops the access -/

/-- A needed byte at a non-canonical address. -/
theorem accessStop_bad (s : State) (leg : Legacy) (op : MemOp) (a : Span) (i : Nat) (hi : i < a.size)
    (hn : a.need i = true) (hc : canonical s.cfg.laBits (a.first + i) = false) :
    s.accessStop leg op a = some (.exception (addressException leg op.addr)) := by
  rw [State.accessStop, if_pos]
  exact List.any_eq_true.2 ⟨i, (mem_needed a i).2 ⟨hi, hn⟩, (badAddress_iff _ _ _).2 hc⟩

/-- A canonical operand with a byte on a device. -/
theorem accessStop_device (s : State) (leg : Legacy) (op : MemOp) (a : Span) (i p : Nat)
    (hc : ∀ j < a.size, canonical s.cfg.laBits (a.first + j) = true) (hi : i < a.size)
    (hd : s.translate (a.first + i) .read = .mapped p .device) :
    s.accessStop leg op a = some (.refusal .deviceOperand) := by
  have h1 : a.needed.any (s.badAddress a) = false := by
    rw [List.any_eq_false]
    intro j hj
    simp [State.badAddress, hc j ((mem_needed a j).1 hj).1]
  have h2 : a.unneeded.any (s.badAddress a) = false := by
    rw [List.any_eq_false]
    intro j hj
    simp [State.badAddress, hc j ((mem_unneeded a j).1 hj).1]
  have h3 : (List.range a.size).any (s.onDevice a) = true :=
    List.any_eq_true.2 ⟨i, List.mem_range.2 hi, (onDevice_iff _ _ _).2 ⟨hc i hi, p, hd⟩⟩
  simp only [State.accessStop, h1, h2, h3, Bool.false_and, Bool.false_eq_true, if_false, if_true]

/-- A canonical operand off devices with a page fault under a needed byte. -/
theorem accessStop_fault (s : State) (leg : Legacy) (op : MemOp) (a : Span) (i : Nat) (code : BitVec 32)
    (hc : ∀ j < a.size, canonical s.cfg.laBits (a.first + j) = true ∧
      ∀ p, s.translate (a.first + j) .read ≠ .mapped p .device)
    (hi : i < a.size) (hn : a.need i = true) (hf : s.translate (a.first + i) .read = .fault code) :
    ∃ j c, j < a.size ∧ a.need j = true ∧ s.translate (a.first + j) .read = .fault c ∧
      s.accessStop leg op a = some (.exception (.pf c (BitVec.ofNat 64 (a.first + j)))) := by
  have h1 : a.needed.any (s.badAddress a) = false := by
    rw [List.any_eq_false]
    intro j hj
    simp [State.badAddress, (hc j ((mem_needed a j).1 hj).1).1]
  have h2 : a.unneeded.any (s.badAddress a) = false := by
    rw [List.any_eq_false]
    intro j hj
    simp [State.badAddress, (hc j ((mem_unneeded a j).1 hj).1).1]
  have h3 : (List.range a.size).any (s.onDevice a) = false := by
    rw [List.any_eq_false]
    intro j hj hd
    obtain ⟨_, p, hp⟩ := (onDevice_iff _ _ _).1 hd
    exact (hc j (List.mem_range.1 hj)).2 p hp
  rcases pickFault_offsets s a a.needed with ⟨-, h⟩ | ⟨j, c, hj, _, ht, hp⟩
  · have := (pageFault_some s a i (code, a.first + i)).2 ⟨(hc i hi).1, hf, rfl⟩
    rw [h i ((mem_needed a i).2 ⟨hi, hn⟩)] at this
    cases this
  · obtain ⟨hj1, hj2⟩ := (mem_needed a j).1 hj
    refine ⟨j, c, hj1, hj2, ht, ?_⟩
    simp only [State.accessStop, h1, h2, h3, hp, Bool.false_and, Bool.false_eq_true, if_false]

/-- Every needed byte readable, nothing on a device, no breakpoint: the access succeeds, or an unneeded byte stops it. -/
theorem accessStop_unneeded (s : State) (leg : Legacy) (op : MemOp) (a : Span)
    (hn : ∀ i < a.size, a.need i = true → ByteReadable s (a.first + i))
    (hd : ∀ i < a.size, ∀ p, s.translate (a.first + i) .read ≠ .mapped p .device)
    (hb : s.dataBreakpoint a.first a.size = false) :
    s.accessStop leg op a = none ∨
    (∃ i < a.size, a.need i = false ∧ canonical s.cfg.laBits (a.first + i) = false ∧
      s.accessStop leg op a = some (.exception (addressException leg op.addr))) ∨
    (∃ i code, i < a.size ∧ a.need i = false ∧ canonical s.cfg.laBits (a.first + i) = true ∧
      s.translate (a.first + i) .read = .fault code ∧
      s.accessStop leg op a = some (.exception (.pf code (BitVec.ofNat 64 (a.first + i))))) := by
  have h1 : a.needed.any (s.badAddress a) = false := by
    rw [List.any_eq_false]
    intro j hj
    obtain ⟨hj1, hj2⟩ := (mem_needed a j).1 hj
    simp [State.badAddress, (hn j hj1 hj2).1]
  have h3 : (List.range a.size).any (s.onDevice a) = false := by
    rw [List.any_eq_false]
    intro j hj h
    obtain ⟨_, p, hp⟩ := (onDevice_iff _ _ _).1 h
    exact hd j (List.mem_range.1 hj) p hp
  cases h2 : a.unneeded.any (s.badAddress a) && Config.faultsOnUnneededAddress s.draws with
  | true =>
    rw [Bool.and_eq_true, List.any_eq_true] at h2
    obtain ⟨⟨i, hi, hbad⟩, hx⟩ := h2
    obtain ⟨hi1, hi2⟩ := (mem_unneeded a i).1 hi
    refine .inr (.inl ⟨i, hi1, hi2, (badAddress_iff _ _ _).1 hbad, ?_⟩)
    have h2' : a.unneeded.any (s.badAddress a) = true := List.any_eq_true.2 ⟨i, hi, hbad⟩
    simp only [State.accessStop, h1, h2', hx, Bool.and_self, Bool.false_eq_true, if_false, if_true]
  | false =>
    have h4 : s.pickFault (a.needed.filterMap (s.pageFault a)) = none := by
      rcases pickFault_offsets s a a.needed with ⟨h, -⟩ | ⟨j, c, hj, _, ht, _⟩
      · exact h
      · obtain ⟨hj1, hj2⟩ := (mem_needed a j).1 hj
        exact absurd ht (((isMemory_iff _).1 (hn j hj1 hj2).2).1 c)
    rcases pickFault_offsets s a a.unneeded with ⟨h5, -⟩ | ⟨j, c, hj, hjc, ht, h5⟩
    · left
      simp only [State.accessStop, h1, h2, h3, h4, h5, hb, Bool.false_eq_true, if_false]
    · obtain ⟨hj1, hj2⟩ := (mem_unneeded a j).1 hj
      cases h6 : Config.faultsOnUnneededPage s.draws with
      | false =>
        left
        simp only [State.accessStop, h1, h2, h3, h4, h5, h6, hb, Bool.false_eq_true, if_false]
      | true =>
        refine .inr (.inr ⟨j, c, hj1, hj2, hjc, ht, ?_⟩)
        simp only [State.accessStop, h1, h2, h3, h4, h5, h6, Bool.false_eq_true, if_false]

/-- A page fault that stops the access is the oracle's answer for one of its bytes. -/
theorem accessStop_pf (s : State) (leg : Legacy) (op : MemOp) (a : Span) (code : BitVec 32) (x : Word64)
    (h : s.accessStop leg op a = some (.exception (.pf code x))) :
    ∃ i < a.size, canonical s.cfg.laBits (a.first + i) = true ∧ s.translate (a.first + i) .read = .fault code ∧
      x = BitVec.ofNat 64 (a.first + i) := by
  have picked : ∀ l : List Nat, (∀ i ∈ l, i < a.size) → s.pickFault (l.filterMap (s.pageFault a)) = some (.pf code x) →
      ∃ i < a.size, canonical s.cfg.laBits (a.first + i) = true ∧ s.translate (a.first + i) .read = .fault code ∧
        x = BitVec.ofNat 64 (a.first + i) := by
    intro l hl hp
    rcases pickFault_offsets s a l with ⟨hn, -⟩ | ⟨i, c, hi, hc, ht, hs⟩
    · rw [hn] at hp; cases hp
    · rw [hs, Option.some.injEq, Exn.pf.injEq] at hp
      obtain ⟨rfl, rfl⟩ := hp
      exact ⟨i, hl i hi, hc, ht, rfl⟩
  unfold State.accessStop addressException at h
  cases h1 : s.pickFault (a.needed.filterMap (s.pageFault a)) <;>
  cases h2 : s.pickFault (a.unneeded.filterMap (s.pageFault a)) <;>
  rw [h1, h2] at h <;> simp only at h <;>
  repeat' split at h
  all_goals simp at h
  all_goals subst h
  all_goals first
    | exact picked _ (fun i hi => ((mem_needed a i).1 hi).1) h1
    | (simp_all; exact picked _ (fun i hi => ((mem_unneeded a i).1 hi).1) h2)

/-- Where every byte can be read, only a data breakpoint stops the access. -/
theorem accessStop_bytes (s : State) (leg : Legacy) (op : MemOp) (a : Span)
    (h : ∀ i < a.size, ByteReadable s (a.first + i)) :
    s.accessStop leg op a = if s.dataBreakpoint a.first a.size then some (.refusal .breakpoint) else none := by
  have hbad : ∀ l : List Nat, (∀ i ∈ l, i < a.size) → l.any (s.badAddress a) = false := by
    intro l hl
    rw [List.any_eq_false]
    intro i hi
    simp [State.badAddress, (h i (hl i hi)).1]
  have hfault : ∀ l : List Nat, (∀ i ∈ l, i < a.size) → s.pickFault (l.filterMap (s.pageFault a)) = none := by
    intro l hl
    rcases pickFault_offsets s a l with ⟨h1, -⟩ | ⟨i, c, hi, _, ht, _⟩
    · exact h1
    · exact absurd ht (((isMemory_iff _).1 (h i (hl i hi)).2).1 c)
  have hdev : (List.range a.size).any (s.onDevice a) = false := by
    rw [List.any_eq_false]
    intro i hi hd
    obtain ⟨_, p, hp⟩ := (onDevice_iff _ _ _).1 hd
    exact ((isMemory_iff _).1 (h i (List.mem_range.1 hi)).2).2 p hp
  have hn : ∀ i ∈ a.needed, i < a.size := fun i hi => ((mem_needed a i).1 hi).1
  have hu : ∀ i ∈ a.unneeded, i < a.size := fun i hi => ((mem_unneeded a i).1 hi).1
  simp only [State.accessStop, hbad _ hn, hbad _ hu, hdev, hfault _ hn, hfault _ hu, Bool.false_and, Bool.false_eq_true,
    if_false]

/-- A readable operand is read. -/
theorem accessStop_readable (s : State) (leg : Legacy) (op : MemOp) (a : Span)
    (h : OperandReadable s a.first a.size) : s.accessStop leg op a = none := by
  rw [accessStop_bytes s leg op a h.1, h.2]; rfl

/-! ### Operand 3 -/

/-- Operand 3 of a memory form is read from memory. -/
theorem third_mem (i : Instr) (s : State) (vl : VecLen) (op : MemOp) (h : i.parts.form = .mem vl op) :
    third i s = s.readMem i.parts.leg i.length i.parts.mask vl op := by
  unfold third
  rw [h]
  revert h
  cases i <;> intro h <;> simp only [Instr.parts, Form.mem.injEq, reduceCtorEq] at h
  all_goals (obtain ⟨rfl, rfl⟩ := h; rfl)

/-- Operand 3, once read, is what Safety says it is. -/
theorem third_ok (i : Instr) (s : State) (t3 : Nat → Half) (h : third i s = .ok t3) : t3 = thirdOperand i s := by
  revert h
  cases i <;>
  simp only [third, Instr.parts, State.readReg, State.readMem, State.span] <;>
  first
  | (intro h; cases h; rfl)
  | (split <;> intro h <;> cases h; rfl)

/-- Operand 3 is read where Safety says it can be. -/
theorem third_readable (i : Instr) (s : State) (h : ThirdReadable i s) : third i s = .ok (thirdOperand i s) := by
  cases ht : third i s with
  | ok t3 => rw [third_ok i s t3 ht]
  | error stop =>
    exfalso
    revert h ht
    cases i <;>
    simp only [third, ThirdReadable, Instr.parts, State.readReg, State.readMem, Instr.length] <;>
    first
    | (intro _ h; cases h)
    | (intro h; rw [accessStop_readable _ _ _ _ h]; intro h2; cases h2)

/-- What an instruction computes in each lane. -/
theorem laneResult_eq (i : Instr) (s : State) :
    laneResult i.parts.fma s.cfg.nanRule (roundingMode i s) s.fpCtl (s.readZmm i.parts.dest) (s.readZmm i.parts.src2)
      (thirdOperand i s) = laneResults i s := by
  cases h : i.parts.fma <;> simp only [laneResults, h, laneResult_132, laneResult_213, laneResult_231]

/-- An instruction that is ready and whose operand 3 is read computes. -/
theorem exec_computes (i : Instr) (s : State) (hr : Ready s i.parts.form.vecLen i.length)
    (h : third i s = .ok (thirdOperand i s)) :
    exec i s = s.compute i.parts.fma i.parts.form.vecLen i.length i.parts.mask i.parts.dest i.parts.src2
      (thirdOperand i s) i.parts.form.embedded := by
  rw [exec_eq_execute]
  simp only [State.execute, (entryStop_none _ _ _).2 hr, h]

/-- An instruction that is ready and whose operand 3 cannot be read stops there. -/
theorem exec_third_stop (i : Instr) (s : State) (stop : Stop) (hr : Ready s i.parts.form.vecLen i.length)
    (h : third i s = .error stop) : exec i s = stop.outcome s := by
  rw [exec_eq_execute]
  simp only [State.execute, (entryStop_none _ _ _).2 hr, h]

/-- What stops an instruction before its operands is not #XM. -/
theorem entryStop_not_xm (s : State) (vl : VecLen) (ilen : Nat) : s.entryStop vl ilen ≠ some (.exception .xm) := by
  unfold State.entryStop
  intro h
  repeat' split at h
  all_goals simp at h

/-- What stops the reading of operand 3 is not #XM. -/
theorem third_not_xm (i : Instr) (s : State) : third i s ≠ .error (.exception .xm) := by
  have hp : ∀ l, s.pickFault l ≠ some .xm := by
    intro l h
    obtain ⟨_, _, hg⟩ := pickFault_some s l _ h
    cases hg
  have ha : ∀ leg op a, s.accessStop leg op a ≠ some (.exception .xm) := by
    intro leg op a h
    unfold State.accessStop addressException at h
    cases h1 : s.pickFault (a.needed.filterMap (s.pageFault a)) <;>
    cases h2 : s.pickFault (a.unneeded.filterMap (s.pageFault a)) <;>
    rw [h1, h2] at h <;> simp only at h <;>
    repeat' split at h
    all_goals simp at h
    all_goals subst h
    all_goals first | exact hp _ h1 | exact hp _ h2 | simp_all
  unfold third
  cases i.parts.form with
  | reg vl r => simp [State.readReg]
  | er r rc => simp [State.readReg]
  | mem vl op =>
    intro h
    simp only [State.readMem] at h
    split at h
    · rename_i stop hs
      simp only [Except.error.injEq] at h
      exact ha _ _ _ (h ▸ hs)
    · cases h

/-- What a fault of an instruction leaves: an exception over the state it was executed in, which records flags, and
is #XM, only where it is the one of an unmasked condition. -/
theorem exec_fault (i : Instr) (s : State) (f : Fault) (h : exec i s = .fault f) :
    ∃ (e : Exn) (g : BitVec 6), f = e.fault (s.faulted e g) ∧ g.getLsbD 2 = false ∧
      (g ≠ 0 ∨ e = .xm → e = s.fpException ∧ i.parts.form.embedded = none) := by
  have stopped : ∀ stop : Stop, stop ≠ .exception .xm → stop.outcome s = .fault f →
      ∃ e : Exn, e ≠ .xm ∧ f = e.fault (s.faulted e 0) := by
    intro stop hx hs
    cases stop with
    | exception e =>
      simp only [Stop.outcome, takeException, Host.Outcome.fault.injEq] at hs
      exact ⟨e, fun he => hx (he ▸ rfl), hs.symm⟩
    | refusal r => simp [Stop.outcome] at hs
  have pack : (∃ e : Exn, e ≠ .xm ∧ f = e.fault (s.faulted e 0)) →
      ∃ (e : Exn) (g : BitVec 6), f = e.fault (s.faulted e g) ∧ g.getLsbD 2 = false ∧
        (g ≠ 0 ∨ e = .xm → e = s.fpException ∧ i.parts.form.embedded = none) := by
    rintro ⟨e, he, hf⟩
    refine ⟨e, 0, hf, by simp, fun h => ?_⟩
    rcases h with h | h
    · exact absurd rfl h
    · exact absurd h he
  rw [exec_eq_execute] at h
  rcases execute_cases s i.parts.fma i.parts.form.vecLen i.length i.parts.mask i.parts.dest i.parts.src2 (third i s)
    i.parts.form.embedded with ⟨stop, hs, e⟩ | ⟨stop, _, hs, e⟩ | ⟨t3, _, _, e⟩
  · rw [e] at h
    exact pack (stopped stop (fun hx => entryStop_not_xm _ _ _ (hx ▸ hs)) h)
  · rw [e] at h
    exact pack (stopped stop (fun hx => third_not_xm i s (hx ▸ hs)) h)
  · rw [e] at h
    rcases compute_cases s i.parts.fma i.parts.form.vecLen i.length i.parts.mask i.parts.dest i.parts.src2 t3
      i.parts.form.embedded with ⟨v, g, e2, hg⟩ | ⟨g, hn, hz, e2⟩
    · rw [e2] at h; cases h
    · rw [e2] at h
      simp only [takeException, Host.Outcome.fault.injEq] at h
      exact ⟨_, g, h.symm, hz, fun _ => ⟨rfl, hn⟩⟩

/-- A page fault of an instruction is the oracle's answer for a byte of its memory operand. -/
theorem exec_pf (i : Instr) (s : State) (code : BitVec 32) (x : Word64) (t : State)
    (h : exec i s = .fault (.pf code x t)) :
    ∃ (vl : VecLen) (op : MemOp) (n : Nat), i.parts.form = .mem vl op ∧ n < operandSize vl op.bcast ∧
      canonical s.cfg.laBits ((s.linearAddress i.parts.leg i.length vl op).toNat + n) = true ∧
      s.translate ((s.linearAddress i.parts.leg i.length vl op).toNat + n) .read = .fault code ∧
      x = BitVec.ofNat 64 ((s.linearAddress i.parts.leg i.length vl op).toNat + n) := by
  have stopped : ∀ stop : Stop, stop.outcome s = .fault (.pf code x t) → stop = .exception (.pf code x) := by
    intro stop hs
    cases stop with
    | exception e =>
      simp only [Stop.outcome, takeException, Host.Outcome.fault.injEq] at hs
      have := congrArg Fault.exn hs
      rw [fault_exn] at this
      rw [this]; rfl
    | refusal r => simp [Stop.outcome] at hs
  rw [exec_eq_execute] at h
  rcases execute_cases s i.parts.fma i.parts.form.vecLen i.length i.parts.mask i.parts.dest i.parts.src2 (third i s)
    i.parts.form.embedded with ⟨stop, hs, e⟩ | ⟨stop, _, hs, e⟩ | ⟨t3, _, _, e⟩
  · rw [e] at h
    rw [stopped stop h] at hs
    unfold State.entryStop at hs
    repeat' split at hs
    all_goals simp at hs
  · rw [e] at h
    rw [stopped stop h] at hs
    cases hf : i.parts.form with
    | reg vl r => unfold third at hs; rw [hf] at hs; simp [State.readReg] at hs
    | er r rc => unfold third at hs; rw [hf] at hs; simp [State.readReg] at hs
    | mem vl op =>
      rw [third_mem i s vl op hf] at hs
      simp only [State.readMem] at hs
      split at hs
      · rename_i stop' ha
        rw [Except.error.injEq] at hs
        obtain ⟨n, hn, hc, ht, hx⟩ := accessStop_pf s _ _ _ _ _ (hs ▸ ha)
        exact ⟨vl, op, n, rfl, hn, hc, ht, hx⟩
      · cases hs
  · rw [e] at h
    rcases compute_cases s i.parts.fma i.parts.form.vecLen i.length i.parts.mask i.parts.dest i.parts.src2 t3
      i.parts.form.embedded with ⟨v, g, e2, _⟩ | ⟨g, _, _, e2⟩
    · rw [e2] at h; cases h
    · rw [e2] at h
      simp only [takeException, Host.Outcome.fault.injEq] at h
      have := congrArg Fault.exn h
      rw [fault_exn] at this
      unfold State.fpException at this
      split at this <;> cases this

/-- What a completed instruction did, in full. -/
theorem exec_next_full (i : Instr) (s t : State) (h : exec i s = .next t) :
    Ready s i.parts.form.vecLen i.length ∧ third i s = .ok (thirdOperand i s) ∧
    (i.parts.form.embedded = none →
      NoUnmasked s (lanes i.parts.form.vecLen) (s.active i.parts.mask) (laneResults i s)) ∧
    t = s.complete i.parts.dest
      (resultVec (lanes i.parts.form.vecLen) (s.active i.parts.mask) i.parts.mask (s.readZmm i.parts.dest)
        (laneResults i s))
      (if i.parts.form.embedded = none
        then (unionFlags (lanes i.parts.form.vecLen) (s.active i.parts.mask) (laneResults i s)).bits else 0)
      i.length := by
  have hr := exec_next_ready i s t h
  cases ht : third i s with
  | error stop => rw [exec_third_stop i s stop hr ht] at h; exact absurd h (stop_ne_next _ _ _)
  | ok t3 =>
    have ht3 := third_ok i s t3 ht
    subst ht3
    rw [exec_computes i s hr ht] at h
    refine ⟨hr, rfl, ?_⟩
    have hl := laneResult_eq i s
    unfold roundingMode at hl
    unfold State.compute at h
    simp only at h
    rw [hl] at h
    cases he : i.parts.form.embedded with
    | some rm =>
      rw [he] at h
      simp only [Host.Outcome.next.injEq] at h
      exact ⟨fun h0 => (by cases h0), by simp [← h]⟩
    | none =>
      rw [he] at h
      simp only at h
      split at h
      · simp [takeException] at h
      · rename_i hq
        simp only [Host.Outcome.next.injEq] at h
        exact ⟨fun _ => (trapping_none _ _ _ _).1 (by simpa using hq), by simp [← h]⟩

/-- A ready instruction with operand 3 read and nothing unmasked completes, in full. -/
theorem exec_completes (i : Instr) (s : State) (hr : Ready s i.parts.form.vecLen i.length)
    (ht : third i s = .ok (thirdOperand i s))
    (hq : i.parts.form.embedded = none →
      NoUnmasked s (lanes i.parts.form.vecLen) (s.active i.parts.mask) (laneResults i s)) :
    exec i s = .next (s.complete i.parts.dest
      (resultVec (lanes i.parts.form.vecLen) (s.active i.parts.mask) i.parts.mask (s.readZmm i.parts.dest)
        (laneResults i s))
      (if i.parts.form.embedded = none
        then (unionFlags (lanes i.parts.form.vecLen) (s.active i.parts.mask) (laneResults i s)).bits else 0)
      i.length) := by
  rw [exec_computes i s hr ht]
  have hl := laneResult_eq i s
  unfold roundingMode at hl
  unfold State.compute
  simp only
  rw [hl]
  cases he : i.parts.form.embedded with
  | some rm => simp
  | none =>
    simp only [if_true]
    rw [(trapping_none _ _ _ _).2 (hq he)]
    simp

/-- A ready instruction without embedded rounding that detects an unmasked condition traps. -/
theorem exec_traps (i : Instr) (s : State) (hr : Ready s i.parts.form.vecLen i.length)
    (ht : third i s = .ok (thirdOperand i s)) (he : i.parts.form.embedded = none)
    (hq : (trapping s (detectedFlags s (lanes i.parts.form.vecLen) (s.active i.parts.mask) (laneResults i s))).any = true) :
    exec i s = takeException s.fpException
      (recordedFlags s (detectedFlags s (lanes i.parts.form.vecLen) (s.active i.parts.mask) (laneResults i s))) s := by
  rw [exec_computes i s hr ht]
  have hl := laneResult_eq i s
  unfold roundingMode at hl
  unfold State.compute
  simp only
  rw [hl, he]
  simp only [hq, if_true]

end Sys2Proof.Machine
end

