-- ==== Sys2Proof/Laws/Influence.lean ====
section
/-! SUPPORT. What an instruction reads, said once: two states that agree on it end in the same way. -/

namespace Sys2Proof.Machine

/-! ### Lanes -/

/-- Vectors packed from lanes that agree are equal. -/
theorem packLanes_congr (f g : Nat → Half) (n : Nat) (h : ∀ j < n, f j = g j) : packLanes f n = packLanes g n := by
  induction n with
  | zero => rfl
  | succ n ih => rw [packLanes, packLanes, ih (fun j hj => h j (by omega)), h n (by omega)]

/-- `someLane` reads lanes below `kl` only. -/
theorem someLane_congr (kl : Nat) (a a' p p' : Nat → Bool) (ha : ∀ j < kl, a j = a' j) (hp : ∀ j < kl, p j = p' j) :
    someLane kl a p = someLane kl a' p' := by
  rw [Bool.eq_iff_iff, someLane_iff, someLane_iff]
  constructor
  · rintro ⟨j, hj, h, h'⟩; exact ⟨j, hj, ha j hj ▸ h, hp j hj ▸ h'⟩
  · rintro ⟨j, hj, h, h'⟩; exact ⟨j, hj, (ha j hj).symm ▸ h, (hp j hj).symm ▸ h'⟩

/-- So does the union of the flags. -/
theorem unionFlags_congr (kl : Nat) (a a' : Nat → Bool) (r r' : Nat → LaneResult) (ha : ∀ j < kl, a j = a' j)
    (hr : ∀ j < kl, r j = r' j) : unionFlags kl a r = unionFlags kl a' r' := by
  unfold unionFlags
  congr 1 <;> exact someLane_congr kl _ _ _ _ ha (fun j hj => by rw [hr j hj])

/-- So does the result vector. -/
theorem resultVec_congr (kl : Nat) (a a' : Nat → Bool) (m : Writemask) (o o' : Vec) (r r' : Nat → LaneResult)
    (ha : ∀ j < kl, a j = a' j) (hr : ∀ j < kl, r j = r' j) (ho : ∀ j < kl, lane o j = lane o' j) :
    resultVec kl a m o r = resultVec kl a' m o' r' := by
  apply packLanes_congr
  intro j hj
  rw [ha j hj, hr j hj, ho j hj]

/-- Lanes of vectors whose bits agree are equal. -/
theorem lane_congr (v w : Vec) (n : Nat) (h : ∀ b < 16 * n, v.getLsbD b = w.getLsbD b) (j : Nat) (hj : j < n) :
    lane v j = lane w j := by
  apply BitVec.eq_of_getLsbD_eq
  intro b hb
  rw [lane, lane, BitVec.getLsbD_extractLsb', BitVec.getLsbD_extractLsb', h _ (by omega)]

/-! ### What an instruction reads -/

/-- `s'` agrees with `s` on everything instruction `i` reads. -/
structure SameInputs (i : Instr) (s s' : State) : Prop where
  entry     : s'.entryStop i.parts.form.vecLen i.length = s.entryStop i.parts.form.vecLen i.length
  translate : ∀ vl op, i.parts.form = .mem vl op → ∀ a, s'.translate a .read = s.translate a .read
  mem       : s'.mem = s.mem
  gpr       : s'.gpr = s.gpr
  rip       : s'.rip = s.rip
  fsBase    : s'.fsBase = s.fsBase
  gsBase    : s'.gsBase = s.gsBase
  laBits    : s'.cfg.laBits = s.cfg.laBits
  nanRule   : s'.cfg.nanRule = s.cfg.nanRule
  fpCtl     : s'.fpCtl = s.fpCtl
  mxcsr     : s'.mxcsr = s.mxcsr
  cr4       : s'.cr4 = s.cr4
  drAddr    : s'.drAddr = s.drAddr
  dr7       : s'.dr7 = s.dr7
  draws     : s'.draws = s.draws
  active    : ∀ j < lanes i.parts.form.vecLen, s'.active i.parts.mask j = s.active i.parts.mask j
  dest      : ∀ j < lanes i.parts.form.vecLen, lane (s'.readZmm i.parts.dest) j = lane (s.readZmm i.parts.dest) j
  src2      : ∀ j < lanes i.parts.form.vecLen, lane (s'.readZmm i.parts.src2) j = lane (s.readZmm i.parts.src2) j
  src3      : ∀ r, (∃ vl, i.parts.form = .reg vl r) ∨ (∃ rc, i.parts.form = .er r rc) →
    ∀ j < lanes i.parts.form.vecLen, lane (s'.readZmm r) j = lane (s.readZmm r) j

/-- The linear address is the same. -/
theorem SameInputs.linearAddress {i : Instr} {s s' : State} (h : SameInputs i s s') (leg : Legacy) (n : Nat)
    (vl : VecLen) (op : MemOp) : s'.linearAddress leg n vl op = s.linearAddress leg n vl op := by
  have e1 : ∀ r, s'.readGpr r = s.readGpr r := fun r => by simp only [State.readGpr, h.gpr]
  have e2 : ∀ x, s'.indexValue x = s.indexValue x := fun x => by cases x <;> simp only [State.indexValue, e1]
  have e3 : ∀ k a, s'.addressSum n k a = s.addressSum n k a := fun k a => by
    cases a <;> simp only [State.addressSum, e1, e2, h.rip]
  have e4 : s'.segmentBase leg = s.segmentBase leg := by unfold State.segmentBase; rw [h.fsBase, h.gsBase]
  simp only [State.linearAddress, State.effectiveAddress, e3, e4]

/-- Which bytes are needed is the same. -/
theorem neededByte_congr (vl : VecLen) (a a' : Nat → Bool) (bcast : Bool) (n : Nat)
    (ha : ∀ j < lanes vl, a' j = a j) (hn : n < operandSize vl bcast) :
    neededByte (lanes vl) a' bcast n = neededByte (lanes vl) a bcast n := by
  unfold neededByte
  cases bcast with
  | true =>
    simp only [if_true]
    rw [Bool.eq_iff_iff, List.any_eq_true, List.any_eq_true]
    constructor
    · rintro ⟨j, hj, h⟩; exact ⟨j, hj, ha j (List.mem_range.1 hj) ▸ h⟩
    · rintro ⟨j, hj, h⟩; exact ⟨j, hj, (ha j (List.mem_range.1 hj)).symm ▸ h⟩
  | false =>
    simp only [Bool.false_eq_true, if_false]
    apply ha
    revert hn
    cases vl <;> simp [operandSize, vecBytes, lanes] <;> omega

/-- The access stops for the same reason or not at all. -/
theorem SameInputs.accessStop {i : Instr} {s s' : State} (h : SameInputs i s s') {vl : VecLen} {op : MemOp}
    (hf : i.parts.form = .mem vl op) :
    s'.accessStop i.parts.leg op (s'.span i.parts.leg i.length i.parts.mask vl op) =
      s.accessStop i.parts.leg op (s.span i.parts.leg i.length i.parts.mask vl op) := by
  have htr := h.translate vl op hf
  have ha := h.active
  rw [hf] at ha
  have hn : ∀ n ∈ List.range (operandSize vl op.bcast), neededByte (lanes vl) (s'.active i.parts.mask) op.bcast n =
      neededByte (lanes vl) (s.active i.parts.mask) op.bcast n :=
    fun n hn => neededByte_congr vl _ _ _ n ha (List.mem_range.1 hn)
  generalize hb : s.span i.parts.leg i.length i.parts.mask vl op = b
  generalize hb' : s'.span i.parts.leg i.length i.parts.mask vl op = b'
  have hfirst : b'.first = b.first := by subst hb hb'; simp only [State.span, h.linearAddress]
  have hsize : b'.size = b.size := by subst hb hb'; rfl
  have e1 : b'.needed = b.needed := by
    subst hb hb'
    exact List.filter_congr hn
  have e2 : b'.unneeded = b.unneeded := by
    subst hb hb'
    exact List.filter_congr fun n hm => by simp only [State.span, hn n hm]
  have e3 : s'.badAddress b' = s.badAddress b := by funext n; simp only [State.badAddress, h.laBits, hfirst]
  have e4 : s'.onDevice b' = s.onDevice b := by funext n; simp only [State.onDevice, e3, htr, hfirst]
  have e5 : s'.pageFault b' = s.pageFault b := by funext n; simp only [State.pageFault, e3, htr, hfirst]
  have e6 : ∀ l, s'.pickFault l = s.pickFault l := fun l => by cases l <;> simp only [State.pickFault, h.draws]
  have e7 : s'.dataBreakpoint b'.first b.size = s.dataBreakpoint b.first b.size := by
    simp only [State.dataBreakpoint, State.breakpointSize, State.breakpointEnabled, State.breakpointKind, h.drAddr,
      h.dr7, hfirst]
    rfl
  simp only [State.accessStop, e1, e2, e3, e4, e5, e6, e7, h.draws, hsize]

/-- Operand 3 has the same elements. -/
theorem SameInputs.thirdOperand {i : Instr} {s s' : State} (h : SameInputs i s s') (j : Nat)
    (hj : j < lanes i.parts.form.vecLen) : thirdOperand i s' j = thirdOperand i s j := by
  unfold Machine.thirdOperand
  cases hf : i.parts.form with
  | reg vl r => exact h.src3 r (.inl ⟨vl, hf⟩) j hj
  | er r rc => exact h.src3 r (.inr ⟨rc, hf⟩) j hj
  | mem vl op =>
    simp only [State.operandElement, State.operandByte, h.translate vl op hf, State.physicalByte, h.mem, h.draws,
      h.linearAddress]

/-- Reading operand 3 stops for the same reason or succeeds. -/
theorem SameInputs.third {i : Instr} {s s' : State} (h : SameInputs i s s') :
    (third i s = .ok (Machine.thirdOperand i s) ∧ third i s' = .ok (Machine.thirdOperand i s')) ∨
    ∃ stop, third i s = .error stop ∧ third i s' = .error stop := by
  cases hf : i.parts.form with
  | reg vl r => left; unfold Machine.third Machine.thirdOperand; rw [hf]; exact ⟨rfl, rfl⟩
  | er r rc => left; unfold Machine.third Machine.thirdOperand; rw [hf]; exact ⟨rfl, rfl⟩
  | mem vl op =>
    have hacc := h.accessStop hf
    have e := third_mem i s vl op hf
    have e' := third_mem i s' vl op hf
    unfold State.readMem at e e'
    simp only [hacc] at e e'
    cases hs : s.accessStop i.parts.leg op (s.span i.parts.leg i.length i.parts.mask vl op) with
    | some stop => rw [hs] at e e'; exact .inr ⟨stop, e, e'⟩
    | none =>
      rw [hs] at e e'
      exact .inl ⟨third_ok i s _ e ▸ e, third_ok i s' _ e' ▸ e'⟩

/-- Each lane computes the same. -/
theorem SameInputs.laneResults {i : Instr} {s s' : State} (h : SameInputs i s s') (j : Nat)
    (hj : j < lanes i.parts.form.vecLen) : laneResults i s' j = laneResults i s j := by
  have hrm : roundingMode i s' = roundingMode i s := by simp only [roundingMode, State.rc, h.mxcsr]
  rw [← laneResult_eq, ← laneResult_eq]
  unfold laneResult
  rw [h.nanRule, h.fpCtl, hrm, h.dest j hj, h.src2 j hj, h.thirdOperand j hj]

/-- The conditions detected are the same. -/
theorem SameInputs.detectedFlags {i : Instr} {s s' : State} (h : SameInputs i s s') :
    detectedFlags s' (lanes i.parts.form.vecLen) (s'.active i.parts.mask) (Machine.laneResults i s') =
      detectedFlags s (lanes i.parts.form.vecLen) (s.active i.parts.mask) (Machine.laneResults i s) := by
  have e1 := unionFlags_congr _ _ _ _ _ h.active h.laneResults
  have e2 := someLane_congr _ _ _ (fun j => (Machine.laneResults i s' j).tiny)
    (fun j => (Machine.laneResults i s j).tiny) h.active (fun j hj => by rw [h.laneResults j hj])
  simp only [Machine.detectedFlags, e1, e2, State.um, h.mxcsr]

/-- Two states that agree on what an instruction reads end in the same way: the same completion, exception or refusal,
over what each is. -/
theorem exec_sameInputs {i : Instr} {s s' : State} (h : SameInputs i s s') (onNext onFault : State → State)
    (hn : ∀ v g, s'.complete i.parts.dest v g i.length = onNext (s.complete i.parts.dest v g i.length))
    (hf : ∀ e g, s'.faulted e g = onFault (s.faulted e g)) :
    exec i s' = mapOutcome onNext onFault (exec i s) := by
  have taken : ∀ e g, takeException e g s' = mapOutcome onNext onFault (takeException e g s) := by
    intro e g
    simp only [takeException, mapOutcome, fault_exn, fault_left, hf]
  have stopped : ∀ stop : Stop, stop.outcome s' = mapOutcome onNext onFault (stop.outcome s) := by
    intro stop
    cases stop with
    | exception e => exact taken e 0
    | refusal r => rfl
  have hready : Ready s' i.parts.form.vecLen i.length ↔ Ready s i.parts.form.vecLen i.length := by
    rw [← entryStop_none, ← entryStop_none, h.entry]
  cases he : s.entryStop i.parts.form.vecLen i.length with
  | some stop =>
    rw [exec_eq_execute, exec_eq_execute]
    simp only [State.execute, he, h.entry, stopped]
  | none =>
    have hr := (entryStop_none _ _ _).1 he
    rcases h.third with ⟨h1, h2⟩ | ⟨stop, h1, h2⟩
    · have hdet := h.detectedFlags
      have htrap : ∀ f, trapping s' f = trapping s f := fun f => by
        simp only [trapping, unmaskedPre, unmaskedPost, State.im, State.dm, State.om, State.um, State.pm, h.mxcsr]
        rfl
      by_cases hq : i.parts.form.embedded = none ∧ (trapping s (Machine.detectedFlags s (lanes i.parts.form.vecLen)
          (s.active i.parts.mask) (Machine.laneResults i s))).any = true
      · rw [exec_traps i s hr h1 hq.1 hq.2, exec_traps i s' (hready.2 hr) h2 hq.1 (by rw [hdet, htrap]; exact hq.2), hdet]
        have hx : s'.fpException = s.fpException := by
          simp only [State.fpException, State.osxmmexcpt, h.cr4]; rfl
        rw [hx, recordedFlags, htrap, h.draws]
        exact taken _ _
      · have quiet : i.parts.form.embedded = none → (trapping s (Machine.detectedFlags s (lanes i.parts.form.vecLen)
            (s.active i.parts.mask) (Machine.laneResults i s))).any = false := fun hn => by
          rw [← Bool.not_eq_true]; exact fun ht => hq ⟨hn, ht⟩
        rw [exec_completes i s hr h1 fun hn => (trapping_none _ _ _ _).1 (quiet hn),
          exec_completes i s' (hready.2 hr) h2 fun hn => (trapping_none _ _ _ _).1 (by rw [hdet, htrap]; exact quiet hn),
          resultVec_congr _ _ _ _ _ _ _ _ h.active h.laneResults h.dest,
          unionFlags_congr _ _ _ _ _ h.active h.laneResults, hn]
        rfl
    · rw [exec_third_stop i s stop hr h1, exec_third_stop i s' stop (hready.2 hr) h2, stopped]

end Sys2Proof.Machine
end

