-- ==== Sys2Proof/Laws/Memory.lean ====
section
/-! SUPPORT. Memory: reading after writing, and the canonical form. -/

namespace Sys2Proof.Machine

/-- Reading what was just written. -/
theorem byte?_write_self (m : Memory) (x : Nat) (v : Byte) : Memory.byte? (Memory.write m x v) x = some v := by
  induction m with
  | nil => simp [Memory.write, Memory.byte?]
  | cons c m ih =>
    obtain ⟨a, b⟩ := c
    unfold Memory.write
    split
    · simp [Memory.byte?]
    · split
      · simp [Memory.byte?]
      · rename_i h1 h2
        simp [Memory.byte?, Ne.symm h2, ih]

/-- A write leaves every other location alone. -/
theorem byte?_write_other (m : Memory) (x y : Nat) (v : Byte) (h : y ≠ x) :
    Memory.byte? (Memory.write m x v) y = Memory.byte? m y := by
  induction m with
  | nil => simp [Memory.write, Memory.byte?, Ne.symm h]
  | cons c m ih =>
    obtain ⟨a, b⟩ := c
    unfold Memory.write
    split
    · simp [Memory.byte?, Ne.symm h]
    · split
      · rename_i h1 h2
        subst h2
        simp [Memory.byte?, Ne.symm h]
      · simp only [Memory.byte?, ih]

/-- The first location of a memory after a write is the first of before or the written one. -/
theorem write_head (m : Memory) (x : Nat) (v : Byte) (c : Host.Cell) (rest : Memory)
    (h : Memory.write m x v = c :: rest) : c.1 = x ∨ ∃ d m', m = d :: m' ∧ c.1 = d.1 := by
  cases m with
  | nil =>
    simp only [Memory.write, List.cons.injEq] at h
    exact .inl (by rw [← h.1])
  | cons d m =>
    obtain ⟨a, b⟩ := d
    unfold Memory.write at h
    split at h
    · simp only [List.cons.injEq] at h; exact .inl (by rw [← h.1])
    · split at h
      · simp only [List.cons.injEq] at h; exact .inl (by rw [← h.1])
      · simp only [List.cons.injEq] at h; exact .inr ⟨(a, b), m, rfl, by rw [← h.1]⟩

/-- The form of a memory with a first entry. -/
theorem wf_cons (c : Host.Cell) (m : Memory) :
    Memory.wf (c :: m) = true ↔ (∀ d m', m = d :: m' → c.1 < d.1) ∧ Memory.wf m = true := by
  cases m with
  | nil => simp [Memory.wf]
  | cons d m => simp [Memory.wf]

/-- A write keeps the canonical form. -/
theorem wf_write (m : Memory) (x : Nat) (v : Byte) (h : Memory.wf m = true) :
    Memory.wf (Memory.write m x v) = true := by
  induction m with
  | nil => rfl
  | cons c m ih =>
    obtain ⟨a, b⟩ := c
    have hm := (wf_cons _ _).1 h
    unfold Memory.write
    split
    · exact (wf_cons _ _).2 ⟨fun d m' e => by simp only [List.cons.injEq] at e; rw [← e.1]; assumption, h⟩
    · split
      · rename_i h1 h2
        subst h2
        exact (wf_cons _ _).2 ⟨fun d m' e => hm.1 d m' e, hm.2⟩
      · rename_i h1 h2
        refine (wf_cons _ _).2 ⟨fun d m' e => ?_, ih hm.2⟩
        rcases write_head _ _ _ _ _ e with h3 | ⟨d', m'', h3, h4⟩
        · simp only; omega
        · have := hm.1 d' m'' h3; simp only at this ⊢; omega

/-- Writing a run of bytes keeps the canonical form. -/
theorem wf_writeBytes (vs : List Byte) (m : Memory) (x : Nat) (h : Memory.wf m = true) :
    Memory.wf (Memory.writeBytes m x vs) = true := by
  induction vs generalizing m x with
  | nil => exact h
  | cons v vs ih => exact ih _ _ (wf_write m x v h)

/-- A run of bytes leaves the locations below it alone. -/
theorem byte?_writeBytes_below (vs : List Byte) (m : Memory) (x y : Nat) (h : y < x) :
    Memory.byte? (Memory.writeBytes m x vs) y = Memory.byte? m y := by
  induction vs generalizing m x with
  | nil => rfl
  | cons v vs ih =>
    rw [Memory.writeBytes, ih _ _ (by omega), byte?_write_other _ _ _ _ (by omega)]

/-- Reading back a run of bytes just written. -/
theorem byte?_writeBytes (vs : List Byte) (m : Memory) (x i : Nat) (h : i < vs.length) :
    Memory.byte? (Memory.writeBytes m x vs) (x + i) = some vs[i] := by
  induction vs generalizing m x i with
  | nil => simp at h
  | cons v vs ih =>
    cases i with
    | zero =>
      show Memory.byte? (Memory.writeBytes m x (v :: vs)) x = some v
      rw [Memory.writeBytes, byte?_writeBytes_below _ _ _ _ (by omega), byte?_write_self]
    | succ i =>
      have := ih (Memory.write m x v) (x + 1) i (by simpa using h)
      rw [Memory.writeBytes, show x + (i + 1) = x + 1 + i by omega, this]; rfl

end Sys2Proof.Machine
end

