-- ==== Sys2Proof/Laws/PerInstr.lean ====
section
/-! SUPPORT. A statement about every instruction as syntax, constructor by constructor. -/

namespace Sys2Proof.Laws.PartsRoundTrip

/-- Taking an instruction apart into the fields of its encoding loses nothing. -/
def Statement (i : Instr) : Prop := i.parts.instr = i

theorem vfmsubadd132phXmmReg (leg : Legacy) (m : Writemask) (d s2 s3 : VReg) :
    Statement (.vfmsubadd132phXmmReg leg m d s2 s3) := rfl

theorem vfmsubadd132phXmmMem (leg : Legacy) (m : Writemask) (d s2 : VReg) (op : MemOp) :
    Statement (.vfmsubadd132phXmmMem leg m d s2 op) := rfl

theorem vfmsubadd132phYmmReg (leg : Legacy) (m : Writemask) (d s2 s3 : VReg) :
    Statement (.vfmsubadd132phYmmReg leg m d s2 s3) := rfl

theorem vfmsubadd132phYmmMem (leg : Legacy) (m : Writemask) (d s2 : VReg) (op : MemOp) :
    Statement (.vfmsubadd132phYmmMem leg m d s2 op) := rfl

theorem vfmsubadd132phZmmReg (leg : Legacy) (m : Writemask) (d s2 s3 : VReg) :
    Statement (.vfmsubadd132phZmmReg leg m d s2 s3) := rfl

theorem vfmsubadd132phZmmEr (leg : Legacy) (m : Writemask) (d s2 s3 : VReg) (rc : RoundMode) :
    Statement (.vfmsubadd132phZmmEr leg m d s2 s3 rc) := rfl

theorem vfmsubadd132phZmmMem (leg : Legacy) (m : Writemask) (d s2 : VReg) (op : MemOp) :
    Statement (.vfmsubadd132phZmmMem leg m d s2 op) := rfl

theorem vfmsubadd213phXmmReg (leg : Legacy) (m : Writemask) (d s2 s3 : VReg) :
    Statement (.vfmsubadd213phXmmReg leg m d s2 s3) := rfl

theorem vfmsubadd213phXmmMem (leg : Legacy) (m : Writemask) (d s2 : VReg) (op : MemOp) :
    Statement (.vfmsubadd213phXmmMem leg m d s2 op) := rfl

theorem vfmsubadd213phYmmReg (leg : Legacy) (m : Writemask) (d s2 s3 : VReg) :
    Statement (.vfmsubadd213phYmmReg leg m d s2 s3) := rfl

theorem vfmsubadd213phYmmMem (leg : Legacy) (m : Writemask) (d s2 : VReg) (op : MemOp) :
    Statement (.vfmsubadd213phYmmMem leg m d s2 op) := rfl

theorem vfmsubadd213phZmmReg (leg : Legacy) (m : Writemask) (d s2 s3 : VReg) :
    Statement (.vfmsubadd213phZmmReg leg m d s2 s3) := rfl

theorem vfmsubadd213phZmmEr (leg : Legacy) (m : Writemask) (d s2 s3 : VReg) (rc : RoundMode) :
    Statement (.vfmsubadd213phZmmEr leg m d s2 s3 rc) := rfl

theorem vfmsubadd213phZmmMem (leg : Legacy) (m : Writemask) (d s2 : VReg) (op : MemOp) :
    Statement (.vfmsubadd213phZmmMem leg m d s2 op) := rfl

theorem vfmsubadd231phXmmReg (leg : Legacy) (m : Writemask) (d s2 s3 : VReg) :
    Statement (.vfmsubadd231phXmmReg leg m d s2 s3) := rfl

theorem vfmsubadd231phXmmMem (leg : Legacy) (m : Writemask) (d s2 : VReg) (op : MemOp) :
    Statement (.vfmsubadd231phXmmMem leg m d s2 op) := rfl

theorem vfmsubadd231phYmmReg (leg : Legacy) (m : Writemask) (d s2 s3 : VReg) :
    Statement (.vfmsubadd231phYmmReg leg m d s2 s3) := rfl

theorem vfmsubadd231phYmmMem (leg : Legacy) (m : Writemask) (d s2 : VReg) (op : MemOp) :
    Statement (.vfmsubadd231phYmmMem leg m d s2 op) := rfl

theorem vfmsubadd231phZmmReg (leg : Legacy) (m : Writemask) (d s2 s3 : VReg) :
    Statement (.vfmsubadd231phZmmReg leg m d s2 s3) := rfl

theorem vfmsubadd231phZmmEr (leg : Legacy) (m : Writemask) (d s2 s3 : VReg) (rc : RoundMode) :
    Statement (.vfmsubadd231phZmmEr leg m d s2 s3 rc) := rfl

theorem vfmsubadd231phZmmMem (leg : Legacy) (m : Writemask) (d s2 : VReg) (op : MemOp) :
    Statement (.vfmsubadd231phZmmMem leg m d s2 op) := rfl

end Sys2Proof.Laws.PartsRoundTrip
end

