-- ==== Sys2Proof/Laws/Step.lean ====
section
/-! SUPPORT. Fetching, one step, and placed code. -/

namespace Sys2Proof.Machine

/-! ### One step -/

/-- Everything a step does where the launch premises hold, by what the decoder reads. -/
theorem step_of (s : State) (r : DecodeResult) (h : Admitted s) (hf : s.fetched = r) :
    step s =
      match (motive := DecodeResult → Outcome) r with
      | .ok i => exec i s
      | .illegal => .fault (.ud { s with draws := s.draws + 1 })
      | .refused r => .refused (refusalOf r)
      | .short => s.fetchStop.outcome s := by
  unfold step
  rw [(launchRefusal_none s).2 h, hf]
  cases r with
  | illegal => simp [takeException, Exn.fault, State.faulted, Exn.cr2]
  | _ => rfl

/-- A refused launch refuses every instruction. -/
theorem exec_refused (i : Instr) (s : State) (r : Refusal) (h : s.launchRefusal = some r) : exec i s = .refused r := by
  rw [exec_eq_execute]
  simp only [State.execute, State.entryStop, h, Stop.outcome]

/-- A refused launch refuses the step. -/
theorem step_refused (s : State) (r : Refusal) (h : s.launchRefusal = some r) : step s = .refused r := by
  simp only [step, h]

/-- A step that needs a byte which cannot be fetched stops as fetching that byte does. -/
theorem step_short (s : State) (stop : Stop) (h : Admitted s) (hs : s.fetched = .short) (hl : s.fetchBytes.length < 15)
    (hb : s.fetchByte s.fetchBytes.length = .error stop) : step s = stop.outcome s := by
  have hf : s.fetchStop = stop := by simp only [State.fetchStop, hb, fetchLimit, hl, if_true]
  rw [step_of s .short h hs]
  show s.fetchStop.outcome s = _
  rw [hf]

/-- A step at a decoded instruction is the instruction. -/
theorem step_ok (s : State) (i : Instr) (h : s.fetched = .ok i) : step s = exec i s := by
  unfold step
  cases hr : s.launchRefusal with
  | some r => exact (exec_refused i s r hr).symm
  | none => rw [h]

/-- What a step that answers a next state did. -/
theorem step_next (s t : State) (h : step s = .next t) : ∃ i, s.fetched = .ok i ∧ exec i s = .next t := by
  unfold step at h
  split at h
  · cases h
  · split at h
    · rename_i i hi; exact ⟨i, hi, h⟩
    · simp [takeException] at h
    · cases h
    · exact absurd h (stop_ne_next _ _ _)

/-- A byte that cannot be fetched is refused. -/
theorem fetchByte_refuses (s : State) (n : Nat) (stop : Stop) (h : s.fetchByte n = .error stop) :
    ∃ r, stop = .refusal r := by
  unfold State.fetchByte at h
  simp only at h
  repeat' split at h
  all_goals simp at h
  all_goals exact ⟨_, h.symm⟩

/-- So where fetching stops the step is refused. -/
theorem fetchStop_refuses (s : State) : ∃ r, s.fetchStop = .refusal r := by
  unfold State.fetchStop
  split
  · rename_i stop hs
    split
    · exact fetchByte_refuses s _ stop hs
    · exact ⟨_, rfl⟩
  · exact ⟨_, rfl⟩

/-- Everything a faulting step can have done: run the decoded instruction, or find the bytes illegal. -/
theorem step_faults (s : State) (f : Fault) (h : step s = .fault f) :
    (∃ i, s.fetched = .ok i ∧ exec i s = .fault f) ∨ (s.fetched = .illegal ∧ f = .ud (s.faulted .ud 0)) := by
  unfold step at h
  split at h
  · cases h
  · split at h
    · rename_i i hi; exact .inl ⟨i, hi, h⟩
    · rename_i hi
      simp only [takeException, Host.Outcome.fault.injEq] at h
      exact .inr ⟨hi, h.symm⟩
    · cases h
    · obtain ⟨r, hr⟩ := fetchStop_refuses s
      rw [hr] at h; cases h

/-- What a step that faults did: an exception over the state, which records flags, and is #XM, only where it is the one
of an unmasked condition. -/
theorem step_fault (s : State) (f : Fault) (h : step s = .fault f) :
    ∃ (e : Exn) (g : BitVec 6), f = e.fault (s.faulted e g) ∧ g.getLsbD 2 = false ∧
      (g ≠ 0 ∨ e = .xm → e = s.fpException) := by
  rcases step_faults s f h with ⟨i, _, hi⟩ | ⟨_, rfl⟩
  · obtain ⟨e, g, e1, e2, e3⟩ := exec_fault _ _ _ hi
    exact ⟨e, g, e1, e2, fun q => (e3 q).1⟩
  · exact ⟨.ud, 0, rfl, by simp, fun q => by simp at q⟩

/-! ### Fetching -/

/-- The bytes fetched begin with the bytes that are there, and a byte is missing only where it cannot be fetched. -/
theorem fetchFrom_prefix (s : State) (bs : List Byte) (n fuel : Nat) (hl : bs.length ≤ fuel)
    (h : ∀ k b, bs[k]? = some b → s.fetchByte (n + k) = .ok b) : ∃ rest, s.fetchFrom n fuel = bs ++ rest := by
  induction bs generalizing n fuel with
  | nil => exact ⟨_, rfl⟩
  | cons b bs ih =>
    cases fuel with
    | zero => simp at hl
    | succ fuel =>
      obtain ⟨rest, hr⟩ := ih (n + 1) fuel (by simpa using hl) (fun k c hc => by
        have := h (k + 1) c (by simpa using hc)
        rwa [show n + 1 + k = n + (k + 1) by omega])
      refine ⟨rest, ?_⟩
      have h0 := h 0 b rfl
      rw [Nat.add_zero] at h0
      simp only [State.fetchFrom, h0, hr, List.cons_append]

/-- Bytes that can all be fetched are at the front of what a step decodes. -/
theorem fetchBytes_prefix (s : State) (bs : List Byte) (hl : bs.length ≤ 15)
    (h : ∀ k b, bs[k]? = some b → s.fetchByte k = .ok b) : ∃ rest, s.fetchBytes = bs ++ rest :=
  fetchFrom_prefix s bs 0 15 hl (fun k b hk => by rw [Nat.zero_add]; exact h k b hk)

/-- An instruction at the front of bytes that can be fetched is what a step decodes. -/
theorem fetched_of_prefix (s : State) (bs : List Byte) (i : Instr) (hd : decode bs = .ok i) (hl : bs.length ≤ 15)
    (h : ∀ k b, bs[k]? = some b → s.fetchByte k = .ok b) : s.fetched = .ok i := by
  obtain ⟨rest, hr⟩ := fetchBytes_prefix s bs hl h
  rw [State.fetched, hr]
  exact decode_append _ _ _ hd

/-- A byte stored in ordinary memory where its address is mapped for fetching can be fetched. -/
theorem fetchByte_stored (s : State) (n p : Nat) (b : Byte) (hc : canonical s.cfg.laBits (s.rip.toNat + n) = true)
    (ht : s.translate (s.rip.toNat + n) .fetch = .mapped p .ordinary) (hb : Memory.byte? s.mem p = some b) :
    s.fetchByte n = .ok b := by
  simp only [State.fetchByte, hc, Bool.not_true, Bool.false_eq_true, if_false, ht, State.physicalByte, hb,
    Option.getD_some]

/-- Between two canonical addresses less than 2^32 apart every address is canonical. -/
theorem canonical_between (w : LaBits) (a n k : Nat) (h1 : canonical w a = true) (h2 : canonical w (a + n) = true)
    (hn : n < 2 ^ 32) (hk : k ≤ n) : canonical w (a + k) = true := by
  simp only [canonical, Bool.or_eq_true, Bool.and_eq_true, decide_eq_true_eq] at h1 h2 ⊢
  cases w <;> simp only [laBits, Nat.reduceSub, Nat.reducePow] at h1 h2 hn ⊢ <;> omega

/-- Placed code is fetched. -/
theorem fetchByte_placeCode (s : State) (bs : List Byte) (k : Nat) (b : Byte) (hk : bs[k]? = some b)
    (h1 : canonical s.cfg.laBits s.rip.toNat = true) (h2 : canonical s.cfg.laBits (s.rip.toNat + bs.length) = true)
    (hn : bs.length < 2 ^ 32) : (s.placeCode bs).fetchByte k = .ok b := by
  obtain ⟨hlt, hb⟩ := List.getElem?_eq_some_iff.1 hk
  refine fetchByte_stored _ k (s.rip.toNat + k) b ?_ ?_ ?_
  · exact canonical_between _ _ bs.length k h1 h2 hn (by omega)
  · have hm : Mapping.answers ⟨s.rip.toNat, s.rip.toNat + bs.length - 1, .fetch, s.cpl, .mapped s.rip.toNat .ordinary⟩
        (s.rip.toNat + k) .fetch s.cpl = true := by
      simp only [Mapping.answers, Bool.and_eq_true, decide_eq_true_eq, beq_self_eq_true, and_true]
      omega
    show Machine.translate (_ :: s.xlate) (s.rip.toNat + k) .fetch s.cpl = _
    simp only [Machine.translate, List.find?_cons, hm, Translation.shift]
    congr 1
    omega
  · show Memory.byte? (Memory.writeBytes s.mem s.rip.toNat bs) (s.rip.toNat + k) = some b
    rw [byte?_writeBytes _ _ _ _ hlt, hb]

end Sys2Proof.Machine
end

