-- ==== Sys2Proof/Tests/Slice0.lean ====
section
/-! SUPPORT. Tests: words written out from the encoding rules, ill-formed terms, single steps, and witnesses that the
hypotheses of each obligation can be met. Expected values are from 95_test_vectors.md (the vector is named) or worked by
hand from the rules. -/

set_option Elab.async false

namespace Sys2Proof.Tests

open Sys2Proof.Machine

/-! ### Decoding: one word of each row, written out from 30_encoding.md R84 to R98 -/

/-- No legacy bytes. -/
def plain : Legacy := ⟨none, false⟩

/-- B1 -/
theorem test_decode_132_xmm_reg :
    decode [0x62, 0xF6, 0x6D, 0x08, 0x97, 0xCB] = .ok (.vfmsubadd132phXmmReg plain .all 1 2 3) := by decide
/-- By hand: SIB 24h is base RSP without index; disp8 1 is the raw byte. -/
theorem test_decode_132_xmm_mem :
    decode [0x62, 0xF6, 0x6D, 0x08, 0x97, 0x4C, 0x24, 0x01] =
      .ok (.vfmsubadd132phXmmMem plain .all 1 2 ⟨.sib 4 none (.d8 1), false⟩) := by decide
/-- B4 -/
theorem test_decode_132_ymm_reg :
    decode [0x62, 0xF6, 0x6D, 0x28, 0x97, 0xCB] = .ok (.vfmsubadd132phYmmReg plain .all 1 2 3) := by decide
/-- B19 -/
theorem test_decode_132_ymm_mem :
    decode [0x62, 0xF6, 0x6D, 0x3B, 0x97, 0x4A, 0xFF] =
      .ok (.vfmsubadd132phYmmMem plain (.merging 3) 1 2 ⟨.base 2 (.d8 0xFF), true⟩) := by decide
/-- B5 -/
theorem test_decode_132_zmm_reg :
    decode [0x62, 0xF6, 0x6D, 0x48, 0x97, 0xCB] = .ok (.vfmsubadd132phZmmReg plain .all 1 2 3) := by decide
/-- B9 -/
theorem test_decode_132_zmm_er :
    decode [0x62, 0x06, 0x15, 0xB7, 0x97, 0xF4] = .ok (.vfmsubadd132phZmmEr plain (.zeroing 7) 30 29 28 .rd) := by decide
/-- B33 -/
theorem test_decode_132_zmm_mem :
    decode [0x62, 0x96, 0x3D, 0x5D, 0x97, 0x3C, 0x08] =
      .ok (.vfmsubadd132phZmmMem plain (.merging 5) 7 8 ⟨.sib 8 (some ⟨9, .x1⟩) .none, true⟩) := by decide
/-- B2 -/
theorem test_decode_213_xmm_reg :
    decode [0x62, 0xF6, 0x6D, 0x08, 0xA7, 0xCB] = .ok (.vfmsubadd213phXmmReg plain .all 1 2 3) := by decide
/-- By hand: the bytes of B23 with opcode A7h. -/
theorem test_decode_213_xmm_mem :
    decode [0x62, 0xF6, 0x6D, 0x08, 0xA7, 0x0C, 0x25, 0x00, 0x10, 0x00, 0x00] =
      .ok (.vfmsubadd213phXmmMem plain .all 1 2 ⟨.sibNoBase none 0x1000, false⟩) := by decide
/-- By hand: the bytes of B4 with opcode A7h. -/
theorem test_decode_213_ymm_reg :
    decode [0x62, 0xF6, 0x6D, 0x28, 0xA7, 0xCB] = .ok (.vfmsubadd213phYmmReg plain .all 1 2 3) := by decide
/-- B32 -/
theorem test_decode_213_ymm_mem :
    decode [0x65, 0x62, 0xF6, 0x6D, 0x28, 0xA7, 0x8D, 0x00, 0x10, 0x00, 0x00] =
      .ok (.vfmsubadd213phYmmMem ⟨some .gs, false⟩ .all 1 2 ⟨.base 5 (.d32 0x1000), false⟩) := by decide
/-- B25 -/
theorem test_decode_213_zmm_reg :
    decode [0x62, 0xF6, 0x6D, 0x48, 0xA7, 0xCB] = .ok (.vfmsubadd213phZmmReg plain .all 1 2 3) := by decide
/-- B11 with opcode A7h -/
theorem test_decode_213_zmm_er :
    decode [0x62, 0xF6, 0x6D, 0x58, 0xA7, 0xCB] = .ok (.vfmsubadd213phZmmEr plain .all 1 2 3 .ru) := by decide
/-- B18 with opcode A7h and L'L = 10b -/
theorem test_decode_213_zmm_mem :
    decode [0x67, 0x62, 0xF6, 0x6D, 0x48, 0xA7, 0x08] =
      .ok (.vfmsubadd213phZmmMem ⟨none, true⟩ .all 1 2 ⟨.base 0 .none, false⟩) := by decide
/-- B3 -/
theorem test_decode_231_xmm_reg :
    decode [0x62, 0xF6, 0x6D, 0x08, 0xB7, 0xCB] = .ok (.vfmsubadd231phXmmReg plain .all 1 2 3) := by decide
/-- B6 -/
theorem test_decode_231_xmm_mem :
    decode [0x62, 0xF6, 0x6D, 0x99, 0xB7, 0x08] =
      .ok (.vfmsubadd231phXmmMem plain (.zeroing 1) 1 2 ⟨.base 0 .none, true⟩) := by decide
/-- B26 -/
theorem test_decode_231_ymm_reg :
    decode [0x62, 0xF6, 0x6D, 0x28, 0xB7, 0xCB] = .ok (.vfmsubadd231phYmmReg plain .all 1 2 3) := by decide
/-- B24 with L'L = 01b -/
theorem test_decode_231_ymm_mem :
    decode [0x62, 0xB6, 0x6D, 0x28, 0xB7, 0x0C, 0xF0] =
      .ok (.vfmsubadd231phYmmMem plain .all 1 2 ⟨.sib 0 (some ⟨14, .x8⟩) .none, false⟩) := by decide
/-- B30 -/
theorem test_decode_231_zmm_reg :
    decode [0x62, 0xF6, 0x05, 0x40, 0xB7, 0xC0] = .ok (.vfmsubadd231phZmmReg plain .all 0 31 0) := by decide
/-- B12 with opcode B7h -/
theorem test_decode_231_zmm_er :
    decode [0x62, 0xF6, 0x6D, 0x78, 0xB7, 0xCB] = .ok (.vfmsubadd231phZmmEr plain .all 1 2 3 .rz) := by decide
/-- B13 -/
theorem test_decode_231_zmm_mem :
    decode [0x62, 0xF6, 0x4D, 0x48, 0xB7, 0x2D, 0x00, 0x01, 0x00, 0x00] =
      .ok (.vfmsubadd231phZmmMem plain .all 5 6 ⟨.ripRel 0x100, false⟩) := by decide

/-- P4f, P4g, P4h, P4i: the reserved fields are illegal. -/
theorem test_illegal :
    decode [0x62, 0xF6, 0x6D, 0x88, 0x97, 0xCB] = .illegal ∧ decode [0x62, 0xF6, 0x6D, 0x68, 0x97, 0xCB] = .illegal ∧
    decode [0x62, 0xF6, 0x6D, 0x68, 0x97, 0x0B] = .illegal ∧ decode [0x62, 0xFE, 0x6D, 0x08, 0x97, 0xCB] = .illegal ∧
    decode [0x62, 0xF6, 0x69, 0x08, 0x97, 0xCB] = .illegal := by decide

/-- P4n: not instructions of the spec. -/
theorem test_refused :
    decode [0x62, 0xF6, 0xED, 0x08, 0x97, 0xCB] = .refused .notInTable ∧
    decode [0x62, 0xF5, 0x6D, 0x08, 0x97, 0xCB] = .refused .notInTable ∧
    decode [0x62, 0xF6, 0x6C, 0x08, 0x97, 0xCB] = .refused .notInTable ∧
    decode [0x62, 0xF6, 0x6D, 0x08, 0x98, 0xCB] = .refused .notInTable ∧
    decode [0x2E, 0x62, 0xF6, 0x6D, 0x08, 0x97, 0xCB] = .refused .legacyBytes ∧
    decode [0xC5] = .refused .notInTable := by decide

/-- The encoder gives the assembler's bytes back (B9, B31). -/
theorem test_encode :
    encode (.vfmsubadd132phZmmEr plain (.zeroing 7) 30 29 28 .rd) = [0x62, 0x06, 0x15, 0xB7, 0x97, 0xF4] ∧
    encode (.vfmsubadd213phYmmMem plain .all 1 2 ⟨.sib 4 (some ⟨5, .x2⟩) (.d8 0xFF), false⟩) =
      [0x62, 0xF6, 0x6D, 0x28, 0xA7, 0x4C, 0x6C, 0xFF] := by decide

/-! ### Well-formedness: an ill-formed term for each check -/

theorem test_wf_mask :
    Instr.wf (.vfmsubadd132phXmmReg plain (.merging 0) 1 2 3) = false ∧
    Instr.wf (.vfmsubadd132phXmmReg plain (.zeroing 0) 1 2 3) = false ∧
    Instr.wf (.vfmsubadd132phXmmReg plain (.zeroing 7) 1 2 3) = true := by decide

theorem test_wf_base :
    Instr.wf (.vfmsubadd132phXmmMem plain .all 1 2 ⟨.base 4 .none, false⟩) = false ∧
    Instr.wf (.vfmsubadd132phXmmMem plain .all 1 2 ⟨.base 12 (.d8 1), false⟩) = false ∧
    Instr.wf (.vfmsubadd132phXmmMem plain .all 1 2 ⟨.base 5 .none, false⟩) = false ∧
    Instr.wf (.vfmsubadd132phXmmMem plain .all 1 2 ⟨.base 13 (.d8 0), false⟩) = true := by decide

theorem test_wf_sib :
    Instr.wf (.vfmsubadd132phXmmMem plain .all 1 2 ⟨.sib 0 (some ⟨4, .x1⟩) .none, false⟩) = false ∧
    Instr.wf (.vfmsubadd132phXmmMem plain .all 1 2 ⟨.sib 13 none .none, false⟩) = false ∧
    Instr.wf (.vfmsubadd132phXmmMem plain .all 1 2 ⟨.sibNoBase (some ⟨4, .x8⟩) 0, false⟩) = false ∧
    Instr.wf (.vfmsubadd132phXmmMem plain .all 1 2 ⟨.sib 4 (some ⟨12, .x1⟩) .none, false⟩) = true := by decide

theorem test_wf_mask_of_memory_form :
    Instr.wf (.vfmsubadd231phZmmMem plain (.merging 0) 1 2 ⟨.ripRel 0, true⟩) = false := by decide

/-! ### Single steps -/

/-- A vector given by its lowest elements. -/
def vec (l : List Half) : Vec := packLanes (fun j => l.getD j 0) l.length

/-- A state the launch premises hold in: the state after reset, with what `withFetchWord` makes ready. -/
def ready : State := State.reset.launchReady

/-- Registers 1, 2, 3 with these elements, and RAX pointing at 5000h. -/
def loaded (r1 r2 r3 : List Half) : State :=
  { ready with
    zmm := ((ready.zmm.set 1 (vec r1)).set 2 (vec r2)).set 3 (vec r3)
    gpr := ready.gpr.set 0 0x5000 }

/-- Elements 4.0 at 5000h (a full 512-bit operand). -/
def operand44 (s : State) : State :=
  { s with mem := Memory.writeBytes s.mem 0x5000 ((List.range 64).map fun i => if i % 2 = 0 then 0x00 else 0x44) }

/-- dest = 2.0, src2 = 3.0, src3 or memory = 4.0 in lanes 0 and 1. -/
def small : State := operand44 (loaded [0x4000, 0x4000] [0x4200, 0x4200] [0x4400, 0x4400])

/-- Elements 0 and 1 of register 1 after an instruction that completes. -/
def pair (o : Outcome) : Option (Half × Half) :=
  match o with
  | .next t => some (lane (t.readZmm 1) 0, lane (t.readZmm 1) 1)
  | _ => none

/-- `[rax]`, full width. -/
def atRax : MemOp := ⟨.base 0 .none, false⟩

/-- Table 5-8 (95_test_vectors.md A2), 132: `2*4 + 3 = 11` in lane 0, `2*4 - 3 = 5` in lane 1. -/
theorem test_132_registers :
    pair (exec (.vfmsubadd132phXmmReg plain .all 1 2 3) small) = some (0x4980, 0x4500) ∧
    pair (exec (.vfmsubadd132phYmmReg plain .all 1 2 3) small) = some (0x4980, 0x4500) ∧
    pair (exec (.vfmsubadd132phZmmReg plain .all 1 2 3) small) = some (0x4980, 0x4500) ∧
    pair (exec (.vfmsubadd132phZmmEr plain .all 1 2 3 .rd) small) = some (0x4980, 0x4500) := by decide +kernel

theorem test_132_memory :
    pair (exec (.vfmsubadd132phXmmMem plain .all 1 2 atRax) small) = some (0x4980, 0x4500) ∧
    pair (exec (.vfmsubadd132phYmmMem plain .all 1 2 atRax) small) = some (0x4980, 0x4500) ∧
    pair (exec (.vfmsubadd132phZmmMem plain .all 1 2 atRax) small) = some (0x4980, 0x4500) := by decide +kernel

/-- 213: `3*2 + 4 = 10`, `3*2 - 4 = 2`. -/
theorem test_213_registers :
    pair (exec (.vfmsubadd213phXmmReg plain .all 1 2 3) small) = some (0x4900, 0x4000) ∧
    pair (exec (.vfmsubadd213phYmmReg plain .all 1 2 3) small) = some (0x4900, 0x4000) ∧
    pair (exec (.vfmsubadd213phZmmReg plain .all 1 2 3) small) = some (0x4900, 0x4000) ∧
    pair (exec (.vfmsubadd213phZmmEr plain .all 1 2 3 .ru) small) = some (0x4900, 0x4000) := by decide +kernel

theorem test_213_memory :
    pair (exec (.vfmsubadd213phXmmMem plain .all 1 2 atRax) small) = some (0x4900, 0x4000) ∧
    pair (exec (.vfmsubadd213phYmmMem plain .all 1 2 atRax) small) = some (0x4900, 0x4000) ∧
    pair (exec (.vfmsubadd213phZmmMem plain .all 1 2 atRax) small) = some (0x4900, 0x4000) := by decide +kernel

/-- 231: `3*4 + 2 = 14`, `3*4 - 2 = 10`. -/
theorem test_231_registers :
    pair (exec (.vfmsubadd231phXmmReg plain .all 1 2 3) small) = some (0x4B00, 0x4900) ∧
    pair (exec (.vfmsubadd231phYmmReg plain .all 1 2 3) small) = some (0x4B00, 0x4900) ∧
    pair (exec (.vfmsubadd231phZmmReg plain .all 1 2 3) small) = some (0x4B00, 0x4900) ∧
    pair (exec (.vfmsubadd231phZmmEr plain .all 1 2 3 .rz) small) = some (0x4B00, 0x4900) := by decide +kernel

theorem test_231_memory :
    pair (exec (.vfmsubadd231phXmmMem plain .all 1 2 atRax) small) = some (0x4B00, 0x4900) ∧
    pair (exec (.vfmsubadd231phYmmMem plain .all 1 2 atRax) small) = some (0x4B00, 0x4900) ∧
    pair (exec (.vfmsubadd231phZmmMem plain .all 1 2 atRax) small) = some (0x4B00, 0x4900) := by decide +kernel

/-- Register 1 and MXCSR after an instruction that completes. -/
def outcome1 (o : Outcome) : Option (Vec × BitVec 32) :=
  match o with
  | .next t => some (t.readZmm 1, t.mxcsr)
  | _ => none

/-- D1: broadcast of two bytes of memory, zeroing, the upper bits zeroed (B6). -/
theorem test_broadcast_zeroing :
    outcome1 (exec (.vfmsubadd231phXmmMem plain (.zeroing 1) 1 2 ⟨.base 0 .none, true⟩)
      { loaded (List.replicate 16 0x3C00) [0x3C00, 0x4000, 0x4200, 0x4400, 0x4500, 0x4600, 0x4700, 0x4800] [] with
        k := ready.k.set 1 0xA5, mem := [(0x5000, 0x00), (0x5001, 0x42)] }) =
      some (vec [0x4400, 0, 0x4900, 0, 0, 0x4C40, 0, 0x4DC0], 0x1F80) := by decide +kernel

/-- D6: flags are OR-ed over the lanes (OE and PE). -/
theorem test_flags_union :
    outcome1 (exec (.vfmsubadd132phXmmReg plain .all 1 2 3)
      (loaded [0x3555, 0x3555, 0x7BFF, 0x3555, 0x3555, 0x3555, 0x3555, 0x3555]
        [0x0000, 0x0000, 0x7BFF, 0x0000, 0x0000, 0x0000, 0x0000, 0x0000]
        [0x4200, 0x4200, 0x4000, 0x4200, 0x4200, 0x4200, 0x4200, 0x4200])) =
      some (vec [0x3C00, 0x3C00, 0x7C00, 0x3C00, 0x3C00, 0x3C00, 0x3C00, 0x3C00], 0x1FA8) := by decide +kernel

/-- D8: embedded rounding suppresses exceptions, even an unmasked one, and leaves MXCSR. -/
theorem test_embedded_quiet :
    outcome1 (exec (.vfmsubadd132phZmmEr plain .all 1 2 3 .rne) { loaded [0x7D00] [] [] with mxcsr := 0x1F00 }) =
      some (vec [0x7F00], 0x1F00) := by decide +kernel

/-- What a faulting outcome shows: exception, MXCSR, RIP, CR2 and register 1. -/
def faultShown (o : Outcome) : Option (Exn × BitVec 32 × Word64 × Word64 × Vec) :=
  match o with
  | .fault f => some (f.exn, f.left.mxcsr, f.left.rip, f.left.cr2, f.left.readZmm 1)
  | _ => none

/-- The exception of a faulting outcome, RIP and element 3 of register 1. -/
def trapShown (o : Outcome) : Option (Exn × Word64 × Half) :=
  match o with
  | .fault f => some (f.exn, f.left.rip, lane (f.left.readZmm 1) 3)
  | _ => none

/-- D11: an unmasked signalling NaN is #XM; D14: #UD where CR4.OSXMMEXCPT is 0. The NaN is not quieted. -/
theorem test_invalid_traps :
    trapShown (exec (.vfmsubadd132phXmmReg plain .all 1 2 3)
      { loaded [0, 0, 0, 0x7D00] [] [] with mxcsr := 0x1F00, cr4 := ready.cr4 ||| 0x400 }) =
        some (.xm, 0xFFF0, 0x7D00) ∧
    trapShown (exec (.vfmsubadd132phXmmReg plain .all 1 2 3) { loaded [0, 0, 0, 0x7D00] [] [] with mxcsr := 0x1F00 }) =
        some (.ud, 0xFFF0, 0x7D00) := by decide +kernel

/-- P4a: a non-canonical operand through DS. -/
theorem test_general_protection :
    faultShown (exec (.vfmsubadd231phXmmMem plain .all 1 2 atRax) { ready with gpr := ready.gpr.set 0 0x0100000000000000 }) =
      some (.gp, 0x1F80, 0xFFF0, 0, 0) := by decide +kernel

/-- P4b: through SS. -/
theorem test_stack_fault :
    faultShown (exec (.vfmsubadd231phXmmMem plain .all 1 2 ⟨.base 5 (.d8 0), false⟩)
      { ready with gpr := ready.gpr.set 5 0x0100000000000000 }) = some (.ss, 0x1F80, 0xFFF0, 0, 0) := by decide +kernel

/-- FP16 by 95_test_vectors.md C4 and C5: overflow judged after rounding, tininess after rounding. -/
theorem test_fp16_corners :
    fma16 .firstOperand 0x7BFF 0x3C00 0x4C00 .add .rd ⟨false, false, true⟩ = ⟨0x7BFF, ⟨false, false, false, false, true⟩, false⟩ ∧
    fma16 .firstOperand 0x7BFF 0x3C00 0x4C00 .add .ru ⟨false, false, true⟩ = ⟨0x7C00, ⟨false, false, true, false, true⟩, false⟩ ∧
    (fma16 .firstOperand 0x0401 0x3BFE 0x0000 .add .rz ⟨false, false, true⟩).value = 0x03FF ∧
    (fma16 .firstOperand 0x0401 0x3BFE 0x0000 .add .rz ⟨false, false, true⟩).flags = ⟨false, false, false, true, true⟩ := by
  decide +kernel

/-! ### Witnesses: the hypotheses of each obligation are met together -/

/-- A register form and a memory form of each length, for witnesses. -/
def regX : Instr := .vfmsubadd132phXmmReg plain .all 1 2 3
def regZ : Instr := .vfmsubadd213phZmmReg plain (.merging 1) 31 30 29
def erZ : Instr := .vfmsubadd231phZmmEr plain (.zeroing 7) 0 31 5 .rz
def memX : Instr := .vfmsubadd231phXmmMem plain .all 1 2 atRax
def memBp : Instr := .vfmsubadd231phXmmMem plain .all 1 2 ⟨.base 5 (.d8 0), false⟩
/-- P4e: only lanes 0 to 3 active. -/
def memK : Instr := .vfmsubadd231phXmmMem plain (.merging 1) 1 2 atRax

/-- The bytes of a code page at RIP: these, then zeros, 15 in all. -/
def page (bs : List Byte) : List Byte := bs ++ List.replicate (15 - bs.length) 0

/-- A ready state with this code at RIP. -/
def running (bs : List Byte) : State := ready.placeCode (page bs)

/-- A ready instruction that completes, with all exceptions masked. -/
theorem completes (i : Instr) (s : State) (hr : Ready s i.parts.form.vecLen i.length) (ht : ThirdReadable i s)
    (hm : AllMasked s) : ∃ t, exec i s = .next t :=
  ⟨_, exec_completes i s hr (third_readable i s ht) fun _ => noUnmasked_of_allMasked s hm _ _ _⟩

theorem regX_completes : ∃ t, exec regX small = .next t := completes _ _ (by decide +kernel) trivial (by decide +kernel)
theorem memX_readable : ThirdReadable memX small := by
  show OperandReadable small _ _
  decide +kernel
theorem memX_completes : ∃ t, exec memX small = .next t :=
  completes _ _ (by decide +kernel) memX_readable (by decide +kernel)
theorem erZ_completes : ∃ t, exec erZ small = .next t := completes _ _ (by decide +kernel) trivial (by decide +kernel)
theorem regZ_completes : ∃ t, exec regZ small = .next t := completes _ _ (by decide +kernel) trivial (by decide +kernel)

theorem witness_EncodedInstructionsDecode :
    Instr.wf (.vfmsubadd231phZmmMem ⟨some .gs, true⟩ (.zeroing 7) 31 30 ⟨.sibNoBase (some ⟨15, .x8⟩) 0x80000000, true⟩) = true ∧
    erZ.wf = true := by decide

theorem witness_DecodedInstructionsAreWellFormed : decode (encode memK) = .ok memK := by decide

theorem witness_DecodedBytesMatchTheirRow :
    (∃ r ∈ opcodeRows, r.covers ((0x62 : BitVec 8) ++ (0xF6 : Byte) ++ (0x6D : Byte) ++ (0x08 : Byte) ++ (0x97 : Byte) ++ (0xCB : Byte)) = true) ∧
    (∀ c ∈ ([0x64, 0x67] : List Byte), c = 0x64 ∨ c = 0x65 ∨ c = 0x67) ∧
    decode ([0x64, 0x67] ++ 0x62 :: 0xF6 :: 0x6D :: 0x08 :: 0x97 :: 0xCB :: []) =
      .ok (.vfmsubadd132phXmmReg ⟨some .fs, true⟩ .all 1 2 3) := by decide

/-- Each illegal byte class, the ends of 40h to 4Fh among them; an illegal byte beside a null segment byte and a repeated
override, which R81 refuses; an ignored bit stored as `encode` does not (`X̄ = 0` with RIP-relative); and a state
that fetches such bytes. -/
theorem witness_IllegalLegacyBytesRaiseUd :
    ((0xF6 : Byte).extractLsb' 0 3 = 6 ∧ (0x6D : Byte).extractLsb' 0 2 = 1 ∧ (0x6D : Byte).getLsbD 7 = false) ∧
    (∀ b ∈ ([0xF0, 0x66, 0xF2, 0xF3, 0x40, 0x4F] : List Byte),
      decode ([0x64, b] ++ encode regX ++ []) = .illegal) ∧
    decode ([0x2E, 0xF0, 0x64, 0x64] ++ 0x62 :: 0xF6 :: 0x6D :: 0x08 :: 0x97 :: 0xCB :: []) = .illegal ∧
    decode ([0x2E, 0x64, 0x64] ++ 0x62 :: 0xF6 :: 0x6D :: 0x08 :: 0x97 :: 0xCB :: []) = .refused .legacyBytes ∧
    decode ([0x48] ++ 0x62 :: 0xB6 :: 0x6D :: 0x08 :: 0x97 :: 0x0D :: [0, 0, 0, 0]) = .illegal ∧
    Admitted (running ([0x48] ++ encode regX)) ∧
    (running ([0x48] ++ encode regX)).fetchBytes =
      [0x48] ++ 0x62 :: 0xF6 :: 0x6D :: 0x08 :: 0x97 :: 0xCB :: List.replicate 8 0 := by decide +kernel

/-- Each of the four reserved fields, on bytes that meet the premises (P4i, P4i, P4g, P4h with `b = 1`, P4f). -/
theorem witness_ReservedFieldsRaiseUd :
    (((0xFE : Byte).extractLsb' 0 3 = 6 ∧ (0xFE : Byte).getLsbD 3 = true) ∧
      ((0x69 : Byte).extractLsb' 0 2 = 1 ∧ (0x69 : Byte).getLsbD 7 = false ∧ (0x69 : Byte).getLsbD 2 = false) ∧
      ((0xF6 : Byte).extractLsb' 0 3 = 6 ∧ (0x6D : Byte).extractLsb' 0 2 = 1 ∧ (0x6D : Byte).getLsbD 7 = false) ∧
      ((0x68 : Byte).extractLsb' 5 2 = 3 ∧ (0x68 : Byte).getLsbD 4 = false) ∧
      ((0x78 : Byte).extractLsb' 5 2 = 3 ∧ (0x0B : Byte).extractLsb' 6 2 ≠ 3) ∧
      ((0x88 : Byte).getLsbD 7 = true ∧ (0x88 : Byte).extractLsb' 0 3 = 0)) := by decide

/-- A state that fetches the first of them. -/
theorem witness_ReservedFieldsRaiseUd_step :
    Admitted (running [0x62, 0xFE, 0x6D, 0x08, 0x97, 0xCB]) ∧
    (running [0x62, 0xFE, 0x6D, 0x08, 0x97, 0xCB]).fetchBytes =
      plain.bytes ++ 0x62 :: 0xFE :: 0x6D :: 0x08 :: 0x97 :: 0xCB :: List.replicate 9 0 := by decide +kernel

/-- No 62h byte; another W. -/
theorem witness_OtherSequencesAreRefused :
    Admitted (running [0xC5]) ∧ (running [0xC5]).fetchBytes = [] ++ 0xC5 :: List.replicate 14 0 ∧
    (0xC5 : Byte) ∉ ([0x62, 0x64, 0x65, 0x67, 0x26, 0x2E, 0x36, 0x3E, 0xF0, 0x66, 0xF2, 0xF3] : List Byte) ∧
    ¬((0x40 : Byte) ≤ 0xC5 ∧ (0xC5 : Byte) ≤ 0x4F) ∧
    Admitted (running [0x62, 0xF6, 0xED, 0x08, 0x97, 0xCB]) ∧
    (running [0x62, 0xF6, 0xED, 0x08, 0x97, 0xCB]).fetchBytes =
      [] ++ 0x62 :: 0xF6 :: 0xED :: 0x08 :: 0x97 :: 0xCB :: List.replicate 9 0 := by decide +kernel

/-- Both overrides in either order; a repeated one; a null byte. -/
theorem witness_LegacyArrangements :
    regX.wf = true ∧ regX.parts.leg = ⟨none, false⟩ ∧
    decode ([0x67, 0x65] ++ encode regX) = .ok (.vfmsubadd132phXmmReg ⟨some .gs, true⟩ .all 1 2 3) ∧
    decode ([0x64, 0x64] ++ encode regX) = .refused .legacyBytes ∧
    decode ([0x64, 0x65] ++ encode regX) = .refused .legacyBytes ∧
    decode ([0x3E] ++ encode regX) = .refused .legacyBytes := by decide

theorem witness_StepRunsTheDecodedInstruction :
    (running (encode regX)).fetched = .ok regX ∧ Admitted (running [0xF0, 0x62, 0xF6, 0x6D, 0x08, 0x97, 0xCB]) ∧
    (running [0xF0, 0x62, 0xF6, 0x6D, 0x08, 0x97, 0xCB]).fetched = .illegal ∧
    Admitted (running [0xC5]) ∧ (running [0xC5]).fetched = .refused .notInTable := by decide +kernel

theorem witness_StepRunsTheStoredInstruction : regX.wf = true ∧
    (∀ (n : Nat) (b : Byte), (encode regX)[n]? = some b →
      canonical (running (encode regX)).cfg.laBits ((running (encode regX)).rip.toNat + n) = true ∧
      ∃ p, (running (encode regX)).translate ((running (encode regX)).rip.toNat + n) .fetch = .mapped p .ordinary ∧
        Memory.byte? (running (encode regX)).mem p = some b) := by
  refine ⟨by decide, fun n b h => ?_⟩
  obtain ⟨hn, rfl⟩ := List.getElem?_eq_some_iff.1 h
  have hl : (encode regX).length = 6 := by decide
  have key : ∀ n : Fin 6, canonical (running (encode regX)).cfg.laBits ((running (encode regX)).rip.toNat + n) = true ∧
      (running (encode regX)).translate ((running (encode regX)).rip.toNat + n) .fetch = .mapped (0xFFF0 + n) .ordinary ∧
      Memory.byte? (running (encode regX)).mem (0xFFF0 + n) = (encode regX)[n.val]? := by decide +kernel
  obtain ⟨h1, h2, h3⟩ := key ⟨n, by omega⟩
  exact ⟨h1, _, h2, h3.trans h⟩

theorem witness_PlacedWordsRun : decodeTableWord 48 0xCB97086DF662 = some regX := by decide +kernel

theorem placed_steps : ∃ t, step (State.reset.withFetchWord 48 0xCB97086DF662) = .next t := by
  have h : (State.reset.withFetchWord 48 0xCB97086DF662).fetched = .ok regX := by decide +kernel
  rw [step_ok _ _ h]
  exact completes _ _ (by decide +kernel) trivial (by decide +kernel)

theorem witness_StepKeepsInvariant : Inv (State.reset.withFetchWord 48 0xCB97086DF662) ∧
    ∃ t, step (State.reset.withFetchWord 48 0xCB97086DF662) = .next t := ⟨by decide +kernel, placed_steps⟩

theorem witness_FaultKeepsInvariant :
    Inv (running [0xF0, 0x62, 0xF6, 0x6D, 0x08, 0x97, 0xCB]) ∧
    ∃ f, step (running [0xF0, 0x62, 0xF6, 0x6D, 0x08, 0x97, 0xCB]) = .fault f := by
  refine ⟨by decide +kernel, _, step_of _ .illegal (by decide +kernel) (by decide +kernel)⟩

theorem witness_ResetAndInitValues :
    (∃ r : GReg, r ≠ 0 ∧ r ≠ 2) ∧ ∃ b : Nat, b ≠ 29 ∧ b ≠ 30 := ⟨⟨1, by decide⟩, ⟨31, by decide⟩⟩

/-- Clauses 1 to 4: another mode by each of its three bits, alignment checking, single step. -/
theorem witness_PremisesRefuse :
    (State.csL { ready with csL := false } = false ∧ State.reset.efer.getLsbD 10 = false ∧
      State.reset.cr0.getLsbD 0 = false) ∧
    (State.mode64 { ready with cr0 := ready.cr0 ||| 0x40000, rflags := 0x40002, cpl := 3 } = true ∧
      State.alignmentChecking { ready with cr0 := ready.cr0 ||| 0x40000, rflags := 0x40002, cpl := 3 } = true) ∧
    (State.mode64 { ready with rflags := 0x102 } = true ∧ State.alignmentChecking { ready with rflags := 0x102 } = false ∧
      State.singleStep { ready with rflags := 0x102 } = true) := by decide +kernel

/-- Clauses 5 and 6: breakpoint 0 on the instruction, and on the last byte of a 16-byte operand. -/
def broken : State := { small with dr7 := 0x1, drAddr := small.drAddr.set 0 0xFFF0 }
def watched : State := { small with dr7 := 0x30001, drAddr := small.drAddr.set 0 0x500F }

theorem witness_PremisesRefuse_breakpoints :
    (broken.mode64 = true ∧ broken.alignmentChecking = false ∧ broken.singleStep = false ∧
      broken.dr7.getLsbD (2 * (0 : Fin 4)) = true ∧ broken.dr7.extractLsb' (16 + 4 * (0 : Fin 4)) 2 = 0 ∧
      broken.drAddr[(0 : Fin 4)] = broken.rip) ∧
    (memX.parts.form = .mem .v128 atRax ∧ Ready watched .v128 memX.length ∧
      (watched.linearAddress memX.parts.leg memX.length .v128 atRax).toNat = 0x5000 ∧
      (∀ m < operandSize .v128 false, ByteReadable watched (0x5000 + m)) ∧
      watched.dr7.getLsbD (2 * (0 : Fin 4)) = true ∧ watched.dr7.extractLsb' (16 + 4 * (0 : Fin 4)) 2 = 3 ∧
      (watched.dr7.extractLsb' (18 + 4 * (0 : Fin 4)) 2).toNat = 0 ∧ (watched.drAddr[(0 : Fin 4)]).toNat / 1 * 1 = 0x500F ∧
      0x500F < 0x5000 + operandSize .v128 false ∧ 0x5000 < 0x500F + 1) := by decide +kernel

/-- Clauses 7 and 8: a successor, and a third instruction byte, at the first address that is not canonical. -/
def lastBytes : State :=
  { ready with rip := 0x00007FFFFFFFFFFE, mem := Memory.writeBytes [] 0x00007FFFFFFFFFFE [0x62, 0xF6] }

theorem witness_PremisesRefuse_canonical :
    (Admitted { ready with rip := 0x00007FFFFFFFFFFA } ∧ canonical ready.cfg.laBits (0x00007FFFFFFFFFFA + regX.length) = false) ∧
    (Admitted lastBytes ∧ lastBytes.fetchBytes = [0x62, 0xF6] ∧ lastBytes.fetched = .short ∧
      canonical lastBytes.cfg.laBits (lastBytes.rip.toNat + 2) = false) := by decide +kernel

/-- A ready state whose code at RIP answers so to a fetch. -/
def codeAt (t : Translation) : State := { ready with xlate := [⟨0xFFF0, 0xFFF0, .fetch, 0, t⟩] }

/-- Clauses 9 and 10: code in shared and in device memory, and code that is not mapped. -/
theorem witness_PremisesRefuse_code :
    ∀ t ∈ ([.mapped 0 .shared, .mapped 0 .device, .fault 0x10] : List Translation),
      Admitted (codeAt t) ∧ (codeAt t).fetchBytes = [] ∧ (codeAt t).fetched = .short ∧
      canonical (codeAt t).cfg.laBits (codeAt t).rip.toNat = true ∧ (codeAt t).translate (codeAt t).rip.toNat .fetch = t := by decide +kernel

/-- Two enabled breakpoints by hand from the family's layout of DR7: the operand of 4 bytes below the watched byte is
not met, and the instruction with a breakpoint elsewhere is not stopped. -/
theorem test_breakpoints :
    broken.launchRefusal = some .breakpoint ∧ watched.launchRefusal = none ∧
    watched.dataBreakpoint 0x500C 4 = true ∧ watched.dataBreakpoint 0x500B 4 = false := by decide +kernel

/-- Each of the five causes. -/
theorem witness_DisabledStateRaisesUd :
    Admitted ready ∧ NextCanonical ready regX.length ∧
    (∀ c ∈ ([{ ready with cfg := { ready.cfg with avx512fp16 := false } }, { ready with cfg := { ready.cfg with avx512vl := false } },
        { ready with cr4 := 0 }, { ready with xcr0 := 0xE5 }, { ready with xcr0 := 0x67 }] : List State),
      Admitted c ∧ NextCanonical c regX.length ∧
      (c.cfg.avx512fp16 = false ∨ (regX.parts.form.vecLen ≠ .v512 ∧ c.cfg.avx512vl = false) ∨
        c.cr4.getLsbD 18 = false ∨ c.xcr0.extractLsb' 1 2 ≠ 3 ∨ c.xcr0.extractLsb' 5 3 ≠ 7)) := by decide +kernel

theorem witness_TaskSwitchedRaisesNm :
    Admitted { ready with cr0 := ready.cr0 ||| 8 } ∧ NextCanonical { ready with cr0 := ready.cr0 ||| 8 } memX.length ∧
    StateEnabled { ready with cr0 := ready.cr0 ||| 8 } memX.parts.form.vecLen ∧
    State.cr0 { ready with cr0 := ready.cr0 ||| 8 } = ready.cr0 ||| 8 ∧ (ready.cr0 ||| 8).getLsbD 3 = true := by
  decide +kernel

/-- P4c: RAX such that bytes 8 to 15 of the operand are the first that are not canonical; and the same through RBP. -/
theorem witness_NonCanonicalOperandsFault :
    (memX.parts.form = .mem .v128 atRax ∧
      Ready { ready with gpr := ready.gpr.set 0 0x00007FFFFFFFFFF8 } .v128 memX.length ∧ 8 < operandSize .v128 false ∧
      neededByte (lanes .v128) (ready.active memX.parts.mask) false 8 = true ∧
      canonical ready.cfg.laBits ((State.linearAddress { ready with gpr := ready.gpr.set 0 0x00007FFFFFFFFFF8 }
        memX.parts.leg memX.length .v128 atRax).toNat + 8) = false ∧
      ¬(memX.parts.leg.seg = none ∧ (baseReg atRax.addr = some 4 ∨ baseReg atRax.addr = some 5))) ∧
    (memBp.parts.form = .mem .v128 ⟨.base 5 (.d8 0), false⟩ ∧
      Ready { ready with gpr := ready.gpr.set 5 0xFFFFFFFFFFFFFFFF } .v128 memBp.length ∧
      neededByte (lanes .v128) (ready.active memBp.parts.mask) false 1 = true ∧
      canonical ready.cfg.laBits ((State.linearAddress { ready with gpr := ready.gpr.set 5 0xFFFFFFFFFFFFFFFF }
        memBp.parts.leg memBp.length .v128 ⟨.base 5 (.d8 0), false⟩).toNat + 1) = false ∧
      memBp.parts.leg.seg = none ∧ baseReg (MemAddr.base 5 (.d8 0)) = some 5) := by decide +kernel

/-- `[rax]` at RIP, on a page that faults for reads. -/
def faulting : State :=
  let s := running (encode memX)
  { s with gpr := s.gpr.set 0 0x5000, xlate := ⟨0x5000, 0x5FFF, .read, 0, .fault 4⟩ :: s.xlate }

/-- Every needed byte of the operand page-faults. -/
theorem faulting_operand :
    memX.parts.form = .mem .v128 atRax ∧ Ready faulting .v128 memX.length ∧
    (∀ n < operandSize .v128 false,
      canonical faulting.cfg.laBits ((faulting.linearAddress memX.parts.leg memX.length .v128 atRax).toNat + n) = true) ∧
    (∀ n < operandSize .v128 false,
      faulting.translate ((faulting.linearAddress memX.parts.leg memX.length .v128 atRax).toNat + n) .read = .fault 4) ∧
    neededByte (lanes .v128) (faulting.active memX.parts.mask) false 0 = true := by decide +kernel

/-- A step there raises #PF (P4d). -/
theorem faulting_steps : ∃ code a t, step faulting = .fault (.pf code a t) := by
  obtain ⟨hf, hr, hc, ht, hn⟩ := faulting_operand
  obtain ⟨j, c, _, _, _, ha⟩ := accessStop_fault faulting memX.parts.leg atRax
    (faulting.span memX.parts.leg memX.length memX.parts.mask .v128 atRax) 0 4
    (fun n hn => ⟨hc n hn, fun p hp => by
      have := ht n hn
      rw [show faulting.translate ((faulting.linearAddress memX.parts.leg memX.length .v128 atRax).toNat + n) .read =
        .mapped p .device from hp] at this
      cases this⟩) (by decide) hn (ht 0 (by decide))
  have h3 : third memX faulting = .error (.exception (.pf c (BitVec.ofNat 64
      ((faulting.linearAddress memX.parts.leg memX.length .v128 atRax).toNat + j)))) := by
    rw [third_mem memX faulting .v128 atRax hf, State.readMem, ha]
    rfl
  rw [step_ok faulting memX (by decide +kernel), exec_third_stop memX faulting _ hr h3]
  exact ⟨_, _, _, stop_pf _ _ _⟩

theorem witness_PageFaults :
    (memX.parts.form = .mem .v128 atRax ∧ Ready faulting .v128 memX.length ∧
      (∀ n < operandSize .v128 false,
        canonical faulting.cfg.laBits ((faulting.linearAddress memX.parts.leg memX.length .v128 atRax).toNat + n) = true) ∧
      (∀ n < operandSize .v128 false,
        faulting.translate ((faulting.linearAddress memX.parts.leg memX.length .v128 atRax).toNat + n) .read = .fault 4) ∧
      neededByte (lanes .v128) (faulting.active memX.parts.mask) false 0 = true) ∧
    ∃ code a t, step faulting = .fault (.pf code a t) := ⟨faulting_operand, faulting_steps⟩

/-- P4e: the last eight bytes lie on a page that faults, under inactive lanes. -/
def halfMasked : State :=
  { small with
    k := small.k.set 1 0x0F
    gpr := small.gpr.set 0 0x5FF8
    xlate := [⟨0x6000, 0x6FFF, .read, 0, .fault 4⟩] }

theorem witness_UnneededBytesMayFault :
    memK.parts.form = .mem .v128 atRax ∧ Ready halfMasked .v128 memK.length ∧
    (halfMasked.linearAddress memK.parts.leg memK.length .v128 atRax).toNat = 0x5FF8 ∧
    (∀ n < operandSize .v128 false, neededByte (lanes .v128) (halfMasked.active memK.parts.mask) false n = true →
      ByteReadable halfMasked (0x5FF8 + n)) ∧
    (∀ n < operandSize .v128 false, ∀ p, halfMasked.translate (0x5FF8 + n) .read ≠ .mapped p .device) ∧
    halfMasked.dataBreakpoint 0x5FF8 (operandSize .v128 false) = false ∧
    NoUnmasked halfMasked (lanes .v128) (halfMasked.active memK.parts.mask) (laneResults memK halfMasked) := by
  refine ⟨rfl, by decide +kernel, by decide +kernel, by decide +kernel, fun n hn p h => ?_, by decide +kernel,
    noUnmasked_of_allMasked _ (by decide +kernel) _ _ _⟩
  have key : ∀ n < operandSize .v128 false,
      (match halfMasked.translate (0x5FF8 + n) .read with
        | .mapped _ .device => true
        | _ => false) = false := by decide +kernel
  have := key n hn
  rw [h] at this
  cases this

theorem witness_DeviceOperandsAreRefused :
    memX.parts.form = .mem .v128 atRax ∧
    Ready { small with xlate := [⟨0x500F, 0x500F, .read, 0, .mapped 0xFEE00000 .device⟩] } .v128 memX.length ∧
    State.translate { small with xlate := [⟨0x500F, 0x500F, .read, 0, .mapped 0xFEE00000 .device⟩] } (0x5000 + 15) .read =
      .mapped 0xFEE00000 .device ∧ 15 < operandSize .v128 false ∧
    ∀ m < operandSize .v128 false, canonical small.cfg.laBits (0x5000 + m) = true := by decide +kernel

/-- D11: a signalling NaN with IM = 0. D12: an exact tiny result with UM = 0. -/
theorem witness_UnmaskedConditionsTrap :
    (regX.parts.form.embedded = none ∧ ThirdReadable regX { loaded [0x7D00] [] [] with mxcsr := 0x1F00 } ∧
      Ready { loaded [0x7D00] [] [] with mxcsr := 0x1F00 } regX.parts.form.vecLen regX.length ∧
      Detects regX { loaded [0x7D00] [] [] with mxcsr := 0x1F00 } 0 ∧
      Unmasked { loaded [0x7D00] [] [] with mxcsr := 0x1F00 } 0) ∧
    Detects regX { loaded [0x0400] [] [0x3800] with mxcsr := 0x1780 } 4 ∧
    Unmasked { loaded [0x0400] [] [0x3800] with mxcsr := 0x1780 } 4 := by
  refine ⟨⟨rfl, trivial, by decide +kernel, ⟨0, by decide, rfl, .inl ⟨rfl, by decide +kernel⟩⟩, by unfold Unmasked; decide +kernel⟩,
    ⟨0, by decide, rfl, ?_⟩, by unfold Unmasked; decide +kernel⟩
  exact .inr (.inr (.inr (.inr ⟨rfl, .inr (by decide +kernel)⟩)))

theorem witness_MaskedInstructionsComplete :
    Ready small memX.parts.form.vecLen memX.length ∧ ThirdReadable memX small ∧ small.mxcsr.extractLsb' 7 6 = 0x3F ∧
    Ready small erZ.parts.form.vecLen erZ.length :=
  ⟨by decide +kernel, memX_readable, by decide +kernel, by decide +kernel⟩

/-- The register results: ready at each length, nothing unmasked. -/
theorem witness_Vfmsubadd132RegisterResults :
    Ready small .v128 (regLength plain) ∧ Ready small .v256 (regLength plain) ∧ Ready small .v512 (regLength plain) ∧
    ∀ kl act r, NoUnmasked small kl act r :=
  ⟨by decide +kernel, by decide +kernel, by decide +kernel, noUnmasked_of_allMasked small (by decide +kernel)⟩

theorem witness_Vfmsubadd213RegisterResults :
    Ready small .v128 (regLength ⟨some .fs, true⟩) ∧ ∀ kl act r, NoUnmasked small kl act r :=
  ⟨by decide +kernel, noUnmasked_of_allMasked small (by decide +kernel)⟩

theorem witness_Vfmsubadd231RegisterResults :
    Ready small .v512 (regLength ⟨none, true⟩) ∧ ∀ kl act r, NoUnmasked small kl act r :=
  ⟨by decide +kernel, noUnmasked_of_allMasked small (by decide +kernel)⟩

theorem witness_EmbeddedRoundingResults : Ready { small with cfg := { small.cfg with avx512vl := false } } .v512 (regLength plain) := by
  decide +kernel

/-- The memory results: every byte of `[rax]` readable, at each length. -/
theorem witness_Vfmsubadd132MemoryResults :
    ∀ vl ∈ ([.v128, .v256, .v512] : List VecLen),
      Ready small vl (memLength plain atRax) ∧
      OperandReadable small (small.linearAddress plain (memLength plain atRax) vl atRax).toNat (operandSize vl false) := by
  decide +kernel

/-- The same at the top of the lower canonical half: the last byte is the last canonical one. -/
theorem witness_Vfmsubadd213MemoryResults :
    Ready { small with gpr := small.gpr.set 0 0x00007FFFFFFFFFF0 } .v128 (memLength plain atRax) ∧
    OperandReadable { small with gpr := small.gpr.set 0 0x00007FFFFFFFFFF0 } 0x00007FFFFFFFFFF0 (operandSize .v128 false) := by
  decide +kernel

/-- A broadcast operand of two bytes. -/
theorem witness_Vfmsubadd231MemoryResults :
    Ready small .v512 (memLength plain ⟨.base 0 .none, true⟩) ∧ OperandReadable small 0x5000 (operandSize .v512 true) := by
  decide +kernel

theorem witness_NextFrame : ∃ i s t, exec i s = .next t := ⟨memX, small, memX_completes⟩

/-- D11 and D14: an unmasked signalling NaN at RIP, with CR4.OSXMMEXCPT as given. -/
def signalling (cr4 : Word64) : State :=
  { running (encode regX) with zmm := ready.zmm.set 1 (vec [0x7D00]), mxcsr := 0x1F00, cr4 := ready.cr4 ||| cr4 }

/-- #UD in place of #XM sets a flag of MXCSR. -/
theorem signalling_ud : ∃ f, step (signalling 0) = .fault f ∧ f.exn = .ud ∧ f.left.mxcsr ≠ (signalling 0).mxcsr := by
  have hf : (signalling 0).fetched = .ok regX := by decide +kernel
  have hq : (trapping (signalling 0) (detectedFlags (signalling 0) (lanes regX.parts.form.vecLen)
      ((signalling 0).active regX.parts.mask) (laneResults regX (signalling 0)))).any = true := by decide +kernel
  have he := exec_traps regX (signalling 0) (by decide +kernel) (third_readable _ _ trivial) rfl hq
  have hx : (signalling 0).fpException = .ud := by decide +kernel
  refine ⟨_, by rw [step_ok _ _ hf, he, takeException], ?_, fun h => ?_⟩
  · rw [fault_exn, hx]
  · rw [fault_left, faulted_mxcsr] at h
    have h0 := congrArg (fun w => BitVec.getLsbD w 0) h
    have hm : (signalling 0).mxcsr.getLsbD 0 = false := by decide +kernel
    have ht : (trapping (signalling 0) (detectedFlags (signalling 0) (lanes regX.parts.form.vecLen)
      ((signalling 0).active regX.parts.mask) (laneResults regX (signalling 0)))).bits.getLsbD 0 = true := by decide +kernel
    simp only [BitVec.getLsbD_or, BitVec.getLsbD_setWidth, recordedFlags, hm, ht] at h0
    simp at h0

/-- A page fault, #XM, and #UD with a flag recorded. -/
theorem witness_FaultFrame :
    (∃ f : Fault, step faulting = .fault f ∧ f.exn ≠ .xm ∧ f.exn ≠ .ud) ∧
    trapShown (step (signalling 0x400)) = some (.xm, 0xFFF0, 0) ∧
    ∃ f, step (signalling 0) = .fault f ∧ f.exn = .ud ∧ f.left.mxcsr ≠ (signalling 0).mxcsr := by
  obtain ⟨code, a, t, h⟩ := faulting_steps
  exact ⟨⟨_, h, by simp [Fault.exn], by simp [Fault.exn]⟩, by decide +kernel, signalling_ud⟩

theorem witness_SystemRegisterWrites :
    (∃ code a t, step faulting = .fault (.pf code a t)) ∧
    (∃ t, step (running [0xF0, 0x62, 0xF6, 0x6D, 0x08, 0x97, 0xCB]) = .fault (.ud t)) ∧
    (∃ t, step (State.reset.withFetchWord 48 0xCB97086DF662) = .next t) :=
  ⟨faulting_steps, ⟨_, step_of _ .illegal (by decide +kernel) (by decide +kernel)⟩, placed_steps⟩

theorem witness_FlagsWritten : (∃ t, exec regX small = .next t) ∧ regX.parts.form.embedded = none ∧
    (∃ t, exec erZ small = .next t) ∧ erZ.parts.form.embedded ≠ none :=
  ⟨regX_completes, rfl, erZ_completes, by decide⟩

/-- Merging with no active lane (D4): k1 is 0. -/
theorem witness_UpperBitsZeroed : (∃ t, exec regZ small = .next t) ∧
    (∀ j < lanes regZ.parts.form.vecLen, small.active regZ.parts.mask j = false) ∧ ∃ k, regZ.parts.mask = .merging k :=
  ⟨regZ_completes, by decide +kernel, 1, rfl⟩

theorem witness_CompletedLanes : ∃ i s t, exec i s = .next t := ⟨erZ, small, erZ_completes⟩

/-- k1 with bits above `KL` set, k3 written: where the instruction completes, traps (D11), and is refused. -/
theorem witness_OnlyMaskBitsAreRead :
    (∃ t, exec (.vfmsubadd132phXmmReg plain (.merging 1) 1 2 3) small = .next t) ∧
    trapShown (exec (.vfmsubadd132phXmmReg plain (.merging 1) 1 2 3) { signalling 0x400 with k := ready.k.set 1 0x01 }) =
      some (.xm, 0xFFF0, 0) ∧
    exec (.vfmsubadd132phXmmReg plain (.merging 1) 1 2 3) State.reset = .refused .not64BitMode ∧
    (∀ j < lanes VecLen.v128, (((small.k.set 1 0xFF00).set 3 1)[(1 : KReg)]).getLsbD j = (small.readK 1).getLsbD j) ∧
    ∀ j < lanes VecLen.v128, (((ready.k.set 1 0xFF01).set 3 1)[(1 : KReg)]).getLsbD j = ((ready.k.set 1 0x01)[(1 : KReg)]).getLsbD j :=
  ⟨completes _ _ (by decide +kernel) trivial (by decide +kernel), by decide +kernel, exec_refused _ _ _ rfl,
    by decide +kernel, by decide +kernel⟩

/-- Register 9 and the bits of register 3 above 128 changed, where the instruction completes, and register 9 where it
traps. -/
theorem witness_OnlyOperandBitsAreRead :
    (∃ t, exec regX small = .next t) ∧
    (∀ r ∈ ([1, 2, 3] : List VReg), ∀ b < 128,
      (((small.zmm.set 9 1).set 3 (small.readZmm 3 ||| (1 : Vec) <<< 128))[r]).getLsbD b = (small.readZmm r).getLsbD b) ∧
    trapShown (exec regX (signalling 0x400)) = some (.xm, 0xFFF0, 0) ∧
    ∀ r ∈ ([1, 2, 3] : List VReg), ∀ b < 128,
      (((signalling 0x400).zmm.set 9 1)[r]).getLsbD b = ((signalling 0x400).readZmm r).getLsbD b :=
  ⟨regX_completes, by decide +kernel, by decide +kernel, by decide +kernel⟩

theorem witness_DazFtzSettingIrrelevantWhenClear :
    (small.mxcsr.getLsbD 6 = false ∧ small.mxcsr.getLsbD 15 = false ∧ ∃ t, exec regX small = .next t) ∧
    (signalling 0x400).mxcsr.getLsbD 6 = false ∧ (signalling 0x400).mxcsr.getLsbD 15 = false ∧
    trapShown (exec regX (signalling 0x400)) = some (.xm, 0xFFF0, 0) :=
  ⟨⟨by decide, by decide, regX_completes⟩, by decide +kernel, by decide +kernel, by decide +kernel⟩

theorem witness_PrivilegeReachesOnlyTranslate :
    (∃ t, exec memX small = .next t) ∧
    (∀ a, Machine.translate small.xlate a .read 3 = Machine.translate small.xlate a .read small.cpl) ∧
    State.alignmentChecking { small with cpl := 3 } = small.alignmentChecking ∧
    trapShown (exec regX (signalling 0x400)) = some (.xm, 0xFFF0, 0) ∧
    State.alignmentChecking { signalling 0x400 with cpl := 3 } = (signalling 0x400).alignmentChecking :=
  ⟨memX_completes, fun _ => rfl, by decide +kernel, by decide +kernel, by decide +kernel⟩

theorem witness_EffectiveAddresses : (∃ i s t, exec i s = .next t) ∧ ∃ i s f, exec i s = .fault f := by
  refine ⟨⟨memX, small, memX_completes⟩, memX, { ready with gpr := ready.gpr.set 0 0x0100000000000000 }, ?_⟩
  have h := test_general_protection
  unfold memX
  revert h
  generalize exec _ _ = o
  cases o with
  | fault f => exact fun _ => ⟨f, rfl⟩
  | next t => exact fun h => absurd h (by simp [faultShown])
  | refused r => exact fun h => absurd h (by simp [faultShown])

theorem witness_OperandElementsAreLittleEndian :
    small.translate (0x5000 + 2 * 1) .read = .mapped 0x5002 .ordinary ∧
    small.translate (0x5000 + (2 * 1 + 1)) .read = .mapped 0x5003 .ordinary ∧
    Memory.byte? small.mem 0x5002 = some 0x00 ∧ Memory.byte? small.mem 0x5003 = some 0x44 := by decide +kernel

/-! #### FP16 -/

theorem witness_NanOperandsPropagate :
    (isNan 0x7D00 = true ∧ isSnan 0x7D00 = true) ∧ (isNan 0x3C00 = false ∧ isNan 0xFE01 = true) ∧
    (isNan 0x7C00 = false ∧ isNan 0x0000 = false ∧ isNan 0x7E00 = true) := by decide

/-- The three causes, none of which excludes the others' premise `daz = false`, and Invalid raised by each. -/
theorem witness_InvalidOperations :
    ((fma16 .firstOperand 0x7C01 0x3C00 0x0000 .add .rne ⟨false, false, true⟩).flags.ie = true ∧
      (fma16 .firstOperand 0x7C00 0x8000 0x0001 .add .rne ⟨false, false, true⟩).flags.ie = true ∧
      (fma16 .firstOperand 0x7C00 0x3C00 0xFC00 .add .rne ⟨false, false, true⟩).flags.ie = true) ∧
    isSnan 0x7C01 = true ∧ (isInf 0x7C00 = true ∧ isZero 0x8000 = true) ∧
    (isInf 0x7C00 = true ∧ isInf 0xFC00 = true ∧ ((fpSign 0xFC00 != (LaneOp.add == .sub)) ≠ (fpSign 0x7C00 != fpSign 0x3C00))) ∧
    FpCtl.daz ⟨false, false, true⟩ = false := by decide

theorem witness_InfiniteResults :
    (isNan 0x7C00 = false ∧ isNan 0x0001 = false ∧ isInf 0x7C00 = true ∧ isZero 0x7C00 = false ∧ isZero 0x0001 = false ∧
      isInf 0x7BFF = false) ∧
    (isInf 0x0000 = false ∧ isInf 0x7BFF = false ∧ isInf 0xFC00 = true) ∧ FpCtl.daz ⟨false, false, true⟩ = false := by decide

/-- Both signs of zero, and a cancellation. -/
theorem witness_ExactZeroResults :
    (IsFinite 0x8000 ∧ IsFinite 0x3C00 ∧ IsFinite 0x0000 ∧ exactValue 0x8000 0x3C00 0x0000 .add = 0) ∧
    (exactValue 0x3C00 0x3C00 0x3C00 .sub = 0) ∧ FpCtl.daz ⟨false, false, true⟩ = false := by decide

theorem witness_SubtractionNegatesTheAddend :
    (isNan 0x8000 = false ∧ isNan 0x7E00 = true ∧ NanRule.firstOperand = .firstOperand) ∧
    (isNan 0xFC00 = false ∧ isNan 0x3C00 = false ∧ isNan 0x0001 = false) ∧ isNan 0x7D00 = true := by decide

theorem witness_MultiplicationCommutes :
    isNan 0x7C00 = false ∧ isNan 0x0000 = false ∧ isNan 0x03FF = false := by decide

/-- A tiny result that FTZ flushes, and one it does not; MXCSR after reset rounds to nearest even, with bit 13 set down,
with bit 14 set up (10_state.md R25). -/
theorem witness_DazAndFtz :
    State.reset.rc = .rne ∧ State.rc { State.reset with mxcsr := 0x3F80 } = .rd ∧
    State.rc { State.reset with mxcsr := 0x5F80 } = .ru ∧ State.rc { State.reset with mxcsr := 0x7F80 } = .rz ∧
    (fma16 .firstOperand 0x8001 0x3800 0x0000 .add .rne ⟨false, false, true⟩).tiny = true ∧
    (fma16 .firstOperand 0x3C00 0x3C00 0x0000 .add .rne ⟨false, false, true⟩).tiny = false := by decide +kernel

/-- 65504 + 16: overflow to nearest and up, not down. -/
theorem witness_OverflowResults :
    IsFinite 0x7BFF ∧ IsFinite 0x3C00 ∧ IsFinite 0x4C00 ∧ FpCtl.daz ⟨false, false, true⟩ = false ∧
    Overflows (exactValue 0x7BFF 0x3C00 0x4C00 .add) .rne ∧ Overflows (exactValue 0x7BFF 0x3C00 0x4C00 .add) .ru ∧
    ¬Overflows (exactValue 0x7BFF 0x3C00 0x4C00 .add) .rd ∧ ¬Overflows (exactValue 0x7BFF 0x3C00 0x4BFF .add) .rne := by
  unfold Overflows
  decide +kernel

/-- The two sides of the boundary of tininess to nearest. -/
theorem witness_TinyResults :
    (IsFinite 0x0400 ∧ IsFinite 0x3BFF ∧ IsFinite 0x0401 ∧ IsFinite 0x3BFE ∧ IsFinite 0x0000) ∧
    IsTiny (exactValue 0x0400 0x3BFF 0x0000 .add) .rne ∧ ¬IsTiny (exactValue 0x0401 0x3BFE 0x0000 .add) .rne ∧
    IsTiny (exactValue 0x0401 0x3BFE 0x0000 .add) .rd := by
  unfold IsTiny
  decide +kernel

theorem witness_DirectedRounding :
    IsFinite 0x3555 ∧ IsFinite 0x4200 ∧ IsFinite 0x0000 ∧ exactValue 0x3555 0x4200 0x0000 .add ≠ 0 := by decide +kernel

/-- The boundary 65520 to nearest. -/
theorem witness_NearestRounding :
    IsFinite 0x7BFF ∧ IsFinite 0x3C00 ∧ IsFinite 0x4C00 ∧ IsFinite 0x4BFF ∧ exactValue 0x7BFF 0x3C00 0x4C00 .add ≠ 0 ∧
    65520 * 2 ^ 48 ≤ (exactValue 0x7BFF 0x3C00 0x4C00 .add).natAbs ∧
    (exactValue 0x7BFF 0x3C00 0x4BFF .add).natAbs < 65520 * 2 ^ 48 := by decide +kernel

theorem witness_PrecisionFlag : IsFinite 0x3555 ∧ IsFinite 0x4200 ∧ IsFinite 0x8000 := by decide

end Sys2Proof.Tests
end

section
/-! SUPPORT. Proofs about the state (10_state.md): the invariant, reset, memory, system registers, what has no influence,
and what is refused. -/

namespace Sys2Proof.Machine

/-! ### The invariant -/

/-- A canonical address is a 64-bit number. -/
theorem canonical_lt (w : LaBits) (a : Nat) (h : canonical w a = true) : a < 2 ^ 64 := by
  simp only [canonical, Bool.or_eq_true, Bool.and_eq_true, decide_eq_true_eq] at h
  cases w <;> simp only [laBits, Nat.reduceSub, Nat.reducePow] at h ⊢ <;> omega

/-- A canonical successor is where RIP moves: the addition does not wrap. -/
theorem toNat_add_of_canonical (w : LaBits) (a : Word64) (n : Nat) (h : canonical w (a.toNat + n) = true) :
    (a + BitVec.ofNat 64 n).toNat = a.toNat + n := by
  have hlt := canonical_lt w _ h
  rw [BitVec.toNat_add, BitVec.toNat_ofNat, Nat.add_mod_mod, Nat.mod_eq_of_lt hlt]

/-- The six flags lie below the reserved half of MXCSR. -/
theorem mxcsr_upper_or_flags (w : BitVec 32) (g : BitVec 6) :
    (w ||| g.setWidth 32).extractLsb' 16 16 = w.extractLsb' 16 16 := by
  apply BitVec.eq_of_getLsbD_eq
  intro b hb
  simp [BitVec.getLsbD_extractLsb', BitVec.getLsbD_setWidth, BitVec.getLsbD_of_ge g (16 + b) (by omega)]

/-- Completing an instruction whose successor is canonical keeps the invariant. -/
theorem inv_complete (s : State) (dest : VReg) (v : Vec) (g : BitVec 6) (ilen : Nat) (h : Inv s)
    (hn : NextCanonical s ilen) : Inv (s.complete dest v g ilen) := by
  obtain ⟨hmem, hmx, -⟩ := h
  refine ⟨hmem, ?_, ?_⟩
  · rw [complete_mxcsr, mxcsr_upper_or_flags, hmx]
  · rw [complete_cfg, complete_rip, toNat_add_of_canonical _ _ _ hn, hn]

/-- Settles O13: a next state is a completed instruction, which was ready, so its successor is canonical. -/
theorem stepKeepsInvariant : Obligations.StepKeepsInvariant := by
  intro s t hinv hstep
  obtain ⟨i, -, hexec⟩ := step_next s t hstep
  obtain ⟨-, hnext, -⟩ := exec_next_ready i s t hexec
  obtain ⟨v, g, rfl, -⟩ := exec_next i s t hexec
  exact inv_complete s _ v g _ hinv hnext

/-- Settles O14: empty memory is canonical, and MXCSR and RIP are the constants of 10_state.md R40. -/
theorem resetSatisfiesInvariant : Obligations.ResetSatisfiesInvariant := ⟨rfl, by decide, by decide⟩

/-! ### Reset and INIT -/

/-- At reset every general register but RAX and RDX is 0. -/
theorem reset_readGpr (r : GReg) (h : r ≠ 2) : State.reset.readGpr r = 0 := by
  have h' : 2 ≠ (r : Nat) := fun e => h (Fin.ext e.symm)
  simp [State.readGpr, State.reset, Vector.getElem_set_ne, h']

/-- The bits of CR0 that INIT leaves alone: CD and NW. -/
theorem getLsbD_cacheBits (b : Nat) : (0x60000000 : Word64).getLsbD b = (decide (b = 29) || decide (b = 30)) := by
  have h : (0x60000000 : Word64) = BitVec.twoPow 64 29 ||| BitVec.twoPow 64 30 := by decide
  rw [h, BitVec.getLsbD_or, BitVec.getLsbD_twoPow, BitVec.getLsbD_twoPow]
  simp [eq_comm]

/-- CR0 after INIT, bit by bit. -/
theorem initEvent_cr0_getLsbD (s : State) (b : Nat) :
    (initEvent s).cr0.getLsbD b =
      ((0x10 : Word64).getLsbD b || (s.cr0.getLsbD b && (decide (b = 29) || decide (b = 30)))) := by
  rw [← getLsbD_cacheBits, ← BitVec.getLsbD_and, ← BitVec.getLsbD_or]
  rfl

/-- CR0 after RESET, bit by bit. -/
theorem reset_cr0_getLsbD (b : Nat) :
    State.reset.cr0.getLsbD b = ((0x10 : Word64).getLsbD b || (decide (b = 29) || decide (b = 30))) := by
  rw [← getLsbD_cacheBits, ← BitVec.getLsbD_or]
  rfl

/-- INIT leaves CD and NW alone and gives every other bit of CR0 its value after RESET. -/
theorem initEvent_cr0 (s : State) :
    (initEvent s).cr0.getLsbD 30 = s.cr0.getLsbD 30 ∧ (initEvent s).cr0.getLsbD 29 = s.cr0.getLsbD 29 ∧
    ∀ b, b ≠ 29 → b ≠ 30 → (initEvent s).cr0.getLsbD b = State.reset.cr0.getLsbD b := by
  refine ⟨?_, ?_, fun b h29 h30 => ?_⟩
  · rw [initEvent_cr0_getLsbD, show (0x10 : Word64).getLsbD 30 = false from rfl]
    simp
  · rw [initEvent_cr0_getLsbD, show (0x10 : Word64).getLsbD 29 = false from rfl]
    simp
  · simp [initEvent_cr0_getLsbD, reset_cr0_getLsbD, h29, h30]

/-- Settles O16: fields are as the two states are written; registers and CR0 go by index and by bit. -/
theorem resetAndInitValues : Obligations.ResetAndInitValues := by
  refine ⟨fun r => ?_, fun r => ?_, fun r _ h => reset_readGpr r h, rfl, rfl, rfl, rfl, rfl, rfl, rfl, rfl, rfl, rfl,
    rfl, rfl, rfl, fun s => ⟨rfl, rfl, rfl, rfl, rfl, rfl, rfl, rfl, rfl, rfl, rfl, rfl, rfl, rfl, rfl,
      fun r _ h => reset_readGpr r h, initEvent_cr0 s⟩⟩
  · simp [State.readZmm, State.reset]
  · simp [State.readK, State.reset]

/-! ### Memory -/

/-- Settles O46, by whether the location read is the one written. -/
theorem memoryReadAfterWrite : Obligations.MemoryReadAfterWrite := by
  refine fun m x y v => ⟨?_, wf_write m x v⟩
  by_cases h : y = x
  · rw [if_pos h, h, byte?_write_self]
  · rw [if_neg h, byte?_write_other m x y v h]

/-! ### System registers -/

/-- The system and debug registers that nothing writes are as in `s`. -/
abbrev SystemKept (s t : State) : Prop :=
  t.cr0 = s.cr0 ∧ t.cr3 = s.cr3 ∧ t.cr4 = s.cr4 ∧ t.xcr0 = s.xcr0 ∧ t.efer = s.efer ∧
    t.drAddr = s.drAddr ∧ t.dr6 = s.dr6 ∧ t.dr7 = s.dr7

theorem systemKept_faulted (s : State) (e : Exn) (g : BitVec 6) : SystemKept s (s.faulted e g) :=
  ⟨rfl, rfl, rfl, rfl, rfl, rfl, rfl, rfl⟩

/-- What an exception other than a page fault leaves in CR2. -/
theorem cr2_of_ne_pf (old : Word64) (e : Exn) (h : ∀ code a, e ≠ .pf code a) : e.cr2 old = old := by
  cases e with
  | pf code a => exact absurd rfl (h code a)
  | _ => rfl

/-- CR2 in the state a faulting step leaves. -/
theorem step_fault_cr2 (s : State) (f : Fault) (h : step s = .fault f) : f.left.cr2 = f.exn.cr2 s.cr2 := by
  obtain ⟨e, g, rfl, -⟩ := step_fault s f h
  rw [fault_left, fault_exn, faulted_cr2]

/-- Settles O35: a fault is an exception over the state, and a next state a completed instruction. -/
theorem systemRegisterWrites : Obligations.SystemRegisterWrites := by
  refine ⟨fun s code a t h => step_fault_cr2 s _ h, fun s f h hpf => ?_, fun s f h => ?_, fun s t h => ?_⟩
  · rw [step_fault_cr2 s f h, cr2_of_ne_pf _ _ hpf]
  · obtain ⟨e, g, rfl, -⟩ := step_fault s f h
    rw [fault_left]
    exact systemKept_faulted s e g
  · obtain ⟨i, -, hexec⟩ := step_next s t h
    obtain ⟨v, g, rfl, -⟩ := exec_next i s t hexec
    exact ⟨rfl, rfl, rfl, rfl, rfl, rfl, rfl, rfl, rfl⟩

/-! ### What has no influence -/

/-- A state agrees with itself. States that differ in one field take from here what that field does not reach. -/
theorem SameInputs.refl (i : Instr) (s : State) : SameInputs i s s where
  entry             := rfl
  translate _ _ _ _ := rfl
  mem               := rfl
  gpr               := rfl
  rip               := rfl
  fsBase            := rfl
  gsBase            := rfl
  laBits            := rfl
  nanRule           := rfl
  fpCtl             := rfl
  mxcsr             := rfl
  cr4               := rfl
  drAddr            := rfl
  dr7               := rfl
  draws             := rfl
  active _ _        := rfl
  dest _ _          := rfl
  src2 _ _          := rfl
  src3 _ _ _ _      := rfl

/-- Lane activity reads bits of the selected opmask only. -/
theorem active_congr (s s' : State) (m : Writemask) (j : Nat)
    (h : ∀ r, m = .merging r ∨ m = .zeroing r → (s'.readK r).getLsbD j = (s.readK r).getLsbD j) :
    s'.active m j = s.active m j := by
  cases m with
  | all => rfl
  | merging r => exact h r (.inl rfl)
  | zeroing r => exact h r (.inr rfl)

/-- Settles O39: lane activity is the only input that reads opmasks. -/
theorem onlyMaskBitsAreRead : Obligations.OnlyMaskBitsAreRead := by
  intro i s k h
  have same : SameInputs i s { s with k := k } :=
    { SameInputs.refl i s with active := fun j hj => active_congr s _ _ j fun r hr => h r hr j hj }
  exact exec_sameInputs same _ _ (fun _ _ => rfl) (fun _ _ => rfl)

/-- Settles O40: the lanes of the operands are the only inputs that read vector registers. -/
theorem onlyOperandBitsAreRead : Obligations.OnlyOperandBitsAreRead := by
  intro i s z h
  have same : SameInputs i s { s with zmm := z } :=
    { SameInputs.refl i s with
      dest := lane_congr _ _ _ (h _ (.inl rfl))
      src2 := lane_congr _ _ _ (h _ (.inr (.inl rfl)))
      src3 := fun r hr => lane_congr _ _ _ (h r (.inr (.inr hr))) }
  refine exec_sameInputs same _ _ (fun v g => ?_) (fun _ _ => rfl)
  rw [complete_readZmm_self]
  rfl

/-- Settles O41: with both bits clear the setting does not change `ctl`. -/
theorem dazFtzSettingIrrelevantWhenClear : Obligations.DazFtzSettingIrrelevantWhenClear := by
  intro i s d hdaz hftz
  have ctl : State.fpCtl { s with cfg := { s.cfg with dazFtz := d } } = s.fpCtl := by
    simp only [State.fpCtl, State.daz, State.ftz, State.um, hdaz, hftz, Bool.and_false]
  have same : SameInputs i s { s with cfg := { s.cfg with dazFtz := d } } :=
    { SameInputs.refl i s with fpCtl := ctl }
  exact exec_sameInputs same _ _ (fun _ _ => rfl) (fun _ _ => rfl)

/-- Settles O42: entry reads CPL through alignment checking, an operand through `Translate`. -/
theorem privilegeReachesOnlyTranslate : Obligations.PrivilegeReachesOnlyTranslate := by
  intro i s c htr hac
  have entry : State.entryStop { s with cpl := c } i.parts.form.vecLen i.length =
      s.entryStop i.parts.form.vecLen i.length := by
    unfold State.entryStop State.launchRefusal
    rw [hac]
    rfl
  have same : SameInputs i s { s with cpl := c } := { SameInputs.refl i s with entry := entry, translate := htr }
  exact exec_sameInputs same _ _ (fun _ _ => rfl) (fun _ _ => rfl)

/-! ### What is refused -/

theorem launchRefusal_of_not_mode64 (s : State) (h : s.mode64 = false) : s.launchRefusal = some .not64BitMode := by
  simp [State.launchRefusal, h]

theorem launchRefusal_of_alignmentChecking (s : State) (hm : s.mode64 = true) (h : s.alignmentChecking = true) :
    s.launchRefusal = some .alignmentChecking := by
  simp [State.launchRefusal, hm, h]

theorem launchRefusal_of_singleStep (s : State) (hm : s.mode64 = true) (ha : s.alignmentChecking = false)
    (h : s.singleStep = true) : s.launchRefusal = some .singleStep := by
  simp [State.launchRefusal, hm, ha, h]

theorem launchRefusal_of_breakpoint (s : State) (hm : s.mode64 = true) (ha : s.alignmentChecking = false)
    (ht : s.singleStep = false) (h : s.instructionBreakpoint = true) : s.launchRefusal = some .breakpoint := by
  simp [State.launchRefusal, hm, ha, ht, h]

/-- A refused launch refuses the step and every instruction. -/
theorem refused_of_launchRefusal (s : State) (i : Instr) (r : Refusal) (h : s.launchRefusal = some r) :
    step s = .refused r ∧ exec i s = .refused r :=
  ⟨step_refused s r h, exec_refused i s r h⟩

/-- 64-bit mode takes all three bits. -/
theorem mode64_eq_false (s : State) (h : s.csL = false ∨ s.efer.getLsbD 10 = false ∨ s.cr0.getLsbD 0 = false) :
    s.mode64 = false := by
  unfold State.mode64
  rcases h with h | h | h <;> simp only [h, Bool.and_false, Bool.false_and]

/-- An enabled breakpoint of kind 0 at RIP is an instruction breakpoint. -/
theorem instructionBreakpoint_of (s : State) (n : Fin 4)
    (he : s.dr7.getLsbD (2 * n) = true ∨ s.dr7.getLsbD (2 * n + 1) = true)
    (hk : s.dr7.extractLsb' (16 + 4 * n) 2 = 0) (ha : s.drAddr[n] = s.rip) : s.instructionBreakpoint = true := by
  refine List.any_eq_true.2 ⟨n, List.mem_finRange n, ?_⟩
  simp only [State.breakpointEnabled, State.breakpointKind, Bool.and_eq_true, Bool.or_eq_true, beq_iff_eq]
  exact ⟨⟨he, hk⟩, ha⟩

/-- The LEN field of a breakpoint, by its four values. -/
theorem breakpointSize_eq (s : State) (n : Nat) :
    s.breakpointSize n =
      match (s.dr7.extractLsb' (18 + 4 * n) 2).toNat with
      | 0 => 1
      | 1 => 2
      | 2 => 8
      | _ => 4 := by
  unfold State.breakpointSize
  generalize s.dr7.extractLsb' (18 + 4 * n) 2 = len
  revert len
  decide

/-- An enabled breakpoint of kind 3 whose aligned bytes meet the operand's is a data breakpoint on it. -/
theorem dataBreakpoint_of (s : State) (first size : Nat) (n : Fin 4)
    (he : s.dr7.getLsbD (2 * n) = true ∨ s.dr7.getLsbD (2 * n + 1) = true)
    (hk : s.dr7.extractLsb' (16 + 4 * n) 2 = 3)
    (hlow : (s.drAddr[n]).toNat / s.breakpointSize n * s.breakpointSize n < first + size)
    (hhigh : first < (s.drAddr[n]).toNat / s.breakpointSize n * s.breakpointSize n + s.breakpointSize n) :
    s.dataBreakpoint first size = true := by
  refine List.any_eq_true.2 ⟨n, List.mem_finRange n, ?_⟩
  simp only [State.breakpointEnabled, State.breakpointKind, Bool.and_eq_true, Bool.or_eq_true, beq_iff_eq,
    decide_eq_true_eq]
  exact ⟨⟨⟨he, hk⟩, hlow⟩, hhigh⟩

/-- A data breakpoint on an operand that can be read refuses the instruction. -/
theorem exec_dataBreakpoint (i : Instr) (s : State) (vl : VecLen) (op : MemOp) (hf : i.parts.form = .mem vl op)
    (hr : Ready s vl i.length)
    (hb : ∀ m < operandSize vl op.bcast, ByteReadable s ((s.linearAddress i.parts.leg i.length vl op).toNat + m))
    (hd : s.dataBreakpoint (s.linearAddress i.parts.leg i.length vl op).toNat (operandSize vl op.bcast) = true) :
    exec i s = .refused .breakpoint := by
  have hstop : s.accessStop i.parts.leg op (s.span i.parts.leg i.length i.parts.mask vl op) =
      some (.refusal .breakpoint) := by
    rw [accessStop_bytes _ _ _ _ hb]
    exact if_pos hd
  have hvl : i.parts.form.vecLen = vl := by rw [hf]; rfl
  refine exec_third_stop i s (.refusal .breakpoint) (by rw [hvl]; exact hr) ?_
  rw [third_mem i s vl op hf]
  simp only [State.readMem, hstop]

/-- An instruction whose successor is not canonical is refused. -/
theorem exec_successor_not_canonical (i : Instr) (s : State) (h : Admitted s)
    (hc : canonical s.cfg.laBits (s.rip.toNat + i.length) = false) : exec i s = .refused .codeNotCanonical := by
  have entry : s.entryStop i.parts.form.vecLen i.length = some (.refusal .codeNotCanonical) := by
    simp [State.entryStop, (launchRefusal_none s).2 h, hc]
  rw [exec_eq_execute]
  simp only [State.execute, entry, Stop.outcome]

theorem fetchByte_not_canonical (s : State) (n : Nat) (h : canonical s.cfg.laBits (s.rip.toNat + n) = false) :
    s.fetchByte n = .error (.refusal .codeNotCanonical) := by
  simp [State.fetchByte, h]

theorem fetchByte_not_ordinary (s : State) (n p : Nat) (hc : canonical s.cfg.laBits (s.rip.toNat + n) = true)
    (h : s.translate (s.rip.toNat + n) .fetch = .mapped p .shared ∨
      s.translate (s.rip.toNat + n) .fetch = .mapped p .device) :
    s.fetchByte n = .error (.refusal .codeNotOrdinary) := by
  rcases h with h | h <;> simp [State.fetchByte, hc, h]

theorem fetchByte_not_mapped (s : State) (n : Nat) (code : BitVec 32)
    (hc : canonical s.cfg.laBits (s.rip.toNat + n) = true)
    (h : s.translate (s.rip.toNat + n) .fetch = .fault code) :
    s.fetchByte n = .error (.refusal .codeNotMapped) := by
  simp [State.fetchByte, hc, h]

/-- Settles O17, clause by clause: the launch premises, a data breakpoint, the successor, the instruction bytes. -/
theorem premisesRefuse : Obligations.PremisesRefuse := by
  refine ⟨fun s i h => ?_, ?_, fun s i hm ha => ?_, fun s i hm ha ht => ?_, fun s i n hm ha ht he hk hrip => ?_,
    fun i s vl op first len low n hf hr hfirst hb he hk hlen hlow h1 h2 => ?_, exec_successor_not_canonical,
    fun s n h hn hlt hs => ?_⟩
  · exact refused_of_launchRefusal s i _ (launchRefusal_of_not_mode64 s (mode64_eq_false s h))
  · exact step_refused _ _ (launchRefusal_of_not_mode64 _ (mode64_eq_false _ (.inl rfl)))
  · exact refused_of_launchRefusal s i _ (launchRefusal_of_alignmentChecking s hm ha)
  · exact refused_of_launchRefusal s i _ (launchRefusal_of_singleStep s hm ha ht)
  · exact refused_of_launchRefusal s i _
      (launchRefusal_of_breakpoint s hm ha ht (instructionBreakpoint_of s n he hk hrip))
  · have hsize : len = s.breakpointSize n := hlen.trans (breakpointSize_eq s n).symm
    subst hfirst hlow hsize
    exact exec_dataBreakpoint i s vl op hf hr hb (dataBreakpoint_of s _ _ n he hk h1 h2)
  · subst hn
    exact ⟨fun hc => step_short s _ h hs hlt (fetchByte_not_canonical s _ hc),
      fun hc => ⟨fun p hp => step_short s _ h hs hlt (fetchByte_not_ordinary s _ p hc hp),
        fun code hp => step_short s _ h hs hlt (fetchByte_not_mapped s _ code hc hp)⟩⟩

end Sys2Proof.Machine
end

section
/-! SUPPORT. Proofs about memory operands (20_memory.md): effective addresses, little-endian elements, operands on a
device, and faults on bytes no lane needs. -/

namespace Sys2Proof.Machine

/-! ### Memory forms -/

/-- A stop of the operand's access stops a ready memory form. -/
theorem exec_accessStop (i : Instr) (s : State) (vl : VecLen) (op : MemOp) (stop : Stop) (hf : i.parts.form = .mem vl op)
    (hr : Ready s vl i.length)
    (hs : s.accessStop i.parts.leg op (s.span i.parts.leg i.length i.parts.mask vl op) = some stop) :
    exec i s = stop.outcome s := by
  have hvl : i.parts.form.vecLen = vl := by rw [hf]; rfl
  refine exec_third_stop i s stop (by rw [hvl]; exact hr) ?_
  rw [third_mem i s vl op hf]
  simp only [State.readMem, hs]

/-- Where nothing stops the access, operand 3 is read. -/
theorem third_of_accessStop_none (i : Instr) (s : State) (vl : VecLen) (op : MemOp) (hf : i.parts.form = .mem vl op)
    (hs : s.accessStop i.parts.leg op (s.span i.parts.leg i.length i.parts.mask vl op) = none) :
    third i s = .ok (thirdOperand i s) := by
  cases h : third i s with
  | ok t3 => rw [third_ok i s t3 h]
  | error stop =>
    rw [third_mem i s vl op hf] at h
    simp only [State.readMem, hs, reduceCtorEq] at h

/-- A ready memory form whose operand is read and that detects nothing unmasked completes. -/
theorem exec_mem_completes (i : Instr) (s : State) (vl : VecLen) (op : MemOp) (hf : i.parts.form = .mem vl op)
    (hr : Ready s vl i.length)
    (hs : s.accessStop i.parts.leg op (s.span i.parts.leg i.length i.parts.mask vl op) = none)
    (hq : NoUnmasked s (lanes vl) (s.active i.parts.mask) (laneResults i s)) :
    Completes (exec i s) s vl i.parts.mask i.parts.dest (laneResults i s) i.length := by
  have hvl : i.parts.form.vecLen = vl := by rw [hf]; rfl
  have hembedded : i.parts.form.embedded = none := by rw [hf]; rfl
  have hexec := exec_completes i s (by rw [hvl]; exact hr) (third_of_accessStop_none i s vl op hf hs)
    fun _ => by rw [hvl]; exact hq
  rw [hvl, if_pos hembedded, complete_eq_after] at hexec
  exact ⟨_, _, hexec, lanesWritten_resultVec .., flagsOred_union ..⟩

/-- The fault of a non-canonical operand: #SS(0) through the stack segment, #GP(0) through any other. -/
theorem stop_address (s : State) (leg : Legacy) (a : MemAddr) :
    Stop.outcome s (.exception (addressException leg a)) =
      .fault (if leg.seg = none ∧ (baseReg a = some 4 ∨ baseReg a = some 5)
        then .ss { s with draws := s.draws + 1 } else .gp { s with draws := s.draws + 1 }) := by
  have hstack : usesStackSegment leg a = true ↔ leg.seg = none ∧ (baseReg a = some 4 ∨ baseReg a = some 5) := by
    simp [usesStackSegment]
  by_cases h : leg.seg = none ∧ (baseReg a = some 4 ∨ baseReg a = some 5)
  · rw [addressException, if_pos (hstack.2 h), if_pos h, stop_ss]
  · rw [addressException, if_neg (mt hstack.1 h), if_neg h, stop_gp]

/-! ### Stops by the operand -/

/-- Settles O23: of a canonical operand the device is what the access finds first. -/
theorem deviceOperandsAreRefused : Obligations.DeviceOperandsAreRefused := by
  intro i s vl op first n p hf hr hfirst hcanonical hn hdevice
  subst hfirst
  exact exec_accessStop i s vl op _ hf hr (accessStop_device s _ op _ n p hcanonical hn hdevice)

/-- Settles O22: the access succeeds, or stops at an unneeded byte, by its address or by its page. -/
theorem unneededBytesMayFault : Obligations.UnneededBytesMayFault := by
  intro i s vl op first hf hr hfirst hneeded hdevice hbreak hq
  subst hfirst
  rcases accessStop_unneeded s i.parts.leg op (s.span i.parts.leg i.length i.parts.mask vl op) hneeded hdevice hbreak
    with hs | ⟨n, hn, hneed, hc, hs⟩ | ⟨n, code, hn, hneed, hc, ht, hs⟩
  · exact .inl (exec_mem_completes i s vl op hf hr hs hq)
  · refine .inr (.inl ⟨n, hn, hneed, hc, ?_⟩)
    rw [exec_accessStop i s vl op _ hf hr hs, stop_address]
  · refine .inr (.inr ⟨n, code, hn, hneed, hc, ht, ?_⟩)
    rw [exec_accessStop i s vl op _ hf hr hs, stop_pf]
    rfl

/-! ### Effective addresses -/

/-- The scale factor is `2^ss`. -/
theorem scaleFactor_eq_ofNat (sc : Scale) : scaleFactor sc = BitVec.ofNat 64 (2 ^ sc.bits.toNat) := by
  cases sc <;> rfl

/-- An index term is a product modulo 2^64. -/
theorem indexValue_toNat (s : State) (x : GReg) (sc : Scale) :
    (s.indexValue (some ⟨x, sc⟩)).toNat = (s.readGpr x).toNat * 2 ^ sc.bits.toNat % 2 ^ 64 := by
  rw [State.indexValue, scaleFactor_eq_ofNat, BitVec.toNat_mul, BitVec.toNat_ofNat, Nat.mul_mod_mod]

/-- Modulo 2^32 a sign-extended displacement is the displacement. -/
theorem signExtend_toNat_mod (d : BitVec 32) : (d.signExtend 64).toNat % 2 ^ 32 = d.toNat := by
  have hd := d.isLt
  rw [BitVec.toNat_signExtend, BitVec.toNat_setWidth]
  split <;> omega

/-- The address size takes the sum of the terms modulo 2^32 or 2^64, whatever the sum has already lost modulo 2^64. -/
theorem effectiveAddress_toNat (s : State) (leg : Legacy) (ilen n : Nat) (a : MemAddr) (sum : Nat)
    (h : (s.addressSum ilen n a).toNat = sum % 2 ^ 64) :
    (s.effectiveAddress leg ilen n a).toNat = if leg.addr32 then sum % 2 ^ 32 else sum % 2 ^ 64 := by
  unfold State.effectiveAddress
  split
  · rw [BitVec.toNat_setWidth_of_le (by decide), BitVec.toNat_setWidth, h, Nat.mod_mod_of_dvd _ (by decide)]
  · exact h

/-- Base and displacement. -/
theorem effectiveAddress_base (s : State) (leg : Legacy) (ilen n : Nat) (b : GReg) (d : Disp) :
    (s.effectiveAddress leg ilen n (.base b d)).toNat =
      if leg.addr32 then ((s.readGpr b).toNat % 2 ^ 32 + (dispValue n d).toNat % 2 ^ 32) % 2 ^ 32
      else ((s.readGpr b).toNat + (dispValue n d).toNat) % 2 ^ 64 := by
  rw [effectiveAddress_toNat s leg ilen n _ _ (BitVec.toNat_add ..), Nat.add_mod _ _ (2 ^ 32)]

/-- Base, index and displacement. -/
theorem effectiveAddress_sib (s : State) (leg : Legacy) (ilen n : Nat) (b x : GReg) (sc : Scale) (d : Disp) :
    (s.effectiveAddress leg ilen n (.sib b (some ⟨x, sc⟩) d)).toNat =
      if leg.addr32 then
        ((s.readGpr b).toNat % 2 ^ 32 + (s.readGpr x).toNat % 2 ^ 32 * 2 ^ sc.bits.toNat % 2 ^ 32
          + (dispValue n d).toNat % 2 ^ 32) % 2 ^ 32
      else ((s.readGpr b).toNat + (s.readGpr x).toNat * 2 ^ sc.bits.toNat + (dispValue n d).toNat) % 2 ^ 64 := by
  have hsum : (s.addressSum ilen n (.sib b (some ⟨x, sc⟩) d)).toNat =
      ((s.readGpr b).toNat + (s.readGpr x).toNat * 2 ^ sc.bits.toNat + (dispValue n d).toNat) % 2 ^ 64 := by
    simp only [State.addressSum, BitVec.toNat_add, indexValue_toNat, Nat.add_mod_mod, Nat.mod_add_mod]
  rw [effectiveAddress_toNat s leg ilen n _ _ hsum]
  rw [Nat.add_mod (_ + _) _ (2 ^ 32), Nat.add_mod (s.readGpr b).toNat _ (2 ^ 32), Nat.mod_add_mod, Nat.mod_mul_mod]

/-- Index and displacement, without a base. -/
theorem effectiveAddress_sibNoBase (s : State) (leg : Legacy) (ilen n : Nat) (x : GReg) (sc : Scale) (d : BitVec 32) :
    (s.effectiveAddress leg ilen n (.sibNoBase (some ⟨x, sc⟩) d)).toNat =
      if leg.addr32 then ((s.readGpr x).toNat % 2 ^ 32 * 2 ^ sc.bits.toNat % 2 ^ 32 + d.toNat) % 2 ^ 32
      else ((s.readGpr x).toNat * 2 ^ sc.bits.toNat + (d.signExtend 64).toNat) % 2 ^ 64 := by
  have hsum : (s.addressSum ilen n (.sibNoBase (some ⟨x, sc⟩) d)).toNat =
      ((s.readGpr x).toNat * 2 ^ sc.bits.toNat + (d.signExtend 64).toNat) % 2 ^ 64 := by
    rw [State.addressSum, BitVec.toNat_add, indexValue_toNat, Nat.mod_add_mod]
  rw [effectiveAddress_toNat s leg ilen n _ _ hsum, ← signExtend_toNat_mod d]
  simp only [Nat.add_mod_mod, Nat.mod_add_mod, Nat.mod_mul_mod]

/-- A displacement alone. -/
theorem effectiveAddress_disp (s : State) (leg : Legacy) (ilen n : Nat) (d : BitVec 32) :
    (s.effectiveAddress leg ilen n (.sibNoBase none d)).toNat =
      if leg.addr32 then d.toNat else (d.signExtend 64).toNat := by
  have hlt : (d.signExtend 64).toNat % 2 ^ 64 = (d.signExtend 64).toNat := Nat.mod_eq_of_lt (d.signExtend 64).isLt
  have hsum : (s.addressSum ilen n (.sibNoBase none d)).toNat = (d.signExtend 64).toNat % 2 ^ 64 := by
    rw [State.addressSum, State.indexValue, zero_add, hlt]
  rw [effectiveAddress_toNat s leg ilen n _ _ hsum, signExtend_toNat_mod, hlt]

/-- The address after the instruction and a displacement. -/
theorem effectiveAddress_ripRel (s : State) (leg : Legacy) (ilen n : Nat) (d : BitVec 32) :
    (s.effectiveAddress leg ilen n (.ripRel d)).toNat =
      if leg.addr32 then ((s.rip.toNat + ilen) % 2 ^ 32 + d.toNat) % 2 ^ 32
      else (s.rip.toNat + ilen + (d.signExtend 64).toNat) % 2 ^ 64 := by
  have hsum : (s.addressSum ilen n (.ripRel d)).toNat =
      (s.rip.toNat + ilen + (d.signExtend 64).toNat) % 2 ^ 64 := by
    simp only [State.addressSum, BitVec.toNat_add, BitVec.toNat_ofNat, Nat.add_mod_mod, Nat.mod_add_mod]
  rw [effectiveAddress_toNat s leg ilen n _ _ hsum, Nat.add_mod _ _ (2 ^ 32), signExtend_toNat_mod]

/-- Without an index a SIB byte adds nothing. -/
theorem effectiveAddress_sib_none (s : State) (leg : Legacy) (ilen n : Nat) (b : GReg) (d : Disp) :
    s.effectiveAddress leg ilen n (.sib b none d) = s.effectiveAddress leg ilen n (.base b d) := by
  simp only [State.effectiveAddress, State.addressSum, State.indexValue, add_zero]

/-- Settles O43, form by form; neither completing an instruction nor an exception writes a general register. -/
theorem effectiveAddresses : Obligations.EffectiveAddresses := by
  refine ⟨effectiveAddress_base, effectiveAddress_sib, effectiveAddress_sib_none, effectiveAddress_sibNoBase,
    effectiveAddress_disp, effectiveAddress_ripRel, fun i s t h => ?_, fun i s f h => ?_⟩
  · obtain ⟨v, g, rfl, -⟩ := exec_next i s t h
    exact complete_gpr ..
  · obtain ⟨e, g, rfl, -⟩ := exec_fault i s f h
    rw [fault_left, faulted_gpr]

/-! ### Elements -/

/-- A byte stored in ordinary memory where its address is mapped for reading is the operand's byte. -/
theorem operandByte_stored (s : State) (first i p : Nat) (b : Byte)
    (ht : s.translate (first + i) .read = .mapped p .ordinary) (hb : Memory.byte? s.mem p = some b) :
    s.operandByte first i = b := by
  simp only [State.operandByte, ht, State.physicalByte, hb, Option.getD_some]

/-- Two bytes as a number, the high one first. -/
theorem toNat_append_bytes (hi lo : Byte) : (hi ++ lo).toNat = lo.toNat + 256 * hi.toNat := by
  rw [BitVec.toNat_append, ← Nat.shiftLeft_add_eq_or_of_lt lo.isLt, Nat.shiftLeft_eq]
  omega

/-- Settles O45: both bytes of the element are the stored ones, the one at the lower address the low one. -/
theorem operandElementsAreLittleEndian : Obligations.OperandElementsAreLittleEndian := by
  intro s first j p q lo hi hp hq hlo hhi
  rw [State.operandElement, operandByte_stored s first _ p lo hp hlo, operandByte_stored s first _ q hi hq hhi,
    toNat_append_bytes]

end Sys2Proof.Machine
end

section
/-! SUPPORT. Proofs about the decoder and the encoder (30_encoding.md R80 to R109): round trip, lengths, legacy bytes,
illegal and refused sequences. -/

namespace Sys2Proof

/-! ### Decoding by the first byte that is no legacy byte -/

/-- Legacy bytes are scanned, and the EVEX form is decoded with what they were. -/
theorem decode_legacy (pre rest : List Byte) (h : ∀ c ∈ pre, legacyByte c = true) :
    decode (pre ++ 0x62 :: rest) = decodeEvex (pre.foldl Scan.next .start) rest := by
  rw [decode, scan_pre pre _ 0x62 rest h (by decide)]
  rfl

/-- Another byte than 62h after the legacy bytes is outside the table. -/
theorem decode_no_evex (pre : List Byte) (c : Byte) (rest : List Byte) (h : ∀ c ∈ pre, legacyByte c = true)
    (hc : legacyByte c = false) (h62 : c ≠ 0x62) : decode (pre ++ c :: rest) = .refused .notInTable := by
  rw [decode, scan_pre pre _ c rest h hc]
  exact if_neg h62

/-- The overrides are legacy bytes. -/
theorem legacyByte_of_override (c : Byte) (h : c = 0x64 ∨ c = 0x65 ∨ c = 0x67) : legacyByte c = true := by
  rcases h with rfl | rfl | rfl <;> decide

/-- A sequence of the table, with what stood before its 62h byte. -/
theorem decodeEvex_inTable (s : Scan) (p0 p1 p2 op modrm : Byte) (rest : List Byte) (fma : Fma)
    (h : inTable (evexOf p0 p1 p2) op = some fma) :
    decodeEvex s (p0 :: p1 :: p2 :: op :: modrm :: rest) =
      if s.illegal then .illegal
      else if s.outside then .refused .legacyBytes
      else decodeFields fma ⟨s.seg, s.addr32⟩ (evexOf p0 p1 p2) modrm rest := by
  simp only [decodeEvex, h]

/-- A sequence outside the table. -/
theorem decodeEvex_not_inTable (s : Scan) (p0 p1 p2 op modrm : Byte) (rest : List Byte)
    (h : inTable (evexOf p0 p1 p2) op = none) :
    decodeEvex s (p0 :: p1 :: p2 :: op :: modrm :: rest) = .refused .notInTable := by
  simp only [decodeEvex, h]

/-- What decodes is a sequence of the table, and its fields are the instruction's. -/
theorem decodeEvex_ok (s : Scan) (p0 p1 p2 op modrm : Byte) (rest : List Byte) (i : Instr)
    (h : decodeEvex s (p0 :: p1 :: p2 :: op :: modrm :: rest) = .ok i) :
    inTable (evexOf p0 p1 p2) op = some i.parts.fma ∧
      decodeFields i.parts.fma i.parts.leg (evexOf p0 p1 p2) modrm rest = .ok i := by
  cases ht : inTable (evexOf p0 p1 p2) op with
  | none => simp [decodeEvex_not_inTable s p0 p1 p2 op modrm rest ht] at h
  | some fma =>
    rw [decodeEvex_inTable s p0 p1 p2 op modrm rest fma ht] at h
    split at h
    · cases h
    · split at h
      · cases h
      · obtain ⟨-, hfma, hleg, -⟩ := decodeFields_ok _ _ _ _ _ _ h
        rw [hfma, hleg]
        exact ⟨rfl, h⟩

/-! ### The encodings of the table (R84, R85, R88) -/

theorem fmaOf_eq_none_iff (op : Byte) : fmaOf op = none ↔ op ≠ 0x97 ∧ op ≠ 0xA7 ∧ op ≠ 0xB7 := by
  unfold fmaOf
  split_ifs <;> simp_all

theorem fmaOf_eq_some_iff (op : Byte) (f : Fma) : fmaOf op = some f ↔ op = f.opcode := by
  refine ⟨fun h => ?_, fun h => h ▸ fmaOf_opcode f⟩
  unfold fmaOf at h
  split_ifs at h with h1 h2 h3
  · cases h; exact h1
  · cases h; exact h2
  · cases h; exact h3

theorem inTable_eq_none_iff (e : Evex) (op : Byte) :
    inTable e op = none ↔ e.mmm ≠ 6 ∨ e.pp ≠ 1 ∨ e.w = true ∨ fmaOf op = none := by
  unfold inTable
  split
  · rename_i h
    obtain ⟨hmmm, hpp, hw⟩ := h
    simp [hmmm, hpp, hw]
  · rename_i h
    rw [not_and_or, not_and_or, Bool.not_eq_false] at h
    tauto

/-- The bits that put a sequence outside the table. -/
theorem inTable_evexOf_eq_none_iff (p0 p1 p2 op : Byte) :
    inTable (evexOf p0 p1 p2) op = none ↔
      (p0.extractLsb' 0 3 ≠ 6 ∨ p1.extractLsb' 0 2 ≠ 1 ∨ p1.getLsbD 7 = true ∨
        (op ≠ 0x97 ∧ op ≠ 0xA7 ∧ op ≠ 0xB7)) := by
  rw [inTable_eq_none_iff, fmaOf_eq_none_iff]
  rfl

/-- The bits that put a sequence into the table. -/
theorem inTable_evexOf_of (p0 p1 p2 op : Byte) (hmmm : p0.extractLsb' 0 3 = 6) (hpp : p1.extractLsb' 0 2 = 1)
    (hw : p1.getLsbD 7 = false) (hop : op = 0x97 ∨ op = 0xA7 ∨ op = 0xB7) :
    ∃ fma, inTable (evexOf p0 p1 p2) op = some fma := by
  refine Option.ne_none_iff_exists'.1 fun h => ?_
  rcases (inTable_evexOf_eq_none_iff p0 p1 p2 op).1 h with h | h | h | ⟨h1, h2, h3⟩
  · exact h hmmm
  · exact h hpp
  · exact Bool.noConfusion (hw.symm.trans h)
  · rcases hop with rfl | rfl | rfl <;> contradiction

/-- What a sequence of the table has in its bytes. -/
theorem inTable_evexOf_fields (p0 p1 p2 op : Byte) (fma : Fma) (h : inTable (evexOf p0 p1 p2) op = some fma) :
    p0.extractLsb' 0 3 = 6 ∧ p1.extractLsb' 0 2 = 1 ∧ p1.getLsbD 7 = false ∧ op = fma.opcode := by
  unfold inTable at h
  split at h
  · rename_i hfields
    obtain ⟨hmmm, hpp, hw⟩ := hfields
    exact ⟨hmmm, hpp, hw, (fmaOf_eq_some_iff op fma).1 h⟩
  · cases h

theorem opcode_inj (f g : Fma) : f.opcode = g.opcode ↔ f = g := by
  refine ⟨fun h => ?_, congrArg _⟩
  have hg := (fmaOf_eq_some_iff f.opcode g).2 h
  rwa [fmaOf_opcode, Option.some.injEq] at hg

/-! ### Round trip -/

/-- The bytes of an instruction from 62h on are read back, with the legacy bytes that stood before them. -/
theorem decodeEvex_parts (s : Scan) (i : Instr) (rest : List Byte) (hwf : i.wf = true) (hillegal : s.illegal = false) :
    decodeEvex s (i.parts.evex.p0 :: i.parts.evex.p1 :: i.parts.evex.p2 :: i.parts.fma.opcode :: i.parts.modrm ::
        (i.parts.form.fields.2.2.tail ++ rest)) =
      if s.outside then .refused .legacyBytes else .ok (Parts.instr { i.parts with leg := ⟨s.seg, s.addr32⟩ }) := by
  rw [wf_iff, Bool.and_eq_true] at hwf
  obtain ⟨hmask, hform⟩ := hwf
  have ht : inTable (evexOf i.parts.evex.p0 i.parts.evex.p1 i.parts.evex.p2) i.parts.fma.opcode = some i.parts.fma := by
    rw [evexOf_bytes, inTable_parts]
  rw [decodeEvex_inTable _ _ _ _ _ _ _ _ ht, evexOf_bytes, decodeFields_parts _ _ _ hmask hform, hillegal]
  rfl

/-- Settles O2: the legacy bytes scan to the instruction's overrides, and the fields after them are read back. -/
theorem encodedInstructionsDecode : Obligations.EncodedInstructionsDecode := by
  intro i rest hwf
  obtain ⟨hlegacy, -, hscan⟩ := legBytes i.parts.leg
  rw [encode_eq, List.append_assoc]
  simp only [List.cons_append]
  rw [decode_legacy _ _ hlegacy, hscan, decodeEvex_parts _ i rest hwf rfl]
  exact congrArg DecodeResult.ok (parts_instr i)

/-! ### Lengths -/

theorem encode_length (i : Instr) : (encode i).length = i.length := by
  have htail : i.parts.form.fields.2.2.tail.length = i.parts.form.tailCount := by
    cases i.parts.form with
    | reg vl r => rfl
    | er r rc => rfl
    | mem vl op => exact tail_length op.addr
  rw [encode_eq, length_eq, List.length_append, legacy_bytes_length]
  simp only [List.length_cons, htail]
  omega

theorem disp_count_le (d : Disp) : d.count ≤ 4 := by cases d <;> simp [Disp.count]

/-- A SIB byte and four displacement bytes are the most a form uses after ModRM. -/
theorem tailCount_le (f : Form) : f.tailCount ≤ 5 := by
  cases f with
  | reg vl r => exact Nat.zero_le 5
  | er r rc => exact Nat.zero_le 5
  | mem vl op =>
    show op.addr.count ≤ 5
    cases op.addr with
    | base b d => exact (disp_count_le d).trans (by decide)
    | sib b x d => exact Nat.add_le_add_left (disp_count_le d) 1
    | sibNoBase x d => exact le_rfl
    | ripRel d => exact Nat.le_succ 4

theorem legacy_count_le (l : Legacy) : l.count ≤ 2 := by
  unfold Legacy.count
  split <;> split <;> omega

theorem length_bounds (i : Instr) : 6 ≤ i.length ∧ i.length ≤ 13 := by
  have hleg := legacy_count_le i.parts.leg
  have htail := tailCount_le i.parts.form
  rw [length_eq]
  omega

theorem disp_bytes_length (d : Disp) : d.bytes.length = d.count := by cases d <;> rfl

/-- Settles O3: the length counts the bytes of the encoding, form by form. -/
theorem instructionLengths : Obligations.InstructionLengths := by
  refine ⟨fun d => ?_, fun i => ⟨encode_length i, (length_bounds i).1, (length_bounds i).2, ?_⟩⟩
  · cases d with
    | none => exact .inl rfl
    | d8 v => exact .inr (.inl rfl)
    | d32 v => exact .inr (.inr rfl)
  · rw [length_eq, legacy_bytes_length]
    congr 1
    rcases i.parts.form with ⟨vl, r⟩ | ⟨r, rc⟩ | ⟨vl, ⟨addr, bcast⟩⟩
    · rfl
    · rfl
    · cases addr with
      | base b d => simp only [Form.tailCount, MemAddr.count, disp_bytes_length, zero_add]
      | sib b x d => simp only [Form.tailCount, MemAddr.count, disp_bytes_length]
      | sibNoBase x d => rfl
      | ripRel d => rfl

/-- Settles O4: the decoder uses an instruction's own bytes. -/
theorem decodedInstructionsAreWellFormed : Obligations.DecodedInstructionsAreWellFormed := decode_used

/-! ### Reserved fields (R105) -/

theorem maskOf_eq_none_iff (z : Bool) (aaa : BitVec 3) : maskOf z aaa = none ↔ z = true ∧ aaa = 0 := by
  revert z aaa; decide

theorem vecLenOf_eq_none_iff (ll : BitVec 2) : vecLenOf ll = none ↔ ll = 3 := by revert ll; decide

/-- `L'L` is a length but in a register form with `EVEX.b = 1`, where it is the rounding mode (R91). -/
theorem formOf_eq_none_iff (e : Evex) (mod : BitVec 2) (rm : BitVec 3) (rest : List Byte) :
    formOf e mod rm rest = none ↔ e.ll = 3 ∧ (mod ≠ 3 ∨ e.bc = false) := by
  rw [← vecLenOf_eq_none_iff]
  unfold formOf
  split_ifs <;> simp_all

/-- Exactly the reserved fields make the fields of an encoding illegal. -/
theorem decodeFields_eq_illegal_iff (fma : Fma) (leg : Legacy) (e : Evex) (modrm : Byte) (rest : List Byte) :
    decodeFields fma leg e modrm rest = .illegal ↔
      e.badBits = true ∨ maskOf e.z e.aaa = none ∨
        formOf e (modrm.extractLsb' 6 2) (modrm.extractLsb' 0 3) rest = none := by
  unfold decodeFields
  split
  · simp [*]
  · split
    · simp [*]
    · split <;> simp [*]

/-- The reserved fields by their bits in P0, P1, P2 and ModRM. -/
theorem decodeFields_evexOf_eq_illegal_iff (fma : Fma) (leg : Legacy) (p0 p1 p2 modrm : Byte) (rest : List Byte) :
    decodeFields fma leg (evexOf p0 p1 p2) modrm rest = .illegal ↔
      p0.getLsbD 3 = true ∨ p1.getLsbD 2 = false ∨
        (p2.extractLsb' 5 2 = 3 ∧ (modrm.extractLsb' 6 2 ≠ 3 ∨ p2.getLsbD 4 = false)) ∨
        (p2.getLsbD 7 = true ∧ p2.extractLsb' 0 3 = 0) := by
  rw [decodeFields_eq_illegal_iff, maskOf_eq_none_iff, formOf_eq_none_iff]
  simp only [Evex.badBits, evexOf, Bool.or_eq_true, Bool.not_eq_true']
  tauto

theorem badBits_evexOf_eq_false (p0 p1 p2 : Byte) (h : (evexOf p0 p1 p2).badBits = false) :
    p0.getLsbD 3 = false ∧ p1.getLsbD 2 = true := by
  simpa only [Evex.badBits, evexOf, Bool.or_eq_false_iff, Bool.not_eq_false'] using h

/-! ### Arrangements of legacy bytes (R81)

The bytes are spelled `0x64#8`, as `simp` writes them, so that the lemmas of this part rewrite one another. -/

/-- The bytes of R81: the overrides and the null segment bytes. -/
abbrev r81Bytes : List Byte := [0x64, 0x65, 0x67, 0x26, 0x2E, 0x36, 0x3E]

theorem r81Bytes_cases : ∀ c ∈ r81Bytes, c = 0x64#8 ∨ c = 0x65#8 ∨ c = 0x67#8 ∨ nullSegment c = true := by decide
theorem r81Bytes_legacy : ∀ c ∈ r81Bytes, legacyByte c = true := by decide
theorem r81Bytes_not_illegal : ∀ c ∈ r81Bytes, illegalLegacy c = false := by decide

@[simp] theorem nullSegment_fs : nullSegment 0x64#8 = false := by decide
@[simp] theorem nullSegment_gs : nullSegment 0x65#8 = false := by decide
@[simp] theorem nullSegment_addr32 : nullSegment 0x67#8 = false := by decide

/-- A null segment byte is no override. -/
theorem not_override_of_nullSegment (c : Byte) (h : nullSegment c = true) : c ≠ 0x64#8 ∧ c ≠ 0x65#8 ∧ c ≠ 0x67#8 := by
  refine ⟨?_, ?_, ?_⟩ <;> rintro rfl <;> exact absurd h (by decide)

@[simp] theorem next_fs (s : Scan) : s.next 0x64#8 = s.override .fs := rfl
@[simp] theorem next_gs (s : Scan) : s.next 0x65#8 = s.override .gs := rfl
@[simp] theorem next_addr32 (s : Scan) :
    s.next 0x67#8 = if s.addr32 then { s with outside := true } else { s with addr32 := true } := rfl
theorem next_nullSegment (s : Scan) (c : Byte) (h : nullSegment c = true) : s.next c = { s with outside := true } := by
  obtain ⟨h64, h65, h67⟩ := not_override_of_nullSegment c h
  simp [Scan.next, Scan.byte, h64, h65, h67, h]

@[simp] theorem override_seg (s : Scan) (o : SegOverride) : (s.override o).seg = s.seg.or (some o) := by
  unfold Scan.override
  cases s.seg <;> simp
@[simp] theorem override_addr32 (s : Scan) (o : SegOverride) : (s.override o).addr32 = s.addr32 := by
  unfold Scan.override
  cases s.seg <;> rfl
@[simp] theorem override_outside (s : Scan) (o : SegOverride) :
    (s.override o).outside = (s.outside || s.seg.isSome) := by
  unfold Scan.override
  cases s.seg <;> simp

/-- Address-size overrides are remembered. -/
theorem fold_addr32 (pre : List Byte) (s : Scan) (h : ∀ c ∈ pre, c ∈ r81Bytes) :
    (pre.foldl Scan.next s).addr32 = (s.addr32 || decide (0x67#8 ∈ pre)) := by
  induction pre generalizing s with
  | nil => simp
  | cons c pre ih =>
    rw [List.foldl_cons, ih _ fun d hd => h d (List.mem_cons_of_mem _ hd)]
    rcases r81Bytes_cases c (h c List.mem_cons_self) with rfl | rfl | rfl | hnull
    · simp
    · simp
    · cases hs : s.addr32 <;> simp [hs]
    · have h67 := (not_override_of_nullSegment c hnull).2.2
      simp [next_nullSegment s c hnull, h67.symm]

/-- The segment override that is remembered, where 64h and 65h do not both occur. -/
theorem fold_seg (pre : List Byte) (s : Scan) (h : ∀ c ∈ pre, c ∈ r81Bytes) (hone : 0x64#8 ∈ pre → 0x65#8 ∉ pre) :
    (pre.foldl Scan.next s).seg =
      s.seg.or (if 0x64#8 ∈ pre then some .fs else if 0x65#8 ∈ pre then some .gs else none) := by
  induction pre generalizing s with
  | nil => simp
  | cons c pre ih =>
    have hone' : 0x64#8 ∈ pre → 0x65#8 ∉ pre := fun h64 h65 =>
      hone (List.mem_cons_of_mem _ h64) (List.mem_cons_of_mem _ h65)
    rw [List.foldl_cons, ih _ (fun d hd => h d (List.mem_cons_of_mem _ hd)) hone']
    rcases r81Bytes_cases c (h c List.mem_cons_self) with rfl | rfl | rfl | hnull
    · have h65 : 0x65#8 ∉ pre := fun hm => hone List.mem_cons_self (List.mem_cons_of_mem _ hm)
      cases hs : s.seg <;> simp [hs, h65]
    · have h64 : 0x64#8 ∉ pre := fun hm => hone (List.mem_cons_of_mem _ hm) List.mem_cons_self
      cases hs : s.seg <;> simp [hs, h64]
    · cases hs : s.addr32 <;> simp [hs]
    · obtain ⟨h64, h65, -⟩ := not_override_of_nullSegment c hnull
      simp [next_nullSegment s c hnull, h64.symm, h65.symm]

/-- The scan stays inside R81 exactly while each kind of override comes once at most and no null segment byte comes. -/
theorem fold_outside (pre : List Byte) (s : Scan) (h : ∀ c ∈ pre, c ∈ r81Bytes) :
    (pre.foldl Scan.next s).outside = false ↔
      s.outside = false ∧ s.seg.isSome.toNat + (pre.count 0x64#8 + pre.count 0x65#8) ≤ 1 ∧
        s.addr32.toNat + pre.count 0x67#8 ≤ 1 ∧ pre.countP nullSegment = 0 := by
  induction pre generalizing s with
  | nil =>
    have hle : ∀ b : Bool, b.toNat ≤ 1 := by decide
    simp [hle]
  | cons c pre ih =>
    rw [List.foldl_cons, ih _ fun d hd => h d (List.mem_cons_of_mem _ hd)]
    rcases r81Bytes_cases c (h c List.mem_cons_self) with rfl | rfl | rfl | hnull
    · cases hs : s.seg <;> simp [hs]
      omega
    · cases hs : s.seg <;> simp [hs]
      omega
    · cases hs : s.addr32 <;> simp [hs]
    · simp [next_nullSegment s c hnull, hnull]

/-- A byte of R81 is one of the overrides or a null segment byte. -/
theorem length_eq_counts (pre : List Byte) (h : ∀ c ∈ pre, c ∈ r81Bytes) :
    pre.length = pre.count 0x64#8 + pre.count 0x65#8 + pre.count 0x67#8 + pre.countP nullSegment := by
  induction pre with
  | nil => rfl
  | cons c pre ih =>
    have ih := ih fun d hd => h d (List.mem_cons_of_mem _ hd)
    rcases r81Bytes_cases c (h c List.mem_cons_self) with rfl | rfl | rfl | hnull
    · simp; omega
    · simp; omega
    · simp; omega
    · obtain ⟨h64, h65, h67⟩ := not_override_of_nullSegment c hnull
      simp [h64, h65, h67, hnull]; omega

/-- The arrangements R81 admits. -/
abbrev Arranged (pre : List Byte) : Prop :=
  pre.count 0x64#8 + pre.count 0x65#8 ≤ 1 ∧ pre.count 0x67#8 ≤ 1 ∧
    pre.length = pre.count 0x64#8 + pre.count 0x65#8 + pre.count 0x67#8

theorem fold_start_outside (pre : List Byte) (h : ∀ c ∈ pre, c ∈ r81Bytes) :
    (pre.foldl Scan.next .start).outside = false ↔ Arranged pre := by
  have hlen := length_eq_counts pre h
  rw [fold_outside pre _ h]
  simp only [Scan.start, Option.isSome_none, Bool.toNat_false, true_and]
  omega

/-- Admitted legacy bytes scan to the overrides among them. -/
theorem fold_start_legacy (pre : List Byte) (h : ∀ c ∈ pre, c ∈ r81Bytes) (harr : Arranged pre) :
    (⟨(pre.foldl Scan.next .start).seg, (pre.foldl Scan.next .start).addr32⟩ : Legacy) =
      ⟨if 0x64#8 ∈ pre then some .fs else if 0x65#8 ∈ pre then some .gs else none, decide (0x67#8 ∈ pre)⟩ := by
  have hone : 0x64#8 ∈ pre → 0x65#8 ∉ pre := fun h64 h65 => by
    have c64 := List.count_pos_iff.2 h64
    have c65 := List.count_pos_iff.2 h65
    obtain ⟨hseg, -⟩ := harr
    omega
  rw [fold_addr32 pre _ h, fold_seg pre _ h hone]
  rfl

/-- An instruction's bytes after legacy bytes of R81: read back where they are arranged as R81 admits, refused
elsewhere. -/
theorem decode_arranged (i : Instr) (pre rest : List Byte) (hwf : i.wf = true) (hleg : i.parts.leg = ⟨none, false⟩)
    (h : ∀ c ∈ pre, c ∈ r81Bytes) :
    decode (pre ++ encode i ++ rest) =
      if (pre.foldl Scan.next .start).outside then .refused .legacyBytes
      else .ok (Parts.instr { i.parts with
        leg := ⟨(pre.foldl Scan.next .start).seg, (pre.foldl Scan.next .start).addr32⟩ }) := by
  have hlegacy : ∀ c ∈ pre, legacyByte c = true := fun c hc => r81Bytes_legacy c (h c hc)
  have hillegal : (pre.foldl Scan.next .start).illegal = false := by
    rw [fold_illegal pre _ hlegacy]
    simpa [Scan.start] using fun c hc => r81Bytes_not_illegal c (h c hc)
  have hbytes : i.parts.leg.bytes = [] := by rw [hleg]; rfl
  rw [encode_eq, hbytes, List.nil_append, List.append_assoc]
  simp only [List.cons_append]
  rw [decode_legacy pre _ hlegacy, decodeEvex_parts _ i rest hwf hillegal]

/-- Settles O9: by what the scan of the legacy bytes says about their arrangement. -/
theorem legacyArrangements : Obligations.LegacyArrangements := by
  intro i pre rest hwf hleg h
  rw [decode_arranged i pre rest hwf hleg h]
  refine ⟨fun harr => ?_, fun harr => ?_⟩
  · rw [(fold_start_outside pre h).2 harr, fold_start_legacy pre h harr]
    rfl
  · have houtside : (pre.foldl Scan.next .start).outside = true := by
      rw [← Bool.not_eq_false]
      exact mt (fold_start_outside pre h).1 harr
    rw [houtside]
    rfl

/-! ### The opcode table (R108) -/

/-- The kind of form that P2 and ModRM select (R91); `none` where `L'L` is reserved. -/
def kindOf (p2 modrm : Byte) : Option RowKind :=
  if modrm.extractLsb' 6 2 = 3 then
    if p2.getLsbD 4 then some .er else (vecLenOf (p2.extractLsb' 5 2)).map .reg
  else (vecLenOf (p2.extractLsb' 5 2)).map .mem

/-- The form that is read is of that kind. -/
theorem kindOf_of_formOf (p0 p1 p2 modrm : Byte) (rest : List Byte) (f : Form)
    (h : formOf (evexOf p0 p1 p2) (modrm.extractLsb' 6 2) (modrm.extractLsb' 0 3) rest = some (some f)) :
    kindOf p2 modrm = some f.kind := by
  unfold formOf at h
  unfold kindOf
  split at h
  · rename_i hmod
    rw [if_pos hmod]
    split at h
    · rename_i hb
      obtain rfl := Option.some.inj (Option.some.inj h)
      exact if_pos hb
    · rename_i hb
      obtain ⟨vl, hvl, hform⟩ := Option.map_eq_some_iff.1 h
      obtain rfl := Option.some.inj hform
      exact (if_neg hb).trans (Option.map_eq_some_iff.2 ⟨vl, hvl, rfl⟩)
  · rename_i hmod
    rw [if_neg hmod]
    obtain ⟨vl, hvl, hform⟩ := Option.map_eq_some_iff.1 h
    obtain ⟨a, -, rfl⟩ := Option.map_eq_some_iff.1 hform
    exact Option.map_eq_some_iff.2 ⟨vl, hvl, rfl⟩

/-- The bits of P2 a row fixes, and their values: `L'L` and `b`, `b` alone with embedded rounding, `L'L` alone for
memory. -/
def RowKind.p2 : RowKind → Byte × Byte
  | .reg vl => (0x70, vl.bits.setWidth 8 <<< 5)
  | .er     => (0x10, 0x10)
  | .mem vl => (0x60, vl.bits.setWidth 8 <<< 5)

/-- The bits of ModRM a row fixes, and their values: `mod = 11b` for registers. -/
def RowKind.modrm : RowKind → Byte × Byte
  | .reg _ => (0xC0, 0xC0)
  | .er    => (0xC0, 0xC0)
  | .mem _ => (0, 0)

/-- The constraint on `mod` that the table states beside the bits: memory forms exclude 11b. -/
def RowKind.admitsMod : RowKind → BitVec 2 → Bool
  | .reg _, _   => true
  | .er, _      => true
  | .mem _, mod => mod != 3

theorem covers_eq (r : OpcodeRow) (w : BitVec 48) :
    r.covers w = ((w &&& r.mask) == r.value && r.kind.admitsMod (w.extractLsb' 6 2)) := by
  unfold OpcodeRow.covers
  cases r.kind <;> rfl

/-- The row of a mnemonic and a kind, byte by byte. -/
def rowOf (f : Fma) (k : RowKind) : OpcodeRow where
  fma   := f
  kind  := k
  value := (0x62 : Byte) ++ (0x06 : Byte) ++ (0x05 : Byte) ++ k.p2.2 ++ f.opcode ++ k.modrm.2
  mask  := (0xFF : Byte) ++ (0x0F : Byte) ++ (0x87 : Byte) ++ k.p2.1 ++ (0xFF : Byte) ++ k.modrm.1

/-- The rows of the table are these rows. -/
theorem eq_rowOf : ∀ r ∈ opcodeRows, r = rowOf r.fma r.kind := by decide

/-- Masking a byte compares the bits the mask keeps. -/
theorem p0_masked_iff : ∀ p : Byte, p &&& 0x0F = 0x06 ↔ p.extractLsb' 0 3 = 6 ∧ p.getLsbD 3 = false := by
  decide

theorem p1_masked_iff : ∀ p : Byte, p &&& 0x87 = 0x05 ↔
    p.extractLsb' 0 2 = 1 ∧ p.getLsbD 7 = false ∧ p.getLsbD 2 = true := by decide

theorem modrm_masked_iff : ∀ p : Byte, p &&& 0xC0 = 0xC0 ↔ p.extractLsb' 6 2 = 3 := by decide

theorem p2_masked_iff (k : RowKind) (p : Byte) :
    p &&& k.p2.1 = k.p2.2 ↔
      match k with
      | .reg vl => p.extractLsb' 5 2 = vl.bits ∧ p.getLsbD 4 = false
      | .er => p.getLsbD 4 = true
      | .mem vl => p.extractLsb' 5 2 = vl.bits := by
  revert p
  cases k with
  | reg vl => cases vl <;> decide
  | er => decide
  | mem vl => cases vl <;> decide

theorem vecLenOf_eq_some_iff (ll : BitVec 2) (vl : VecLen) : vecLenOf ll = some vl ↔ ll = vl.bits := by
  revert ll
  cases vl <;> decide

/-- The bits of P2 and ModRM a row fixes, its constraint on `mod` included, are those that select its kind. -/
theorem kind_masked_iff (k : RowKind) (p2 modrm : Byte) :
    (p2 &&& k.p2.1 = k.p2.2 ∧ modrm &&& k.modrm.1 = k.modrm.2 ∧
      k.admitsMod (modrm.extractLsb' 6 2) = true) ↔ kindOf p2 modrm = some k := by
  rw [p2_masked_iff]
  unfold kindOf
  cases k with
  | reg vl =>
    simp only [RowKind.modrm, RowKind.admitsMod, modrm_masked_iff, ← vecLenOf_eq_some_iff]
    split_ifs <;> simp_all
  | er =>
    simp only [RowKind.modrm, RowKind.admitsMod, modrm_masked_iff]
    split_ifs <;> simp_all
  | mem vl =>
    simp only [RowKind.modrm, RowKind.admitsMod, ← vecLenOf_eq_some_iff]
    split_ifs <;> simp_all

theorem and_0xFF (b : Byte) : b &&& 0xFF = b := BitVec.and_allOnes

/-- Bytes put together are equal byte by byte. -/
theorem append_inj_iff {n m : Nat} (a c : BitVec n) (b d : BitVec m) : a ++ b = c ++ d ↔ a = c ∧ b = d := by
  refine ⟨fun h => ⟨?_, ?_⟩, fun h => by rw [h.1, h.2]⟩
  · rw [← BitVec.extractLsb'_append_eq_left (a := a) (b := b), h, BitVec.extractLsb'_append_eq_left]
  · rw [← BitVec.extractLsb'_append_eq_right (a := a) (b := b), h, BitVec.extractLsb'_append_eq_right]

/-- Masking six bytes compares each with its own mask. -/
theorem masked_bytes_iff (b0 b1 b2 b3 b4 b5 m0 m1 m2 m3 m4 m5 v0 v1 v2 v3 v4 v5 : Byte) :
    (b0 ++ b1 ++ b2 ++ b3 ++ b4 ++ b5) &&& (m0 ++ m1 ++ m2 ++ m3 ++ m4 ++ m5) = v0 ++ v1 ++ v2 ++ v3 ++ v4 ++ v5 ↔
      b0 &&& m0 = v0 ∧ b1 &&& m1 = v1 ∧ b2 &&& m2 = v2 ∧ b3 &&& m3 = v3 ∧ b4 &&& m4 = v4 ∧ b5 &&& m5 = v5 := by
  simp only [BitVec.and_append, append_inj_iff, and_assoc]

/-- A number of two parts, the high one first. -/
theorem exists_append {n m : Nat} (w : BitVec (n + m)) : ∃ (a : BitVec n) (b : BitVec m), w = a ++ b :=
  ⟨_, _, BitVec.extractLsb'_append_extractLsb'.symm⟩

/-- A number of 48 bits is six bytes. -/
theorem exists_bytes (w : BitVec 48) : ∃ b0 b1 b2 b3 b4 b5 : Byte, w = b0 ++ b1 ++ b2 ++ b3 ++ b4 ++ b5 := by
  obtain ⟨w, b5, rfl⟩ := exists_append (n := 40) (m := 8) w
  obtain ⟨w, b4, rfl⟩ := exists_append (n := 32) (m := 8) w
  obtain ⟨w, b3, rfl⟩ := exists_append (n := 24) (m := 8) w
  obtain ⟨w, b2, rfl⟩ := exists_append (n := 16) (m := 8) w
  obtain ⟨b0, b1, rfl⟩ := exists_append (n := 8) (m := 8) w
  exact ⟨b0, b1, b2, b3, b4, b5, rfl⟩

/-- The six bytes match a row where the fields have the table's values, the opcode is that of the row's mnemonic, and
P2 and ModRM select the row's kind. -/
theorem rowOf_covers_iff (f : Fma) (k : RowKind) (b0 p0 p1 p2 op modrm : Byte) :
    (rowOf f k).covers (b0 ++ p0 ++ p1 ++ p2 ++ op ++ modrm) = true ↔
      b0 = 0x62 ∧ (p0.extractLsb' 0 3 = 6 ∧ p0.getLsbD 3 = false) ∧
        (p1.extractLsb' 0 2 = 1 ∧ p1.getLsbD 7 = false ∧ p1.getLsbD 2 = true) ∧ op = f.opcode ∧
        kindOf p2 modrm = some k := by
  have hmod : (b0 ++ p0 ++ p1 ++ p2 ++ op ++ modrm).extractLsb' 6 2 = modrm.extractLsb' 6 2 :=
    BitVec.extractLsb'_append_eq_of_add_le (by decide)
  have hmask : (b0 ++ p0 ++ p1 ++ p2 ++ op ++ modrm) &&& (rowOf f k).mask = (rowOf f k).value ↔ _ :=
    masked_bytes_iff ..
  rw [covers_eq, hmod, Bool.and_eq_true, beq_iff_eq, hmask, ← kind_masked_iff, ← p0_masked_iff,
    ← p1_masked_iff, and_0xFF, and_0xFF]
  simp only [rowOf, and_assoc, and_left_comm (a := op = f.opcode)]

/-- Rows whose mnemonic and kind agree are one row. -/
theorem row_ext (r r' : OpcodeRow) (hr : r ∈ opcodeRows) (hr' : r' ∈ opcodeRows) (hfma : r.fma = r'.fma)
    (hkind : r.kind = r'.kind) : r = r' := by
  rw [eq_rowOf r hr, eq_rowOf r' hr', hfma, hkind]

/-- Settles O5: the fields a row fixes determine its mnemonic and its kind, and the decoder reads the same fields. -/
theorem decodedBytesMatchTheirRow : Obligations.DecodedBytesMatchTheirRow := by
  refine ⟨fun w r r' hr hr' hw hw' => ?_, fun pre p0 p1 p2 op modrm rest i hpre hdec r hr => ?_⟩
  · obtain ⟨b0, p0, p1, p2, op, modrm, rfl⟩ := exists_bytes w
    rw [eq_rowOf r hr, rowOf_covers_iff] at hw
    rw [eq_rowOf r' hr', rowOf_covers_iff] at hw'
    obtain ⟨-, -, -, hop, hkind⟩ := hw
    obtain ⟨-, -, -, hop', hkind'⟩ := hw'
    refine row_ext r r' hr hr' ?_ (Option.some.inj (hkind.symm.trans hkind'))
    rw [← fmaOf_eq_some_iff] at hop hop'
    exact Option.some.inj (hop.symm.trans hop')
  · have hlegacy : ∀ c ∈ pre, legacyByte c = true := fun c hc => legacyByte_of_override c (hpre c hc)
    rw [decode_legacy pre _ hlegacy] at hdec
    obtain ⟨htable, hfields⟩ := decodeEvex_ok _ _ _ _ _ _ _ _ hdec
    obtain ⟨hbits, -, -, -, hform, -⟩ := decodeFields_ok _ _ _ _ _ _ hfields
    obtain ⟨hmmm, hpp, hw, hop⟩ := inTable_evexOf_fields p0 p1 p2 op _ htable
    obtain ⟨hreserved, hfixed⟩ := badBits_evexOf_eq_false p0 p1 p2 hbits
    rw [eq_rowOf r hr, rowOf_covers_iff, kindOf_of_formOf _ _ _ _ _ _ hform]
    simp only [hmmm, hpp, hw, hop, hreserved, hfixed, true_and, Option.some.injEq, opcode_inj]
    exact and_congr eq_comm eq_comm

end Sys2Proof
end

section
/-! SUPPORT. Proofs about steps at an encoding (30_encoding.md R109), displacements and segment bases (R98, R104). -/

namespace Sys2Proof.Machine

/-! ### Steps -/

/-- Bytes that are illegal raise #UD. -/
theorem step_illegal (s : State) (h : Admitted s) (hf : s.fetched = .illegal) :
    step s = .fault (.ud { s with draws := s.draws + 1 }) := step_of s _ h hf

/-- Bytes that are refused refuse the step. -/
theorem step_fetched_refused (s : State) (r : DecodeRefusal) (h : Admitted s) (hf : s.fetched = .refused r) :
    step s = .refused (refusalOf r) := step_of s _ h hf

/-- Settles O10: each clause is one answer of the decoder. -/
theorem stepRunsTheDecodedInstruction : Obligations.StepRunsTheDecodedInstruction :=
  ⟨step_ok, step_illegal, step_fetched_refused⟩

/-- Settles O11: the stored bytes can be fetched, so they stand in front of what the step decodes. -/
theorem stepRunsTheStoredInstruction : Obligations.StepRunsTheStoredInstruction := by
  intro s i hwf hstored
  have hdecode : decode (encode i) = .ok i := by simpa using encodedInstructionsDecode i [] hwf
  have hlength : (encode i).length ≤ 15 := by
    rw [encode_length]
    exact (length_bounds i).2.trans (by decide)
  refine step_ok s i (fetched_of_prefix s _ i hdecode hlength fun n b hb => ?_)
  obtain ⟨hcanonical, p, htranslate, hbyte⟩ := hstored n b hb
  exact fetchByte_stored s n p b hcanonical htranslate hbyte

/-! ### Illegal and refused bytes -/

/-- Settles O6: the scan remembers an illegal legacy byte, and a sequence of the table after one is illegal. -/
theorem illegalLegacyBytesRaiseUd : Obligations.IllegalLegacyBytesRaiseUd := by
  intro pre p0 p1 p2 op modrm rest hmmm hpp hw hop hpre hbad
  have hlegacy : ∀ c ∈ pre, legacyByte c = true := fun c hc => (legacy_iff c).2 (hpre c hc)
  have hillegal : (pre.foldl Scan.next .start).illegal = true := by
    obtain ⟨c, hc, hcbad⟩ := hbad
    rw [fold_illegal pre _ hlegacy, List.any_eq_true.2 ⟨c, hc, (illegal_iff c).2 hcbad⟩]
    rfl
  have hdecode : decode (pre ++ 0x62 :: p0 :: p1 :: p2 :: op :: modrm :: rest) = .illegal := by
    obtain ⟨fma, htable⟩ := inTable_evexOf_of p0 p1 p2 op hmmm hpp hw hop
    rw [decode_legacy pre _ hlegacy, decodeEvex_inTable _ _ _ _ _ _ _ _ htable, if_pos hillegal]
  refine ⟨hdecode, fun s hs hfetch => step_illegal s hs ?_⟩
  rw [State.fetched, hfetch, hdecode]

/-- Settles O7: after an instruction's own legacy bytes only the fields decide. -/
theorem reservedFieldsRaiseUd : Obligations.ReservedFieldsRaiseUd := by
  intro leg p0 p1 p2 op modrm rest hmmm hpp hw hop
  have hdecode : decode (leg.bytes ++ 0x62 :: p0 :: p1 :: p2 :: op :: modrm :: rest) = .illegal ↔
      p0.getLsbD 3 = true ∨ p1.getLsbD 2 = false ∨
        (p2.extractLsb' 5 2 = 3 ∧ (modrm.extractLsb' 6 2 ≠ 3 ∨ p2.getLsbD 4 = false)) ∨
        (p2.getLsbD 7 = true ∧ p2.extractLsb' 0 3 = 0) := by
    obtain ⟨fma, htable⟩ := inTable_evexOf_of p0 p1 p2 op hmmm hpp hw hop
    obtain ⟨hlegacy, -, hscan⟩ := legBytes leg
    rw [decode_legacy _ _ hlegacy, hscan, decodeEvex_inTable _ _ _ _ _ _ _ _ htable]
    exact decodeFields_evexOf_eq_illegal_iff fma leg p0 p1 p2 modrm rest
  refine ⟨hdecode, fun s hs hfetch hreserved => step_illegal s hs ?_⟩
  rw [State.fetched, hfetch, hdecode.2 hreserved]

/-- Settles O8: either the byte after the overrides is not 62h, or the bytes after 62h are outside the table. -/
theorem otherSequencesAreRefused : Obligations.OtherSequencesAreRefused := by
  intro s pre hs hpre
  have hlegacy : ∀ c ∈ pre, legacyByte c = true := fun c hc => legacyByte_of_override c (hpre c hc)
  refine ⟨fun c rest hfetch hc hrex => ?_, fun p0 p1 p2 op modrm rest hfetch hother => ?_⟩
  · rw [List.mem_cons, not_or] at hc
    obtain ⟨h62, hlist⟩ := hc
    have hnot : legacyByte c = false := by
      rw [← Bool.not_eq_true, legacy_iff, not_or]
      exact ⟨hlist, hrex⟩
    refine step_fetched_refused s .notInTable hs ?_
    rw [State.fetched, hfetch, decode_no_evex pre c rest hlegacy hnot h62]
  · have htable := (inTable_evexOf_eq_none_iff p0 p1 p2 op).2 hother
    refine step_fetched_refused s .notInTable hs ?_
    rw [State.fetched, hfetch, decode_legacy pre _ hlegacy, decodeEvex_not_inTable _ _ _ _ _ _ _ htable]

/-! ### Displacements and segment bases -/

/-- A sign-extended byte times a factor up to 64 stays a signed 64-bit number. -/
theorem dispValue_d8_toInt (n : Nat) (v : BitVec 8) (hn : n ≤ 64) : (dispValue n (.d8 v)).toInt = v.toInt * n := by
  have hlow : -128 ≤ v.toInt := BitVec.le_toInt v
  have hhigh : v.toInt < 128 := BitVec.toInt_lt
  have hn' : (BitVec.ofNat 64 n).toInt = n := by
    rw [BitVec.toInt_ofNat', Int.bmod_eq_of_le] <;> omega
  rw [dispValue, BitVec.toInt_mul, BitVec.toInt_signExtend_of_le (by decide), hn']
  have hlow' : -8192 ≤ v.toInt * n := by nlinarith
  have hhigh' : v.toInt * n ≤ 8192 := by nlinarith
  exact Int.bmod_eq_of_le (by omega) (by omega)

/-- `N` of disp8*N (R104) by lanes: two bytes each. -/
theorem disp8Scale_eq (vl : VecLen) (bcast : Bool) : disp8Scale vl bcast = if bcast then 2 else 2 * lanes vl := by
  cases vl <;> rfl

theorem disp8Scale_le (vl : VecLen) (bcast : Bool) : disp8Scale vl bcast ≤ 64 := by
  cases vl <;> cases bcast <;> decide

/-- Settles O44: a displacement is sign-extended, one byte also scaled, and the base added is that of the override. -/
theorem displacementsAndSegments : Obligations.DisplacementsAndSegments := by
  refine ⟨fun vl bcast v => ?_, fun n v => BitVec.toInt_signExtend_of_le (by decide), fun n => rfl,
    fun s a ilen vl op => ⟨rfl, rfl, BitVec.zero_add _⟩⟩
  rw [dispValue_d8_toInt _ v (disp8Scale_le vl bcast), disp8Scale_eq]
  cases bcast <;> rfl

/-! ### Known words -/

/-- Settles O1, word by word. -/
theorem knownWordsDecode : Obligations.KnownWordsDecode := by
  refine ⟨?_, ?_, ?_, ?_, ?_, ?_, ?_, ?_, ?_, ?_⟩ <;> decide

end Sys2Proof.Machine
end

section
/-! SUPPORT. Proofs about the lane operation (40_fp16_numerics.md): the cases of R130 one by one, DAZ and FTZ, overflow
and tininess, and the rounded value as a bound of the exact one or as the nearest to it. -/

namespace Sys2Proof.Machine

/-! ### The steps of FMA16 (R130) -/

theorem addendSign_eq (z : Half) (op : LaneOp) : addendSign z op = (fpSign z != (op == .sub)) := by
  cases op
  · exact (Bool.xor_false _).symm
  · exact (Bool.xor_true _).symm

theorem withSign_zero (s : Bool) : withSign s 0 = if s then 0x8000 else 0x0000 := by cases s <;> rfl

theorem withSign_inf (s : Bool) : withSign s 0x7C00 = if s then 0xFC00 else 0x7C00 := by cases s <;> rfl

theorem isNan_of_isSnan (h : Half) (q : isSnan h = true) : isNan h = true := (Bool.and_eq_true_iff.1 q).1

section Steps
variable (rule : NanRule) (x y z : Half) (op : LaneOp) (rm : RoundMode) (ctl : FpCtl)

/-- Step 0: without DAZ the operands are used at their value. -/
theorem fma16_of_daz_false (h : ctl.daz = false) : fma16 rule x y z op rm ctl = fmaCases rule x y z op rm ctl := by
  simp [fma16, flushDenormal, h]

/-- Step 1: a NaN operand, whether or not the others are flushed. -/
theorem fma16_nan (h : isNan x = true ∨ isNan y = true ∨ isNan z = true) :
    fma16 rule x y z op rm ctl =
      ⟨nanResult rule (flushDenormal ctl.daz x) (flushDenormal ctl.daz y) (flushDenormal ctl.daz z),
        ⟨isSnan x || isSnan y || isSnan z, false, false, false, false⟩, false⟩ := by
  have hnan : (isNan x || isNan y || isNan z) = true := by simpa [or_assoc] using h
  simp only [fma16, fmaCases, flushDenormal_class, hnan, if_true]

/-- Step 2: infinity times zero. -/
theorem fmaCases_zeroTimesInf (hx : isNan x = false) (hy : isNan y = false) (hz : isNan z = false)
    (h : (isInf x = true ∧ isZero y = true) ∨ (isZero x = true ∧ isInf y = true)) :
    fmaCases rule x y z op rm ctl = ⟨defaultNan, .invalid, false⟩ := by
  simp [fmaCases, hx, hy, hz, h]

/-- Step 3: an infinite product. -/
theorem fmaCases_infProduct (hx : isNan x = false) (hy : isNan y = false) (hz : isNan z = false)
    (h0 : ¬((isInf x = true ∧ isZero y = true) ∨ (isZero x = true ∧ isInf y = true)))
    (h : isInf x = true ∨ isInf y = true) :
    fmaCases rule x y z op rm ctl =
      if isInf z = true ∧ addendSign z op ≠ (fpSign x != fpSign y) then ⟨defaultNan, .invalid, false⟩
      else ⟨withSign (fpSign x != fpSign y) 0x7C00, denormalFlags x y z, false⟩ := by
  simp [fmaCases, hx, hy, hz, h0, h]

/-- Step 4: an infinite addend. -/
theorem fmaCases_infAddend (hx : isNan x = false) (hy : isNan y = false) (hz : isNan z = false)
    (hxi : isInf x = false) (hyi : isInf y = false) (h : isInf z = true) :
    fmaCases rule x y z op rm ctl = ⟨withSign (addendSign z op) 0x7C00, denormalFlags x y z, false⟩ := by
  simp [fmaCases, hx, hy, hz, hxi, hyi, h]

end Steps

/-! ### NaN operands -/

/-- `NaNResult` of R133 does not see whether denormal operands were flushed. -/
theorem nanResult_flushed (daz : Bool) (x y z : Half) (h : isNan x = true ∨ isNan y = true ∨ isNan z = true) :
    nanResult .firstOperand (flushDenormal daz x) (flushDenormal daz y) (flushDenormal daz z) =
      nanResult .firstOperand x y z := by
  simp only [nanResult, flushDenormal_class]
  split
  · rw [flushDenormal_nan daz x ‹_›]
  · split
    · rw [flushDenormal_nan daz y ‹_›]
    · rw [flushDenormal_nan daz z ((h.resolve_left ‹_›).resolve_left ‹_›)]

/-- Settles O48: step 1 decides, and flushing leaves NaNs alone. -/
theorem nanOperandsPropagate : Obligations.NanOperandsPropagate := by
  intro x y z op rm ctl
  refine ⟨fun hx => ?_, fun hx hy => ?_, fun hx hy hz => ?_, fun rule h => ?_⟩
  · rw [fma16_nan _ _ _ _ _ _ _ (.inl hx), nanResult_flushed _ _ _ _ (.inl hx)]
    simp [nanResult, hx, quiet]
  · rw [fma16_nan _ _ _ _ _ _ _ (.inr (.inl hy)), nanResult_flushed _ _ _ _ (.inr (.inl hy))]
    simp [nanResult, hx, hy, quiet]
  · rw [fma16_nan _ _ _ _ _ _ _ (.inr (.inr hz)), nanResult_flushed _ _ _ _ (.inr (.inr hz))]
    simp [nanResult, hx, hy, quiet]
  · rw [fma16_nan _ _ _ _ _ _ _ h]
    simp [or_assoc]

/-! ### Invalid, infinities and denormals -/

/-- Invalid is raised alone. -/
theorem fmaCases_invalid (rule : NanRule) (x y z : Half) (op : LaneOp) (rm : RoundMode) (ctl : FpCtl)
    (h : (fmaCases rule x y z op rm ctl).flags.ie = true) :
    (fmaCases rule x y z op rm ctl).flags = .invalid ∧ (fmaCases rule x y z op rm ctl).tiny = false := by
  unfold fmaCases at h ⊢
  dsimp only at h ⊢
  split_ifs at h ⊢
  · exact ⟨congrArg (FpFlags.mk · false false false false) h, rfl⟩
  · exact ⟨rfl, rfl⟩
  · exact ⟨rfl, rfl⟩
  · exact absurd h Bool.false_ne_true
  · exact absurd h Bool.false_ne_true
  · rw [withDe_ie, finiteResult_ie] at h
    exact absurd h Bool.false_ne_true

/-- Settles O49: which steps of R130 raise Invalid, and what they return. -/
theorem invalidOperations : Obligations.InvalidOperations := by
  intro rule x y z op rm ctl hdaz
  dsimp only
  rw [fma16_of_daz_false _ _ _ _ _ _ _ hdaz, ← addendSign_eq]
  refine ⟨?_, fun hnan h => ?_, fmaCases_invalid rule x y z op rm ctl⟩
  · rw [fmaCases_ie]
    by_cases hnan : isNan x = true ∨ isNan y = true ∨ isNan z = true
    · simp [hnan, or_assoc]
    · have hquiet : ¬(isSnan x = true ∨ isSnan y = true ∨ isSnan z = true) := fun h =>
        hnan (h.imp (isNan_of_isSnan x) (.imp (isNan_of_isSnan y) (isNan_of_isSnan z)))
      by_cases h0 : (isInf x = true ∧ isZero y = true) ∨ (isZero x = true ∧ isInf y = true)
      · simp [hnan, h0, or_assoc]
      · simp [hnan, hquiet, h0, or_assoc, and_assoc]
  · simp only [not_or, Bool.not_eq_true] at hnan
    obtain ⟨hx, hy, hz⟩ := hnan
    by_cases h0 : (isInf x = true ∧ isZero y = true) ∨ (isZero x = true ∧ isInf y = true)
    · rw [fmaCases_zeroTimesInf _ _ _ _ _ _ _ hx hy hz h0]
      rfl
    · obtain ⟨hinf, hsign⟩ := h.resolve_left h0
      rw [fmaCases_infProduct _ _ _ _ _ _ _ hx hy hz h0 hinf, if_pos hsign]
      rfl

/-- Settles O50: steps 3 and 4 of R130. -/
theorem infiniteResults : Obligations.InfiniteResults := by
  intro rule x y z op rm ctl hdaz hx hy hz
  rw [fma16_of_daz_false _ _ _ _ _ _ _ hdaz, ← addendSign_eq]
  refine ⟨fun hinf hx0 hy0 hsign => ?_, fun hxi hyi hzi => ?_⟩
  · rw [fmaCases_infProduct _ _ _ _ _ _ _ hx hy hz (by simp [hx0, hy0]) hinf,
      if_neg (by rintro ⟨hzi, hne⟩; exact hsign.elim (by simp [hzi]) hne), withSign_inf]
    simp [denormalFlags]
  · rw [fmaCases_infAddend _ _ _ _ _ _ _ hx hy hz hxi hyi hzi, withSign_inf]
    simp [denormalFlags]

/-- Settles O51: a flushed operand is not denormal, and flushing makes no NaN. -/
theorem denormalOperands : Obligations.DenormalOperands := by
  intro rule x y z op rm ctl
  rw [fma16, fmaCases_de]
  simp only [flushDenormal_class]
  cases ctl.daz <;> simp [and_assoc, or_assoc]

/-! ### Exact zeros -/

/-- Step 5 where the exact value is 0. -/
theorem fma16_exactZero (rule : NanRule) (x y z : Half) (op : LaneOp) (rm : RoundMode) (ctl : FpCtl)
    (hdaz : ctl.daz = false) (hx : IsFinite x) (hy : IsFinite y) (hz : IsFinite z) (hv : exactValue x y z op = 0) :
    fma16 rule x y z op rm ctl =
      ⟨withSign (zeroSign (fpSign x != fpSign y) (addendSign z op) rm) 0,
        ⟨false, (denormalFlags x y z).de, false, false, false⟩, false⟩ := by
  rw [fma16_finite _ _ _ _ _ _ _ hdaz hx hy hz]
  simp [finiteResult, hv, LaneResult.withDe, FpFlags.none]

/-- Settles O52: the zero of step 5, with the sign of R129. -/
theorem exactZeroResults : Obligations.ExactZeroResults := by
  intro rule x y z op rm ctl hdaz hx hy hz hv
  rw [fma16_exactZero _ _ _ _ _ _ _ hdaz hx hy hz hv, ← addendSign_eq, withSign_zero, zeroSign]
  refine ⟨?_, rfl, rfl, rfl, rfl⟩
  split
  · rfl
  · simp

/-! ### Subtraction -/

/-- A pattern with the other sign is of the same class. -/
theorem neg_class (z : Half) :
    isNan (z ^^^ 0x8000) = isNan z ∧ isInf (z ^^^ 0x8000) = isInf z ∧ isDenormal (z ^^^ 0x8000) = isDenormal z := by
  simp only [isNan, isInf, isDenormal, neg_fields, and_self]

theorem fpValue_neg (z : Half) : fpValue (z ^^^ 0x8000) = -fpValue z := by
  simp only [fpValue, fpMag, neg_fields]
  cases fpSign z <;> simp

theorem withSign_neg (s : Bool) : withSign s 0 ^^^ 0x8000 = withSign (!s) 0 := by cases s <;> rfl

theorem flushDenormal_neg (daz : Bool) (z : Half) :
    flushDenormal daz (z ^^^ 0x8000) = flushDenormal daz z ^^^ 0x8000 := by
  simp only [flushDenormal, neg_class, neg_fields]
  split
  · exact (withSign_neg _).symm
  · rfl

theorem addendSign_neg (z : Half) : addendSign (z ^^^ 0x8000) .add = addendSign z .sub := (neg_fields z).1

theorem exactValue_neg (x y z : Half) : exactValue x y (z ^^^ 0x8000) .add = exactValue x y z .sub := by
  simp only [exactValue, fpValue_neg]
  ring

/-- Steps 2 to 5 see the operation and the addend's sign only together. -/
theorem fmaCases_neg (rule : NanRule) (x y z : Half) (rm : RoundMode) (ctl : FpCtl)
    (hx : isNan x = false) (hy : isNan y = false) (hz : isNan z = false) :
    fmaCases rule x y (z ^^^ 0x8000) .add rm ctl = fmaCases rule x y z .sub rm ctl := by
  simp only [fmaCases, finiteResult, denormalFlags, neg_class, addendSign_neg, exactValue_neg, hx, hy, hz,
    Bool.or_self, Bool.false_eq_true, if_false]

/-- Settles O53: without a NaN by `fmaCases_neg`; with one the operation does not matter, nor does an addend that is
not the NaN. -/
theorem subtractionNegatesTheAddend : Obligations.SubtractionNegatesTheAddend := by
  intro rule x y z rm ctl
  refine ⟨fun hz hrule => ?_, fun hz => ?_⟩
  · by_cases hnan : isNan x = true ∨ isNan y = true
    · obtain rfl : rule = .firstOperand := hrule.resolve_left fun ⟨hx, hy⟩ => by simp [hx, hy] at hnan
      have hnan' (w : Half) : isNan x = true ∨ isNan y = true ∨ isNan w = true := or_assoc.1 (.inl hnan)
      have hsnan : isSnan z = false ∧ isSnan (z ^^^ 0x8000) = false := by
        simp only [isSnan, neg_class, hz, Bool.false_and, and_self]
      rw [fma16_nan _ _ _ _ _ _ _ (hnan' _), fma16_nan _ _ _ _ _ _ _ (hnan' _), nanResult_flushed _ _ _ _ (hnan' _),
        nanResult_flushed _ _ _ _ (hnan' _), hsnan.1, hsnan.2]
      rcases hnan with hx | hy
      · simp [nanResult, hx]
      · simp [nanResult, hy]
    · simp only [not_or, Bool.not_eq_true] at hnan
      rw [fma16, fma16, flushDenormal_neg]
      refine (fmaCases_neg _ _ _ _ _ _ ?_ ?_ ?_).symm <;> simp only [flushDenormal_class, hnan, hz]
  · rw [fma16_nan _ _ _ _ _ _ _ (.inr (.inr hz)), fma16_nan _ _ _ _ _ _ _ (.inr (.inr hz))]

/-! ### `Round` of R126 by its fields -/

theorem roundMag_tiny (a : Nat) (neg : Bool) (rm : RoundMode) (h : a ≠ 0) :
    (roundMag a neg rm).tiny = tinyMag a rm neg := by
  rw [roundMag_eq a neg rm h]
  split
  · cases ht : tinyMag a rm neg
    · rfl
    · have := tiny_small a rm neg h ht
      omega
  · rfl

theorem roundMag_sign (a : Nat) (neg : Bool) (rm : RoundMode) (h : a ≠ 0) : fpSign (roundMag a neg rm).value = neg := by
  rw [roundMag_eq a neg rm h]
  split
  · cases rm <;> exact fpSign_withSign neg _
  · exact fpSign_withSign neg _

/-- Overflow is reported exactly where the rounded number is that of infinity or more. -/
theorem roundMag_oe (a : Nat) (neg : Bool) (rm : RoundMode) (h : a ≠ 0) :
    (roundMag a neg rm).flags.oe = decide (31744 ≤ roundNumber a rm neg) := by
  rw [roundMag_eq a neg rm h]
  split
  · exact (decide_eq_true ‹_›).symm
  · exact (decide_eq_false ‹_›).symm

theorem roundMag_finite (a : Nat) (neg : Bool) (rm : RoundMode) (h : a ≠ 0) (hk : roundNumber a rm neg < 31744) :
    IsFinite (roundMag a neg rm).value := by
  rw [finite_iff, (roundMag_small a neg rm h hk).2]
  exact hk

/-- Underflow is reported where a result is tiny and inexact (R128). -/
theorem roundMag_ue (a : Nat) (neg : Bool) (rm : RoundMode) (h : a ≠ 0) :
    (roundMag a neg rm).flags.ue = ((roundMag a neg rm).tiny && (roundMag a neg rm).flags.pe) := by
  rw [roundMag_eq a neg rm h]
  split <;> rfl

/-- Without an overflow, Precision is reported where the result is not the exact value. -/
theorem roundMag_pe_iff (v : Int) (rm : RoundMode) (hv : v ≠ 0)
    (hk : roundNumber v.natAbs rm (decide (v < 0)) < 31744) :
    (roundMag v.natAbs (decide (v < 0)) rm).flags.pe = true ↔
      fpValue (roundMag v.natAbs (decide (v < 0)) rm).value * 2 ^ 24 ≠ v := by
  rw [ne_eq, (roundMag_error v rm hv hk).1, roundMag_eq _ _ _ (by omega), if_neg (by omega), decide_eq_true_eq]

/-! ### DAZ, FTZ and MXCSR.RC -/

/-- What FTZ does to a lane's result. -/
def LaneResult.flushTiny (r : LaneResult) (on : Bool) : LaneResult :=
  if r.tiny && on then ⟨withSign (fpSign r.value) 0, { r.flags with ue := true, pe := true }, true⟩ else r

theorem flushTiny_not_tiny (r : LaneResult) (on : Bool) (h : r.tiny = false) : r.flushTiny on = r := by
  simp [LaneResult.flushTiny, h]

theorem flushTiny_withDe (r : LaneResult) (on d : Bool) : (r.flushTiny on).withDe d = (r.withDe d).flushTiny on := by
  unfold LaneResult.flushTiny
  rw [withDe_tiny]
  split <;> rfl

/-- Step 5 flushes what it gives without FTZ. -/
theorem finiteResult_ftz (x y z : Half) (op : LaneOp) (rm : RoundMode) (daz ftz um : Bool) :
    finiteResult x y z op rm ⟨daz, ftz, um⟩ = (finiteResult x y z op rm ⟨daz, false, um⟩).flushTiny (ftz && um) := by
  unfold finiteResult
  dsimp only
  generalize exactValue x y z op = v
  split
  · rfl
  · have ha : v.natAbs ≠ 0 := by omega
    simp only [Bool.and_false, Bool.false_and, Bool.false_eq_true, if_false, LaneResult.flushTiny, ← Bool.and_assoc]
    split
    · rename_i h
      have ht : tinyMag v.natAbs rm (decide (v < 0)) = true := by
        simp only [Bool.and_eq_true, roundMag_tiny _ _ _ ha] at h
        exact h.1.1
      have hk := tiny_small _ _ _ ha ht
      rw [roundMag_sign _ _ _ ha, roundMag_eq _ _ _ ha, if_neg (by omega)]
    · rfl

/-- Steps 1 to 5 with FTZ: only step 5 gives a tiny result. -/
theorem fmaCases_ftz (rule : NanRule) (x y z : Half) (op : LaneOp) (rm : RoundMode) (daz ftz um : Bool) :
    fmaCases rule x y z op rm ⟨daz, ftz, um⟩ =
      (fmaCases rule x y z op rm ⟨daz, false, um⟩).flushTiny (ftz && um) := by
  simp only [fmaCases]
  split
  · rfl
  · split
    · rfl
    · split
      · split <;> rfl
      · split
        · rfl
        · rw [finiteResult_ftz, flushTiny_withDe]

/-- FMA16 with FTZ flushes what FMA16 without it gives. -/
theorem fma16_ftz (rule : NanRule) (x y z : Half) (op : LaneOp) (rm : RoundMode) (daz ftz um : Bool) :
    fma16 rule x y z op rm ⟨daz, ftz, um⟩ = (fma16 rule x y z op rm ⟨daz, false, um⟩).flushTiny (ftz && um) :=
  fmaCases_ftz ..

theorem flushDenormal_true (h : Half) :
    flushDenormal true h = if isDenormal h then (if fpSign h then 0x8000 else 0x0000) else h := by
  rw [flushDenormal, withSign_zero, Bool.true_and]

/-- The rounding mode by the two bits of its encoding (R25). -/
theorem roundModeOf_iff (b : BitVec 2) :
    (roundModeOf b = .rne ↔ b.getLsbD 1 = false ∧ b.getLsbD 0 = false) ∧
    (roundModeOf b = .rd ↔ b.getLsbD 1 = false ∧ b.getLsbD 0 = true) ∧
    (roundModeOf b = .ru ↔ b.getLsbD 1 = true ∧ b.getLsbD 0 = false) ∧
    (roundModeOf b = .rz ↔ b.getLsbD 1 = true ∧ b.getLsbD 0 = true) := by
  revert b
  decide

/-- Settles O55: step 0 is a substitution, FTZ acts on the result without it, and `ctl` and RC are bits of MXCSR. -/
theorem dazAndFtz : Obligations.DazAndFtz := by
  refine ⟨fun rule x y z op rm ftz um => ?_, fun rule x y z op rm daz ftz um => ⟨fun ht hf hu => ?_, fun h => ?_⟩,
    fun s => ?_⟩
  · dsimp only
    rw [fma16_of_daz_false _ _ _ _ _ _ ⟨false, ftz, um⟩ rfl, fma16]
    simp only [flushDenormal_true]
    rfl
  · rw [fma16_ftz, hf, hu, LaneResult.flushTiny, if_pos (by simpa using hu ▸ ht), withSign_zero]
  · rw [fma16_ftz, LaneResult.flushTiny, if_neg]
    rcases h with h | rfl | rfl
    · simp [h]
    · simp
    · simp
  · have h14 : (s.mxcsr.extractLsb' 13 2).getLsbD 1 = s.mxcsr.getLsbD 14 := by simp
    have h13 : (s.mxcsr.extractLsb' 13 2).getLsbD 0 = s.mxcsr.getLsbD 13 := by simp
    have hrc := roundModeOf_iff (s.mxcsr.extractLsb' 13 2)
    rw [h14, h13] at hrc
    exact ⟨by simp [State.fpCtl, State.daz], by simp [State.fpCtl, State.ftz], rfl, hrc⟩

/-! ### Overflow and tininess -/

/-- FMA16 of finite operands at their value whose exact value is not 0: `Round` of R126, then FTZ. -/
theorem fma16_round_flush (rule : NanRule) (x y z : Half) (op : LaneOp) (rm : RoundMode) (ctl : FpCtl)
    (hdaz : ctl.daz = false) (hx : IsFinite x) (hy : IsFinite y) (hz : IsFinite z) (hv : exactValue x y z op ≠ 0) :
    fma16 rule x y z op rm ctl =
      ((roundMag (exactValue x y z op).natAbs (decide (exactValue x y z op < 0)) rm).withDe
        (denormalFlags x y z).de).flushTiny (ctl.ftz && ctl.um) := by
  obtain ⟨daz, ftz, um⟩ := ctl
  obtain rfl : daz = false := hdaz
  rw [fma16_ftz, fma16_round _ _ _ _ _ _ _ hx hy hz hv]

/-- Flushing to zero leaves OE alone. -/
theorem flushTiny_oe (r : LaneResult) (on : Bool) : (r.flushTiny on).flags.oe = r.flags.oe := by
  unfold LaneResult.flushTiny
  split <;> rfl

theorem overflows_ne_zero (v : Int) (rm : RoundMode) (h : Overflows v rm) : v ≠ 0 := by
  rintro rfl
  cases rm <;> simp [Overflows] at h

/-- Settles O56: the rounded number decides about overflow, and an overflow is not tiny, so FTZ does not act. -/
theorem overflowResults : Obligations.OverflowResults := by
  intro rule x y z op rm ctl hdaz hx hy hz
  by_cases hv : exactValue x y z op = 0
  · have hnot : ¬Overflows (exactValue x y z op) rm := fun h => overflows_ne_zero _ _ h hv
    rw [fma16_exactZero _ _ _ _ _ _ _ hdaz hx hy hz hv]
    exact ⟨⟨fun h => by simp at h, fun h => absurd h hnot⟩, fun h => absurd h hnot⟩
  · rw [fma16_round_flush _ _ _ _ _ _ _ hdaz hx hy hz hv]
    generalize exactValue x y z op = v at hv
    have ha : v.natAbs ≠ 0 := by omega
    refine ⟨by rw [flushTiny_oe, withDe_oe, roundMag_oe _ _ _ ha, decide_eq_true_eq, overflow_iff v rm hv], fun h => ?_⟩
    rw [roundMag_overflow _ _ _ ha ((overflow_iff v rm hv).2 h), flushTiny_not_tiny _ _ rfl]
    refine ⟨rfl, rfl, rfl, rfl, ?_⟩
    rw [withDe_value]
    cases rm <;> cases decide (v < 0) <;> rfl

/-- The examples of R128. -/
theorem tinyExamples (rule : NanRule) (um : Bool) :
    fma16 rule 0x3BFF 0x0400 0x0000 .add .rne ⟨false, false, um⟩ =
      ⟨0x0400, ⟨false, false, false, true, true⟩, true⟩ ∧
    fma16 rule 0x0401 0x3BFE 0x0000 .add .rne ⟨false, false, um⟩ =
      ⟨0x0400, ⟨false, false, false, false, true⟩, false⟩ := by
  rw [fma16_round _ _ _ _ _ _ _ (by decide) (by decide) (by decide) (by decide),
    fma16_round _ _ _ _ _ _ _ (by decide) (by decide) (by decide) (by decide)]
  decide

/-- Settles O57: a tiny result is a multiple of 2^-24 next to the exact value. -/
theorem tinyResults : Obligations.TinyResults := by
  refine ⟨fun rule x y z op rm um hx hy hz => ?_, tinyExamples⟩
  dsimp only
  by_cases hv : exactValue x y z op = 0
  · rw [fma16_exactZero _ _ _ _ _ _ _ rfl hx hy hz hv]
    simp [hv]
  · rw [fma16_round _ _ _ _ _ _ _ hx hy hz hv]
    generalize exactValue x y z op = v at hv
    have ha : v.natAbs ≠ 0 := by omega
    simp only [withDe_tiny, withDe_value, withDe_ue, withDe_pe, roundMag_tiny _ _ _ ha]
    refine ⟨by simp [tinyMag_iff, hv], fun ht => ?_, fun ht => ?_⟩
    · have hk := tiny_small _ _ _ ha ht
      have hpe := roundMag_pe_iff v rm hv hk
      have herror := (roundMag_error v rm hv hk).2
      rw [tiny_unit _ _ _ ha ht] at herror
      rw [roundMag_ue _ _ _ ha, roundMag_tiny _ _ _ ha, ht, Bool.true_and]
      exact ⟨roundMag_finite _ _ _ ha hk, hpe, hpe, herror⟩
    · rw [roundMag_ue _ _ _ ha, roundMag_tiny _ _ _ ha, ht, Bool.false_and]

/-! ### The rounded value -/

theorem fpValue_natAbs (h : Half) : (fpValue h).natAbs = magOf (number h) := by
  rw [fpValue_eq]
  split <;> omega

/-- The sign of a value is that of its pattern, zeros aside. -/
theorem fpValue_sign (h : Half) : (fpSign h = true → fpValue h ≤ 0) ∧ (fpSign h = false → 0 ≤ fpValue h) := by
  rw [fpValue_eq]
  constructor <;> intro hs <;> simp [hs]

/-- A pattern up to infinity is finite or infinity. -/
theorem finite_or_inf (h : Half) (hk : number h ≤ 31744) : IsFinite h ∨ h = withSign (fpSign h) 0x7C00 := by
  rw [finite_iff]
  refine (Nat.lt_or_eq_of_le hk).imp_right fun e => ?_
  conv_lhs => rw [← withSign_number h, e]
  rfl

/-- A mode that truncates gives the largest finite magnitude not above the exact one. -/
theorem truncated_best (v : Int) (rm : RoundMode) (hv : v ≠ 0) (ht : truncates rm (decide (v < 0))) :
    let r := (roundMag v.natAbs (decide (v < 0)) rm).value
    IsFinite r ∧ (fpValue r).natAbs * 2 ^ 24 ≤ v.natAbs ∧
      ∀ h, IsFinite h → (fpValue h).natAbs * 2 ^ 24 ≤ v.natAbs → (fpValue h).natAbs ≤ (fpValue r).natAbs := by
  obtain ⟨-, hlt, hbest⟩ := roundMag_truncates v.natAbs _ rm (by omega) ht
  simp only [fpValue_natAbs, finite_iff, magOf_le_iff]
  exact ⟨hlt, (hbest _ hlt).1 le_rfl, fun h hf hle => (hbest _ hf).2 hle⟩

/-- A mode that augments gives the least magnitude not below the exact one, infinity where no finite one is. -/
theorem augmented_best (v : Int) (rm : RoundMode) (hv : v ≠ 0) (ht : augments rm (decide (v < 0))) :
    let r := (roundMag v.natAbs (decide (v < 0)) rm).value
    (IsFinite r ∨ r = if v < 0 then 0xFC00 else 0x7C00) ∧ (IsFinite r → v.natAbs ≤ (fpValue r).natAbs * 2 ^ 24) ∧
      ∀ h, IsFinite h → v.natAbs ≤ (fpValue h).natAbs * 2 ^ 24 →
        IsFinite r ∧ (fpValue r).natAbs ≤ (fpValue h).natAbs := by
  obtain ⟨hsign, hle, hbest⟩ := roundMag_augments v.natAbs _ rm (by omega) ht
  have hinf := finite_or_inf _ hle
  simp only [hsign, withSign_inf, decide_eq_true_eq] at hinf
  refine ⟨hinf, ?_⟩
  simp only [fpValue_natAbs, finite_iff, magOf_le_iff]
  refine ⟨fun hlt => (hbest _ hlt).1 le_rfl, fun h hf hge => ?_⟩
  have := (hbest _ hf).2 hge
  exact ⟨by omega, this⟩

/-- The modes that truncate a magnitude agree on it. -/
theorem roundMag_rz (a : Nat) (neg : Bool) (rm : RoundMode) (h : truncates rm neg) :
    roundMag a neg .rz = roundMag a neg rm := by
  have hquot (n d : Nat) : roundQuot n d .rz neg = roundQuot n d rm neg := by
    rw [roundQuot_truncates _ _ _ _ h, roundQuot_truncates _ _ _ _ (.inl rfl)]
  have hover : overflowResult neg .rz = overflowResult neg rm := by
    rcases h with rfl | ⟨rfl, rfl⟩ | ⟨rfl, rfl⟩ <;> rfl
  simp only [roundMag, hquot, hover]

/-- Settles O58: down and up truncate one sign and augment the other; toward zero truncates both. -/
theorem directedRounding : Obligations.DirectedRounding := by
  intro rule x y z op um hx hy hz
  dsimp only
  intro hv
  simp only [fma16_round _ _ _ _ _ _ _ hx hy hz hv, withDe_value]
  generalize exactValue x y z op = v at hv
  have ha : v.natAbs ≠ 0 := by omega
  have hsign (rm : RoundMode) := roundMag_sign v.natAbs (decide (v < 0)) rm ha
  have hdown := fpValue_sign (roundMag v.natAbs (decide (v < 0)) .rd).value
  have hup := fpValue_sign (roundMag v.natAbs (decide (v < 0)) .ru).value
  rw [hsign] at hdown hup
  simp only [hsign, true_and]
  by_cases hneg : v < 0
  · rw [if_pos hneg]
    have hdec : decide (v < 0) = true := decide_eq_true hneg
    obtain ⟨dinf, dge, dbest⟩ := augmented_best v .rd hv (.inl ⟨rfl, hdec⟩)
    rw [if_pos hneg] at dinf
    obtain ⟨ufin, ule, ubest⟩ := truncated_best v .ru hv (.inr (.inr ⟨rfl, hdec⟩))
    have hd := hdown.1 hdec
    have hu := hup.1 hdec
    refine ⟨⟨dinf, fun hf => ?_, fun h hf hle => ?_⟩, ⟨.inl ufin, fun _ => ?_, fun h hf hge => ⟨ufin, ?_⟩⟩, ?_⟩
    · have := dge hf
      omega
    · obtain ⟨hfin, hmag⟩ := dbest h hf (by omega)
      exact ⟨hfin, by omega⟩
    · omega
    · have := ubest h hf
      omega
    · rw [roundMag_rz _ _ .ru (.inr (.inr ⟨rfl, hdec⟩))]
  · rw [if_neg hneg]
    have hdec : decide (v < 0) = false := decide_eq_false hneg
    obtain ⟨dfin, dle, dbest⟩ := truncated_best v .rd hv (.inr (.inl ⟨rfl, hdec⟩))
    obtain ⟨uinf, uge, ubest⟩ := augmented_best v .ru hv (.inr ⟨rfl, hdec⟩)
    rw [if_neg hneg] at uinf
    have hd := hdown.2 hdec
    have hu := hup.2 hdec
    refine ⟨⟨.inl dfin, fun _ => ?_, fun h hf hle => ⟨dfin, ?_⟩⟩, ⟨uinf, fun hf => ?_, fun h hf hge => ?_⟩, ?_⟩
    · omega
    · have := dbest h hf
      omega
    · have := uge hf
      omega
    · obtain ⟨hfin, hmag⟩ := ubest h hf (by omega)
      exact ⟨hfin, by omega⟩
    · rw [roundMag_rz _ _ .rd (.inr (.inl ⟨rfl, hdec⟩))]

theorem getLsbD_zero_iff (h : Half) : h.getLsbD 0 = false ↔ number h % 2 = 0 := by
  rw [number, BitVec.getLsbD, Nat.testBit_zero]
  simp

/-- Nearest in signed values: a pattern of the other sign is no nearer than zero. -/
theorem nearest_value (v : Int) (hv : v ≠ 0) (hk : roundNumber v.natAbs .rne (decide (v < 0)) < 31744) (h : Half) :
    let r := (roundMag v.natAbs (decide (v < 0)) .rne).value
    (fpValue r * 2 ^ 24 - v).natAbs ≤ (fpValue h * 2 ^ 24 - v).natAbs ∧
      (fpValue h ≠ fpValue r → (fpValue r * 2 ^ 24 - v).natAbs = (fpValue h * 2 ^ 24 - v).natAbs →
        r.getLsbD 0 = false) := by
  have ha : v.natAbs ≠ 0 := by omega
  obtain ⟨hsign, hnumber⟩ := roundMag_small v.natAbs (decide (v < 0)) .rne ha hk
  have hr := fpValue_sign (roundMag v.natAbs (decide (v < 0)) .rne).value
  have hmag := fpValue_natAbs (roundMag v.natAbs (decide (v < 0)) .rne).value
  have hmagh := fpValue_natAbs h
  have hzero : magOf 0 = 0 := rfl
  obtain ⟨hbest, htie⟩ := nearest_spec v.natAbs (number h) (decide (v < 0)) ha
  obtain ⟨hbest0, -⟩ := nearest_spec v.natAbs 0 (decide (v < 0)) ha
  dsimp only
  rw [getLsbD_zero_iff, hnumber]
  rw [hnumber] at hmag
  rw [hsign] at hr
  rw [← hmag, ← hmagh] at hbest htie
  rw [← hmag, hzero] at hbest0
  generalize roundNumber v.natAbs .rne (decide (v < 0)) = k at *
  by_cases hneg : v < 0
  · have := hr.1 (by simp [hneg])
    constructor <;> omega
  · have := hr.2 (by simp [hneg])
    constructor <;> omega

/-- Settles O59: the boundary is that of overflow, and below it the number taken is that of `nearest_spec`. -/
theorem nearestRounding : Obligations.NearestRounding := by
  intro rule x y z op um hx hy hz
  dsimp only
  intro hv
  rw [fma16_round _ _ _ _ _ _ _ hx hy hz hv, withDe_value]
  generalize exactValue x y z op = v at hv
  have ha : v.natAbs ≠ 0 := by omega
  have hover : 31744 ≤ roundNumber v.natAbs .rne (decide (v < 0)) ↔ 65520 * 2 ^ 48 ≤ v.natAbs := overflow_iff v .rne hv
  refine ⟨roundMag_sign _ _ _ ha, fun h => ?_, fun h => ?_⟩
  · rw [roundMag_overflow _ _ _ ha (hover.2 h)]
    exact (withSign_inf _).trans (by simp)
  · have hk : roundNumber v.natAbs .rne (decide (v < 0)) < 31744 := by omega
    exact ⟨roundMag_finite _ _ _ ha hk, fun w _ => nearest_value v hv hk w⟩

/-- The largest finite magnitude is exceeded by whatever overflows. -/
theorem lt_of_overflows (v : Int) (rm : RoundMode) (h : Overflows v rm) : 65504 * 2 ^ 48 < v.natAbs := by
  cases rm
  · exact lt_of_lt_of_le (by decide) h
  · unfold Overflows at h
    dsimp only at h
    split at h <;> omega
  · unfold Overflows at h
    dsimp only at h
    split at h <;> omega
  · exact lt_of_lt_of_le (by decide) h

/-- A finite magnitude is at most 65504. -/
theorem finite_le_max (h : Half) (hf : IsFinite h) : (fpValue h).natAbs ≤ 65504 * 2 ^ 24 := by
  have hmax : magOf 31743 = 65504 * 2 ^ 24 := by decide
  rw [fpValue_natAbs, ← hmax, magOf_le_iff]
  have := (finite_iff h).1 hf
  omega

/-- Settles O60: an overflow is beyond every finite pattern; otherwise the remainder decides. -/
theorem precisionFlag : Obligations.PrecisionFlag := by
  intro rule x y z op rm um hx hy hz
  dsimp only
  by_cases hv : exactValue x y z op = 0
  · rw [fma16_exactZero _ _ _ _ _ _ _ rfl hx hy hz hv, hv]
    refine iff_of_false Bool.false_ne_true (not_not_intro ?_)
    dsimp only
    cases zeroSign (fpSign x != fpSign y) (addendSign z op) rm <;> decide
  · rw [fma16_round _ _ _ _ _ _ _ hx hy hz hv, withDe_pe, withDe_value]
    generalize exactValue x y z op = v at hv
    have ha : v.natAbs ≠ 0 := by omega
    by_cases hk : roundNumber v.natAbs rm (decide (v < 0)) < 31744
    · rw [roundMag_pe_iff v rm hv hk, and_iff_right (roundMag_finite _ _ _ ha hk)]
    · have hbig := lt_of_overflows v rm ((overflow_iff v rm hv).1 (by omega))
      have hpe : (roundMag v.natAbs (decide (v < 0)) rm).flags.pe = true := by
        rw [roundMag_overflow _ _ _ ha (by omega)]
      refine iff_of_true hpe fun ⟨hfin, heq⟩ => ?_
      have := finite_le_max _ hfin
      omega

/-! ### The fused witness -/

/-- Settles O47: the exact values are written out, and each is rounded once. -/
theorem fusedWitness : Obligations.FusedWitness := by
  refine ⟨fun rule rm um => ?_, fun rule um => ?_⟩
  · rw [fma16_round _ _ _ _ _ _ _ (by decide) (by decide) (by decide) (by decide)]
    cases rm <;> decide
  · rw [fma16_round _ _ _ _ _ _ _ (by decide) (by decide) (by decide) (by decide),
      fma16_exactZero _ _ _ _ _ _ _ rfl (by decide) (by decide) (by decide) (by decide)]
    decide

end Sys2Proof.Machine
end

section
/-! SUPPORT. Proofs about the instructions (41_vfmsubadd_ph.md): each form completes with the lanes of its mnemonic, what
a completed instruction wrote and what it left alone, and the order of the factors. -/

namespace Sys2Proof.Machine

/-! ### The forms of a mnemonic -/

section Forms
variable (f : Fma) (leg : Legacy) (m : Writemask) (dest src2 src3 : VReg) (s : State)

/-- The lanes of a form in state `s`, by its rounding mode and third operand. -/
abbrev lanesOf (rm : RoundMode) (t3 : Nat → Half) : Nat → LaneResult :=
  laneResult f s.cfg.nanRule rm s.fpCtl (s.readZmm dest) (s.readZmm src2) t3

/-- A ready register form that detects nothing unmasked completes. -/
theorem executeReg_completes (vl : VecLen) (hready : Ready s vl (regLength leg))
    (hmasked : NoUnmasked s (lanes vl) (s.active m) (lanesOf f dest src2 s s.rc (lane (s.readZmm src3)))) :
    Completes (executeReg f vl leg m dest src2 src3 s) s vl m dest (lanesOf f dest src2 s s.rc (lane (s.readZmm src3)))
      (regLength leg) :=
  execute_completes s f vl _ m dest src2 _ hready hmasked

/-- A ready form with embedded rounding completes, whatever its lanes detect. -/
theorem executeEr_completesQuietly (rc : RoundMode) (hready : Ready s .v512 (regLength leg)) :
    CompletesQuietly (executeEr f leg m dest src2 src3 rc s) s .v512 m dest
      (lanesOf f dest src2 s rc (lane (s.readZmm src3))) (regLength leg) :=
  execute_completesQuietly s f .v512 _ m dest src2 _ rc hready

/-- A readable memory operand gives each lane its element, or the one element broadcast (R163). -/
theorem readMem_readable (ilen : Nat) (vl : VecLen) (op : MemOp)
    (hreadable : OperandReadable s (s.linearAddress leg ilen vl op).toNat (operandSize vl op.bcast)) :
    s.readMem leg ilen m vl op =
      .ok fun j => s.operandElement (s.linearAddress leg ilen vl op).toNat (if op.bcast then 0 else j) := by
  rw [State.readMem, accessStop_readable s leg op (s.span leg ilen m vl op) hreadable]
  rfl

/-- A ready memory form whose operand can be read and that detects nothing unmasked completes. -/
theorem executeMem_completes (op : MemOp) (vl : VecLen) (first : Nat) (r : Nat → LaneResult)
    (hfirst : first = (s.linearAddress leg (memLength leg op) vl op).toNat)
    (hr : r = lanesOf f dest src2 s s.rc fun j => s.operandElement first (if op.bcast then 0 else j))
    (hready : Ready s vl (memLength leg op)) (hreadable : OperandReadable s first (operandSize vl op.bcast))
    (hmasked : NoUnmasked s (lanes vl) (s.active m) r) :
    Completes (executeMem f vl leg m dest src2 op s) s vl m dest r (memLength leg op) := by
  subst hfirst hr
  rw [executeMem, readMem_readable leg m s _ vl op hreadable]
  exact execute_completes s f vl _ m dest src2 _ hready hmasked

end Forms

/-- Settles O26: the register forms at the roles of 132. -/
theorem vfmsubadd132RegisterResults : Obligations.Vfmsubadd132RegisterResults := by
  intro leg m dest src2 src3 s r hr
  rw [← laneResult_132] at hr
  subst hr
  have hform := executeReg_completes .f132 leg m dest src2 src3 s
  exact ⟨hform .v128, hform .v256, hform .v512⟩

/-- Settles O27: the register forms at the roles of 213. -/
theorem vfmsubadd213RegisterResults : Obligations.Vfmsubadd213RegisterResults := by
  intro leg m dest src2 src3 s r hr
  rw [← laneResult_213] at hr
  subst hr
  have hform := executeReg_completes .f213 leg m dest src2 src3 s
  exact ⟨hform .v128, hform .v256, hform .v512⟩

/-- Settles O28: the register forms at the roles of 231. -/
theorem vfmsubadd231RegisterResults : Obligations.Vfmsubadd231RegisterResults := by
  intro leg m dest src2 src3 s r hr
  rw [← laneResult_231] at hr
  subst hr
  have hform := executeReg_completes .f231 leg m dest src2 src3 s
  exact ⟨hform .v128, hform .v256, hform .v512⟩

/-- Settles O29: the embedded-rounding form at the roles of each mnemonic. -/
theorem embeddedRoundingResults : Obligations.EmbeddedRoundingResults := by
  intro leg m dest src2 src3 rc s hready
  rw [← laneResult_132, ← laneResult_213, ← laneResult_231]
  exact ⟨executeEr_completesQuietly .f132 leg m dest src2 src3 s rc hready,
    executeEr_completesQuietly .f213 leg m dest src2 src3 s rc hready,
    executeEr_completesQuietly .f231 leg m dest src2 src3 s rc hready⟩

/-- Settles O30: the memory form at the roles of 132, the vector length as given. -/
theorem vfmsubadd132MemoryResults : Obligations.Vfmsubadd132MemoryResults := by
  intro leg m dest src2 op s vl first r hfirst hr hready hreadable hmasked
  rw [← laneResult_132] at hr
  have hcompletes := executeMem_completes .f132 leg m dest src2 s op vl first r hfirst hr hready hreadable hmasked
  exact ⟨by rintro rfl; exact hcompletes, by rintro rfl; exact hcompletes, by rintro rfl; exact hcompletes⟩

/-- Settles O31: the memory form at the roles of 213, the vector length as given. -/
theorem vfmsubadd213MemoryResults : Obligations.Vfmsubadd213MemoryResults := by
  intro leg m dest src2 op s vl first r hfirst hr hready hreadable hmasked
  rw [← laneResult_213] at hr
  have hcompletes := executeMem_completes .f213 leg m dest src2 s op vl first r hfirst hr hready hreadable hmasked
  exact ⟨by rintro rfl; exact hcompletes, by rintro rfl; exact hcompletes, by rintro rfl; exact hcompletes⟩

/-- Settles O32: the memory form at the roles of 231, the vector length as given. -/
theorem vfmsubadd231MemoryResults : Obligations.Vfmsubadd231MemoryResults := by
  intro leg m dest src2 op s vl first r hfirst hr hready hreadable hmasked
  rw [← laneResult_231] at hr
  have hcompletes := executeMem_completes .f231 leg m dest src2 s op vl first r hfirst hr hready hreadable hmasked
  exact ⟨by rintro rfl; exact hcompletes, by rintro rfl; exact hcompletes, by rintro rfl; exact hcompletes⟩

/-! ### What a completed instruction wrote -/

/-- The destination of a completed instruction holds the result vector of its lanes. -/
theorem exec_next_dest (i : Instr) (s t : State) (h : exec i s = .next t) :
    t.readZmm i.parts.dest = resultVec (lanes i.parts.form.vecLen) (s.active i.parts.mask) i.parts.mask
      (s.readZmm i.parts.dest) (laneResults i s) := by
  obtain ⟨-, -, -, rfl⟩ := exec_next_full i s t h
  exact complete_readZmm_self ..

/-- Settles O38: the destination holds the result vector. -/
theorem completedLanes : Obligations.CompletedLanes := by
  intro i s t h
  rw [exec_next_dest i s t h]
  exact lanesWritten_resultVec ..

/-- Settles O36: the flags OR-ed in are the union over the active lanes, or none under embedded rounding. -/
theorem flagsWritten : Obligations.FlagsWritten := by
  intro i s t h
  obtain ⟨-, -, -, rfl⟩ := exec_next_full i s t h
  refine ⟨fun hembedded => ?_, fun hembedded => ?_⟩
  · rw [complete_mxcsr, if_pos hembedded]
    exact flagsOred_union ..
  · rw [complete_mxcsr, if_neg hembedded]
    exact BitVec.or_zero

/-- A bit of a vector is the bit of its lane. -/
theorem getLsbD_lane (v : Vec) (b : Nat) : (lane v (b / 16)).getLsbD (b % 16) = v.getLsbD b := by
  rw [lane, BitVec.getLsbD_extractLsb', Nat.div_add_mod, decide_eq_true (Nat.mod_lt b (by decide)), Bool.true_and]

/-- The result vector is zero above its lanes. -/
theorem resultVec_upper (kl : Nat) (act : Nat → Bool) (m : Writemask) (old : Vec) (r : Nat → LaneResult) (b : Nat)
    (hk : kl ≤ 32) (hb : 16 * kl ≤ b) : (resultVec kl act m old r).getLsbD b = false := by
  rw [resultVec, getLsbD_packLanes _ _ _ hk, decide_eq_false (Nat.not_lt.2 hb), Bool.false_and]

/-- A bit of an inactive lane of the result vector is, under merging, the old one. -/
theorem resultVec_merged (kl : Nat) (act : Nat → Bool) (k : KReg) (old : Vec) (r : Nat → LaneResult) (b : Nat)
    (hk : kl ≤ 32) (hb : b < 16 * kl) (hact : act (b / 16) = false) :
    (resultVec kl act (.merging k) old r).getLsbD b = old.getLsbD b := by
  rw [resultVec, getLsbD_packLanes _ _ _ hk, decide_eq_true hb, Bool.true_and, hact]
  exact getLsbD_lane old b

/-- Settles O37: the result vector above its lanes and, bit by bit, where no lane is active. -/
theorem upperBitsZeroed : Obligations.UpperBitsZeroed := by
  intro i s t h
  rw [exec_next_dest i s t h]
  refine ⟨fun b hb => resultVec_upper _ _ _ _ _ b (lanes_le _) hb, fun hinactive ⟨k, hmask⟩ b hb => ?_⟩
  have hlane := hinactive (b / 16) (by omega)
  rw [hmask] at hlane ⊢
  exact resultVec_merged _ _ k _ _ b (lanes_le _) hb hlane

/-! ### What it left unchanged -/

/-- Vector registers other than the destination read as before. -/
theorem complete_readZmm_other (s : State) (dest r : VReg) (v : Vec) (flags : BitVec 6) (ilen : Nat) (h : r ≠ dest) :
    (s.complete dest v flags ilen).readZmm r = s.readZmm r :=
  after_readZmm_other s dest r v _ ilen h

/-- The bits of MXCSR that are no flag of the family: ZE and everything from bit 6 on. -/
theorem exec_next_mxcsr_kept (i : Instr) (s t : State) (h : exec i s = .next t) (b : Nat) (hb : b = 2 ∨ 6 ≤ b) :
    t.mxcsr.getLsbD b = s.mxcsr.getLsbD b := by
  obtain ⟨hflags, hquiet⟩ := flagsWritten i s t h
  by_cases hembedded : i.parts.form.embedded = none
  · obtain ⟨-, -, -, -, -, hkept⟩ := hflags hembedded
    exact hkept b hb
  · rw [hquiet hembedded]

/-- Settles O33: a next state is `complete` of the old one, which sets no field but the destination, MXCSR, RIP and the
draw counter. -/
theorem nextFrame : Obligations.NextFrame := by
  intro i s t h
  have hkept := exec_next_mxcsr_kept i s t h
  obtain ⟨v, g, rfl, -⟩ := exec_next i s t h
  refine ⟨fun r hr => complete_readZmm_other s _ r v g _ hr, fun _ => rfl, fun _ => rfl, rfl, rfl, hkept,
    fun b hb => ?_, rfl, rfl, rfl, rfl, rfl, rfl, rfl, rfl, rfl, rfl, rfl, rfl, rfl, rfl, rfl, rfl, fun _ => rfl⟩
  rw [complete_mxcsr, BitVec.getLsbD_or, hb, Bool.true_or]

/-! ### The order of the factors -/

theorem exactValue_comm (x y z : Half) (op : LaneOp) : exactValue x y z op = exactValue y x z op := by
  cases op
  · rw [exactValue, exactValue, mul_comm]
  · rw [exactValue, exactValue, mul_comm]

theorem productSign_comm (x y : Half) : (fpSign x != fpSign y) = (fpSign y != fpSign x) := Bool.xor_comm _ _

theorem denormalFlags_comm (x y z : Half) : denormalFlags x y z = denormalFlags y x z := by
  rw [denormalFlags, denormalFlags, Bool.or_comm (isDenormal x)]

theorem finiteResult_comm (x y z : Half) (op : LaneOp) (rm : RoundMode) (ctl : FpCtl) :
    finiteResult x y z op rm ctl = finiteResult y x z op rm ctl := by
  rw [finiteResult, finiteResult, exactValue_comm, productSign_comm]

/-- Only `NaNResult` tells the factors apart: steps 2 to 5 do not. -/
theorem fmaCases_comm (rule : NanRule) (x y z : Half) (op : LaneOp) (rm : RoundMode) (ctl : FpCtl)
    (hx : isNan x = false) (hy : isNan y = false) (hz : isNan z = false) :
    fmaCases rule x y z op rm ctl = fmaCases rule y x z op rm ctl := by
  have hinvalid : (isInf x && isZero y || isZero x && isInf y) = (isInf y && isZero x || isZero y && isInf x) := by
    rw [Bool.or_comm, Bool.and_comm (isZero x), Bool.and_comm (isInf x)]
  simp only [fmaCases, hx, hy, hz, Bool.or_self, Bool.false_eq_true, if_false]
  rw [hinvalid, Bool.or_comm (isInf x), productSign_comm, denormalFlags_comm, finiteResult_comm]

/-- Settles O54: flushing keeps NaN-ness, and without a NaN the factors commute. -/
theorem multiplicationCommutes : Obligations.MultiplicationCommutes := by
  intro rule x y z op rm ctl hx hy hz
  have hnan (w : Half) (hw : isNan w = false) : isNan (flushDenormal ctl.daz w) = false := by
    rw [(flushDenormal_class ctl.daz w).1, hw]
  exact fmaCases_comm rule _ _ _ op rm ctl (hnan x hx) (hnan y hy) (hnan z hz)

end Sys2Proof.Machine
end

section
/-! SUPPORT. Proofs about exceptions (60_exceptions.md): what a faulting step leaves, #UD and #NM before the operands, the
faults of a memory operand, and the trap of an unmasked condition. -/

namespace Sys2Proof.Machine

/-! ### What a faulting step leaves (R211) -/

/-- The exception of an unmasked condition is told by CR4.OSXMMEXCPT (R206, R207). -/
theorem fpException_cases (s : State) :
    (s.fpException = .xm ∧ s.cr4.getLsbD 10 = true) ∨ (s.fpException = .ud ∧ s.cr4.getLsbD 10 = false) := by
  unfold State.fpException State.osxmmexcpt
  cases s.cr4.getLsbD 10 with
  | true => exact .inl ⟨rfl, rfl⟩
  | false => exact .inr ⟨rfl, rfl⟩

/-- An exception that records no flag leaves MXCSR as it was. -/
theorem faulted_zero_mxcsr (s : State) (e : Exn) : (s.faulted e 0).mxcsr = s.mxcsr := BitVec.or_zero

/-- Recording flags without ZE changes neither ZE nor what lies above the flags. -/
theorem faulted_mxcsr_kept (s : State) (e : Exn) (g : BitVec 6) (hg : g.getLsbD 2 = false) (b : Nat)
    (hb : b = 2 ∨ 6 ≤ b) : (s.faulted e g).mxcsr.getLsbD b = s.mxcsr.getLsbD b := by
  have hgb : g.getLsbD b = false := by
    rcases hb with rfl | hb
    · exact hg
    · exact BitVec.getLsbD_of_ge g b hb
  rw [faulted_mxcsr, BitVec.getLsbD_or, BitVec.getLsbD_setWidth, hgb, Bool.and_false, Bool.or_false]

/-- Recording flags clears no bit of MXCSR. -/
theorem faulted_mxcsr_mono (s : State) (e : Exn) (g : BitVec 6) (b : Nat) (hb : s.mxcsr.getLsbD b = true) :
    (s.faulted e g).mxcsr.getLsbD b = true := by
  rw [faulted_mxcsr, BitVec.getLsbD_or, hb, Bool.true_or]

/-- Taking an exception keeps the invariant: memory and RIP are untouched, and flags lie below the reserved bits. -/
theorem inv_faulted (s : State) (e : Exn) (g : BitVec 6) (h : Inv s) : Inv (s.faulted e g) := by
  obtain ⟨hmem, hmx, hrip⟩ := h
  refine ⟨hmem, ?_, hrip⟩
  rw [faulted_mxcsr, mxcsr_upper_or_flags, hmx]

/-- Settles O15: a fault is an exception taken in the state the step began in. -/
theorem faultKeepsInvariant : Obligations.FaultKeepsInvariant := by
  intro s f hinv hstep
  obtain ⟨e, g, rfl, -⟩ := step_fault s f hstep
  rw [fault_left]
  exact inv_faulted s e g hinv

/-- Settles O34: the state left is `faulted` of the old one, which sets no field but MXCSR, CR2 and the draw counter, and
records flags only for the exception of an unmasked condition. -/
theorem faultFrame : Obligations.FaultFrame := by
  intro s f hstep
  obtain ⟨e, g, hf, hze, hrecords⟩ := step_fault s f hstep
  have hexn : f.exn = e := by rw [hf, fault_exn]
  have hleft : f.left = s.faulted e g := by rw [hf, fault_left]
  have hquiet : e ≠ s.fpException → g = 0 := fun he => by_contra fun hg => he (hrecords (.inl hg))
  rw [hleft]
  refine ⟨fun _ => rfl, fun _ => rfl, fun _ => rfl, rfl, rfl, rfl, rfl, rfl, rfl, rfl, rfl, rfl, rfl, rfl, rfl, rfl, rfl,
    rfl, rfl, rfl, fun _ => rfl, faulted_mxcsr_kept s e g hze, faulted_mxcsr_mono s e g, fun hpf => ?_,
    fun hxm hud => ?_, fun hxm => ?_, fun hud hmx => ?_, by cases f <;> rfl⟩
  · rw [hexn] at hpf
    exact cr2_of_ne_pf s.cr2 e hpf
  · rw [hexn] at hxm hud
    have hother : e ≠ s.fpException := by
      rcases fpException_cases s with ⟨hfp, -⟩ | ⟨hfp, -⟩
      · rwa [hfp]
      · rwa [hfp]
    rw [hquiet hother, faulted_zero_mxcsr]
  · rw [hexn] at hxm
    rcases fpException_cases s with ⟨-, hbit⟩ | ⟨hfp, -⟩
    · exact hbit
    · rw [← hrecords (.inr hxm), hxm] at hfp
      cases hfp
  · rw [hexn] at hud
    rcases fpException_cases s with ⟨hfp, -⟩ | ⟨-, hbit⟩
    · have hother : e ≠ s.fpException := by rw [hud, hfp]; decide
      rw [hquiet hother, faulted_zero_mxcsr] at hmx
      exact absurd rfl hmx
    · exact hbit

/-! ### Before the operands (R201, R202) -/

/-- What stops an admitted instruction with a canonical successor: #UD, then #NM (R210). -/
theorem entryStop_admitted (s : State) (vl : VecLen) (ilen : Nat) (h : Admitted s) (hn : NextCanonical s ilen) :
    s.entryStop vl ilen =
      if s.enabled vl then (if s.ts then some (.exception .nm) else none) else some (.exception .ud) := by
  rw [State.entryStop, (launchRefusal_none s).2 h]
  cases s.enabled vl <;> simp [hn]

/-- What stops an instruction at entry stops it, whatever its operands. -/
theorem exec_entryStop (i : Instr) (s : State) (stop : Stop)
    (h : s.entryStop i.parts.form.vecLen i.length = some stop) : exec i s = stop.outcome s := by
  rw [exec_eq_execute]
  simp only [State.execute, h]

/-- Causes 5 and 6 of R201: any one of them disables the instruction. -/
theorem enabled_eq_false (s : State) (vl : VecLen)
    (h : s.cfg.avx512fp16 = false ∨ (vl ≠ .v512 ∧ s.cfg.avx512vl = false) ∨
      s.cr4.getLsbD 18 = false ∨ s.xcr0.extractLsb' 1 2 ≠ 3 ∨ s.xcr0.extractLsb' 5 3 ≠ 7) : s.enabled vl = false := by
  unfold State.enabled hasFeatures State.osxsave
  rcases h with h | ⟨hvl, h⟩ | h | h | h
  · simp only [h, Bool.false_and]
  · simp only [h, beq_false_of_ne hvl, Bool.or_self, Bool.and_false, Bool.false_and]
  · simp only [h, Bool.and_false, Bool.false_and]
  · simp only [beq_false_of_ne h, Bool.and_false, Bool.false_and]
  · simp only [beq_false_of_ne h, Bool.and_false]

/-- Settles O18: an instruction that is not enabled stops at entry with #UD. -/
theorem disabledStateRaisesUd : Obligations.DisabledStateRaisesUd := by
  intro i s hadmitted hnext hcause
  have hentry : s.entryStop i.parts.form.vecLen i.length = some (.exception .ud) := by
    rw [entryStop_admitted s _ _ hadmitted hnext, enabled_eq_false s _ hcause]
    rfl
  rw [exec_entryStop i s _ hentry, stop_ud]

/-- Settles O19: an enabled instruction with CR0.TS set stops at entry with #NM. -/
theorem taskSwitchedRaisesNm : Obligations.TaskSwitchedRaisesNm := by
  intro i s hadmitted hnext henabled hts
  have hentry : s.entryStop i.parts.form.vecLen i.length = some (.exception .nm) := by
    rw [entryStop_admitted s _ _ hadmitted hnext, if_pos ((enabled_iff s _).2 henabled)]
    exact if_pos hts
  rw [exec_entryStop i s _ hentry, stop_nm]

/-! ### At the memory operand (R203 to R205) -/

/-- Settles O20: the access first looks for a needed byte at a non-canonical address. -/
theorem nonCanonicalOperandsFault : Obligations.NonCanonicalOperandsFault := by
  intro i s vl op n hf hr hn hneed hc
  have hstop := accessStop_bad s i.parts.leg op (s.span i.parts.leg i.length i.parts.mask vl op) n hn hneed hc
  rw [exec_accessStop i s vl op _ hf hr hstop, stop_address]
  exact ⟨fun hstack => by rw [if_pos hstack], fun hstack => by rw [if_neg hstack]⟩

/-- Settles O21: a canonical operand off devices stops at a needed byte that page-faults; and a step that raises #PF has
run an instruction whose operand's access stopped so. -/
theorem pageFaults : Obligations.PageFaults := by
  refine ⟨fun i s vl op first hf hr hfirst hbytes ⟨n, code, hn, hneed, ht⟩ => ?_, fun s code a t hstep => ?_⟩
  · subst hfirst
    obtain ⟨m, c, hm, hmneed, hmt, hstop⟩ := accessStop_fault s i.parts.leg op
      (s.span i.parts.leg i.length i.parts.mask vl op) n code hbytes hn hneed ht
    refine ⟨m, c, hm, hmneed, hmt, ?_⟩
    rw [exec_accessStop i s vl op _ hf hr hstop, stop_pf]
    rfl
  · rcases step_faults s _ hstep with ⟨i, hi, hexec⟩ | ⟨-, hud⟩
    · obtain ⟨vl, op, n, hf, hn, hc, ht, ha⟩ := exec_pf i s code a t hexec
      refine ⟨i, vl, op, n, hi, hf, hn, hc, ht, ?_⟩
      rw [ha, BitVec.ofNat_add, BitVec.ofNat_toNat, BitVec.setWidth_eq]
    · cases hud

/-! ### Unmasked conditions (41_vfmsubadd_ph.md R171) -/

/-- The flags an instruction detects in its active lanes. -/
abbrev detected (i : Instr) (s : State) : FpFlags :=
  detectedFlags s (lanes i.parts.form.vecLen) (s.active i.parts.mask) (laneResults i s)

/-- A condition is detected exactly where its flag is among the detected ones. -/
theorem detects_iff (i : Instr) (s : State) (b : Nat) : Detects i s b ↔ (detected i s).bits.getLsbD b = true := by
  rw [getLsbD_bits]
  simp only [detectedFlags, unionFlags, Bool.or_eq_true, Bool.and_eq_true, beq_iff_eq, someLane_iff, Detects, State.um,
    Bool.not_eq_true']
  constructor
  · rintro ⟨j, hj, ha, ⟨rfl, h⟩ | ⟨rfl, h⟩ | ⟨rfl, h⟩ | ⟨rfl, h⟩ | ⟨rfl, h | ⟨h, hum⟩⟩⟩ <;> grind
  · rintro ((((⟨rfl, h⟩ | ⟨rfl, h⟩) | ⟨rfl, h⟩) | ⟨rfl, h | ⟨hum, h⟩⟩) | ⟨rfl, h⟩) <;> grind

/-- A set flag is a set bit. -/
theorem FpFlags.any_iff (f : FpFlags) : f.any = true ↔ ∃ b, f.bits.getLsbD b = true := by
  simp only [FpFlags.any, getLsbD_bits, Bool.or_eq_true, Bool.and_eq_true, beq_iff_eq]
  constructor
  · rintro ((((h | h) | h) | h) | h)
    · exact ⟨0, by simp [h]⟩
    · exact ⟨1, by simp [h]⟩
    · exact ⟨3, by simp [h]⟩
    · exact ⟨4, by simp [h]⟩
    · exact ⟨5, by simp [h]⟩
  · rintro ⟨b, (((⟨-, h⟩ | ⟨-, h⟩) | ⟨-, h⟩) | ⟨-, h⟩) | ⟨-, h⟩⟩ <;> simp [h]

/-- The pre-computation conditions are bits 0 and 1; a bit's mask is seven places above it. -/
theorem getLsbD_unmaskedPre (s : State) (f : FpFlags) (b : Nat) :
    (unmaskedPre s f).bits.getLsbD b = (decide (b < 2) && (f.bits.getLsbD b && !s.mxcsr.getLsbD (b + 7))) := by
  rw [getLsbD_bits, getLsbD_bits]
  by_cases hb : b < 2
  · interval_cases b <;> simp [unmaskedPre, State.im, State.dm, Bool.and_comm]
  · simp [unmaskedPre, hb, show b ≠ 0 by omega, show b ≠ 1 by omega]

/-- The post-computation conditions are the bits above. -/
theorem getLsbD_unmaskedPost (s : State) (f : FpFlags) (b : Nat) :
    (unmaskedPost s f).bits.getLsbD b = (decide (2 ≤ b) && (f.bits.getLsbD b && !s.mxcsr.getLsbD (b + 7))) := by
  by_cases hb : b < 6
  · rw [getLsbD_bits, getLsbD_bits]
    interval_cases b <;> simp [unmaskedPost, State.om, State.um, State.pm, Bool.and_comm]
  · rw [BitVec.getLsbD_of_ge _ _ (by omega), BitVec.getLsbD_of_ge f.bits _ (by omega), Bool.false_and, Bool.and_false]

/-- An unmasked pre-computation condition traps. -/
theorem trapping_pre (s : State) (f : FpFlags) (b : Nat) (hb : b < 2) (hf : f.bits.getLsbD b = true)
    (hu : Unmasked s b) : (trapping s f).bits.getLsbD b = true := by
  have hpre : (unmaskedPre s f).bits.getLsbD b = true := by
    rw [getLsbD_unmaskedPre, decide_eq_true hb, hf, hu]
    rfl
  rw [trapping, if_pos ((FpFlags.any_iff _).2 ⟨b, hpre⟩), hpre]

/-- Where no pre-computation condition is unmasked, an unmasked one of the others traps. -/
theorem trapping_post (s : State) (f : FpFlags) (b : Nat)
    (hpre : ∀ c < 2, ¬(f.bits.getLsbD c = true ∧ Unmasked s c)) (hf : f.bits.getLsbD b = true) (hu : Unmasked s b) :
    (trapping s f).bits.getLsbD b = true := by
  have hquiet : ¬(unmaskedPre s f).any = true := fun hany => by
    obtain ⟨c, hc⟩ := (FpFlags.any_iff _).1 hany
    simp only [getLsbD_unmaskedPre, Bool.and_eq_true, decide_eq_true_eq, Bool.not_eq_true'] at hc
    obtain ⟨hlt, hcond⟩ := hc
    exact hpre c hlt hcond
  have hb : 2 ≤ b := Nat.not_lt.1 fun hb => hpre b hb ⟨hf, hu⟩
  rw [trapping, if_neg hquiet, getLsbD_unmaskedPost, decide_eq_true hb, hf, hu]
  rfl

/-- Only detected conditions trap. -/
theorem trapping_detected (s : State) (f : FpFlags) (b : Nat) (h : (trapping s f).bits.getLsbD b = true) :
    f.bits.getLsbD b = true := by
  unfold trapping at h
  split at h
  · rw [getLsbD_unmaskedPre, Bool.and_eq_true, Bool.and_eq_true] at h
    obtain ⟨-, hf, -⟩ := h
    exact hf
  · rw [getLsbD_unmaskedPost, Bool.and_eq_true, Bool.and_eq_true] at h
    obtain ⟨-, hf, -⟩ := h
    exact hf

/-- An unmasked detected condition makes the instruction trap. -/
theorem trapping_any_of_unmasked (s : State) (f : FpFlags) (b : Nat) (hf : f.bits.getLsbD b = true)
    (hu : Unmasked s b) : (trapping s f).any = true := by
  by_cases hpre : ∃ c < 2, f.bits.getLsbD c = true ∧ Unmasked s c
  · obtain ⟨c, hc, hfc, huc⟩ := hpre
    exact (FpFlags.any_iff _).2 ⟨c, trapping_pre s f c hc hfc huc⟩
  · exact (FpFlags.any_iff _).2 ⟨b, trapping_post s f b (fun c hc h => hpre ⟨c, hc, h⟩) hf hu⟩

/-- The trapping flags are recorded. -/
theorem recordedFlags_of_trapping (s : State) (f : FpFlags) (b : Nat) (h : (trapping s f).bits.getLsbD b = true) :
    (recordedFlags s f).getLsbD b = true := by
  rw [recordedFlags, BitVec.getLsbD_or, h, Bool.true_or]

/-- Only detected flags are recorded. -/
theorem recordedFlags_detected (s : State) (f : FpFlags) (b : Nat) (h : (recordedFlags s f).getLsbD b = true) :
    f.bits.getLsbD b = true := by
  rw [recordedFlags, BitVec.getLsbD_or, BitVec.getLsbD_and, Bool.or_eq_true, Bool.and_eq_true] at h
  rcases h with h | ⟨-, h⟩
  · exact trapping_detected s f b h
  · exact h

/-- Settles O24: the flags recorded are those of `recordedFlags`, which lie between the trapping and the detected ones. -/
theorem unmaskedConditionsTrap : Obligations.UnmaskedConditionsTrap := by
  rintro i s hembedded hr hreadable ⟨b, hdetects, hunmasked⟩
  have htraps := trapping_any_of_unmasked s (detected i s) b ((detects_iff i s b).1 hdetects) hunmasked
  refine ⟨recordedFlags s (detected i s), ?_, ?_, ?_, ?_⟩
  · rw [exec_traps i s hr (third_readable i s hreadable) hembedded htraps, takeException_fp]
  · exact fun c _ hc => (detects_iff i s c).2 (recordedFlags_detected s _ c hc)
  · exact fun c hc hd hu => recordedFlags_of_trapping s _ c (trapping_pre s _ c hc ((detects_iff i s c).1 hd) hu)
  · exact fun hpre c _ hd hu => recordedFlags_of_trapping s _ c
      (trapping_post s _ c (fun k hk h => hpre k hk ⟨(detects_iff i s k).2 h.1, h.2⟩) ((detects_iff i s c).1 hd) hu)

end Sys2Proof.Machine
end

section
/-! SUPPORT. Proofs about launch states (70_reset_and_hazards.md R242, R243): code placed by `withFetchWord` is what a
step runs, and with all exceptions masked a ready instruction completes. -/

namespace Sys2Proof.Machine

/-! ### Placed code -/

/-- The place at RIP of a launch-ready state holds a longest instruction and its successor at canonical addresses. -/
theorem launchReady_canonical (s : State) :
    canonical s.launchReady.cfg.laBits s.launchReady.rip.toNat = true ∧
    canonical s.launchReady.cfg.laBits (s.launchReady.rip.toNat + fetchLimit) = true := by
  unfold State.launchReady
  dsimp only
  split
  next hkept => exact Bool.and_eq_true_iff.1 hkept
  next =>
    cases s.cfg.laBits with
    | la48 => decide
    | la57 => decide

theorem tableWordBytes_length (nbits w : Nat) : (tableWordBytes nbits w).length = maxLength := by
  rw [tableWordBytes, List.length_map, List.length_range]

/-- A number is decoded as its bytes are. -/
theorem decode_of_decodeTableWord (nbits w : Nat) (i : Instr) (h : decodeTableWord nbits w = some i) :
    decode (tableWordBytes nbits w) = .ok i := by
  unfold decodeTableWord at h
  split at h
  next j hdecode => rw [hdecode, Option.some.inj h]
  next => cases h

/-- Every byte of a placed word is fetched. -/
theorem fetchByte_withFetchWord (s : State) (nbits w n : Nat) (b : Byte) (hb : (tableWordBytes nbits w)[n]? = some b) :
    (s.withFetchWord nbits w).fetchByte n = .ok b := by
  obtain ⟨hrip, hlimit⟩ := launchReady_canonical s
  have hend :
      canonical s.launchReady.cfg.laBits (s.launchReady.rip.toNat + (tableWordBytes nbits w).length) = true := by
    rw [tableWordBytes_length]
    exact canonical_between _ _ fetchLimit maxLength hrip hlimit (by decide) (by decide)
  exact fetchByte_placeCode s.launchReady _ n b hb hrip hend (by rw [tableWordBytes_length]; decide)

/-- So its instruction is what a step decodes. -/
theorem fetched_withFetchWord (s : State) (nbits w : Nat) (i : Instr) (h : decodeTableWord nbits w = some i) :
    (s.withFetchWord nbits w).fetched = .ok i :=
  fetched_of_prefix _ _ i (decode_of_decodeTableWord nbits w i h) (by rw [tableWordBytes_length]; decide)
    (fetchByte_withFetchWord s nbits w)

/-- Settles O12: a step at a decoded instruction is the instruction, and placing sets no field of the frame. -/
theorem placedWordsRun : Obligations.PlacedWordsRun := fun s nbits w i h =>
  ⟨step_ok _ i (fetched_withFetchWord s nbits w i h), rfl, rfl, rfl, rfl, rfl, rfl, rfl, rfl⟩

/-! ### All exceptions masked -/

/-- Settles O25: masked conditions do not trap, so a ready instruction whose third operand is read completes. -/
theorem maskedInstructionsComplete : Obligations.MaskedInstructionsComplete := by
  intro i s hready hreadable hmasked
  have hquiet := noUnmasked_of_allMasked s hmasked (lanes i.parts.form.vecLen) (s.active i.parts.mask) (laneResults i s)
  exact ⟨_, exec_completes i s hready (third_readable i s hreadable) fun _ => hquiet⟩

end Sys2Proof.Machine
end
